-- ==== Sys2Proof/Word.lean ====
section
/-! DEFINITION. The widths of the engine: bytes of a frame, words of a register image, time units.
R9: every value is unsigned, bit 0 is the least significant bit. -/

namespace Sys2Proof

/-- R9: a byte is 8 bits. -/
abbrev Byte := BitVec 8

/-- R7 (`REG_W`, `TIMEOUT_W`, `CNT_W`): 16-bit values: image words, frame fields, the time-out, the counters. -/
abbrev Word := BitVec 16

/-- R7, R39 (`TIME_W`): the 32-bit time input and the time stamps taken from it. -/
abbrev Time := BitVec 32

end Sys2Proof
end

