-- ==== Sys2Proof/Machine/Operands.lean ====
section
/-! DEFINITION. The operand forms: byte order of 16-bit fields (R65, R66), reads of the frame buffer (R10 `MemRead`),
coil packing (R101, R141, R142), register packing (R102), and a word with one bit replaced (R10 `coil(n) <- b`). -/

namespace Sys2Proof.Machine

/-- R9: `w[15:8]`. -/
def hiByte (w : Word) : Byte := w.extractLsb' 8 8

/-- R9: `w[7:0]`. -/
def loByte (w : Word) : Byte := w.extractLsb' 0 8

/-- R9: `{hi, lo}`. -/
def mkWord (hi lo : Byte) : Word := hi ++ lo

/-- R10 `MemRead(a,1)`, defined only for `a + 1 <= len`: a byte at or above `len` holds no value and is absent (R38,
U10); whoever needs its value stops with a fault or a rejection of that name. -/
def memRead1 (buf : List Byte) (a : Nat) : Option Byte := buf[a]?

/-- R10, R66 `MemRead(a,2)`, defined only for `a + 2 <= len`: the byte at the lower offset is the more significant. -/
def memRead2 (buf : List Byte) (a : Nat) : Option Word :=
  match memRead1 buf a, memRead1 buf (a + 1) with
  | some hi, some lo => some (mkWord hi lo)
  | _, _ => none

/-- R9: `ceil(a/b)`. -/
def ceilDiv (a b : Nat) : Nat := (a + b - 1) / b

/-- R65: a 16-bit field on the wire, most significant byte first. -/
def field (w : Word) : List Byte := [hiByte w, loByte w]

/-- R9: the byte whose bit `j` is `f j`. -/
def byteOfBits (f : Nat → Bool) : Byte :=
  BitVec.ofBool (f 7) ++ BitVec.ofBool (f 6) ++ BitVec.ofBool (f 5) ++ BitVec.ofBool (f 4) ++
  BitVec.ofBool (f 3) ++ BitVec.ofBool (f 2) ++ BitVec.ofBool (f 1) ++ BitVec.ofBool (f 0)

/-- R101, R141 `pack_bits`: item `k` is bit `k mod 8` of byte `k div 8`; the unused bits are 0. `unpackBits` gives the
items back (R161 a). -/
def packBits (c : List Bool) : List Byte :=
  (List.range (ceilDiv c.length 8)).map fun i => byteOfBits fun j => c.getD (8 * i + j) false

/-- R142 `unpack_bits`: the first `q` bits of the packed bytes, for `q` at most 8 to a byte; a bit of no byte gives no
item. -/
def unpackBits (d : List Byte) (q : Nat) : List Bool :=
  (List.range q).filterMap fun k => (memRead1 d (k / 8)).map fun b => b.getLsbD (k % 8)

/-- R102: registers packed high byte first. `wordsOfBytes` gives the values back (R161 b). -/
def bytesOfWords (ws : List Word) : List Byte := ws.flatMap field

/-- R102 read back: two bytes a word, high byte first; an odd last byte is ignored (R157). -/
def wordsOfBytes : List Byte → List Word
  | hi :: lo :: rest => mkWord hi lo :: wordsOfBytes rest
  | [_] => []
  | [] => []

/-- R10: `w` with bit `k` replaced by `b`, the other 15 bits kept. -/
def setBit (w : Word) (k : Nat) (b : Bool) : Word :=
  if b then w ||| (1#16 <<< k) else w &&& ~~~(1#16 <<< k)

end Sys2Proof.Machine
end

