-- ==== Sys2Proof/Machine/Crc.lean ====
section
/-! DEFINITION. The checksum engine (R130 to R135): a pure function block with no state. -/

namespace Sys2Proof.Machine

/-- R7: the reflected CRC polynomial. -/
def crcPoly : Word := 0xA001#16

/-- R7: the initial value of the CRC register. -/
def crcInit : Word := 0xFFFF#16

/-- R130: one of the eight shifts of a byte: logical shift right, and the polynomial where the bit shifted out is 1. -/
def crcShift (r : Word) : Word :=
  if r.getLsbD 0 then (r >>> 1) ^^^ crcPoly else r >>> 1

/-- R130: one byte goes into the low half of the register, then eight shifts. -/
def crcByte (r : Word) (b : Byte) : Word :=
  Nat.iterate crcShift 8 (r ^^^ b.setWidth 16)

/-- R130 `crc16_raw`: the bytes in ascending index order. -/
def crc16Raw (bytes : List Byte) : Word := bytes.foldl crcByte crcInit

/-- R131 `compute`: the two bytes of the register exchanged. -/
def compute (bytes : List Byte) : Word :=
  let r := crc16Raw bytes
  mkWord (loByte r) (hiByte r)

/-- R132 `append`: the value of `compute`, high byte first, which puts the register's low byte first (R67). -/
def append (bytes : List Byte) : List Byte :=
  let v := compute bytes
  bytes ++ [hiByte v, loByte v]

/-- R133, R134 `verify`: match is `true`; fewer than 4 bytes is a mismatch without any computation,
and 4 bytes or more have the two that are read. -/
def verify (frame : List Byte) : Bool :=
  if frame.length < 4 then false
  else decide (memRead2 frame (frame.length - 2) = some (compute (frame.take (frame.length - 2))))

end Sys2Proof.Machine
end

