-- ==== Sys2Proof/Syntax.lean ====
section
/-! DEFINITION. The instructions: the 17 frame kinds of R105 and the 11 host operations of R115, one constructor for
each row of spec/opcode_table.json; and the coded forms they are decoded from. -/

namespace Sys2Proof

/-- R98: the eight supported function codes. -/
inductive Fc where
  | rdCoils | rdDisc | rdHold | rdInput | wrCoil | wrReg | wrCoils | wrRegs
  deriving DecidableEq, Repr

/-- R106: the direction in which the receiver takes a frame, by its own role; no bit of the frame says it. -/
inductive Dir where
  | request | response
  deriving DecidableEq, Repr

/-- R33: a reference to a register image: an opaque handle (log 3) and the capacity in 16-bit words, 0 to 65536. -/
structure ImgRef where
  handle : Nat
  cap : Fin 65537
  deriving DecidableEq, Repr

/-- R47: the telegram, the argument of `QUERY`. -/
structure Telegram where
  tid : Byte
  fc : Byte
  addr : Word
  qty : Word
  img : ImgRef
  deriving DecidableEq, Repr

/-- R1, R2, R105, R115: what the engine executes. A frame carries its fields and not its checksum, which is implied
(R117); the byte count of a frame with data is the number of its data bytes (R100). -/
inductive Instr where
  -- requests, received by an engine in the slave role (formats RQ6 and RQM, R92, R93)
  | rdCoilsReq (id : Byte) (addr qty : Word)
  | rdDiscReq (id : Byte) (addr qty : Word)
  | rdHoldReq (id : Byte) (addr qty : Word)
  | rdInputReq (id : Byte) (addr qty : Word)
  | wrCoilReq (id : Byte) (addr val : Word)
  | wrRegReq (id : Byte) (addr val : Word)
  | wrCoilsReq (id : Byte) (addr qty : Word) (data : List Byte)
  | wrRegsReq (id : Byte) (addr qty : Word) (data : List Byte)
  -- responses, received by an engine in the master role in WAITING (formats RSB, RS6 and EXC, R94 to R96)
  | rdCoilsRsp (id : Byte) (data : List Byte)
  | rdDiscRsp (id : Byte) (data : List Byte)
  | rdHoldRsp (id : Byte) (data : List Byte)
  | rdInputRsp (id : Byte) (data : List Byte)
  | wrCoilRsp (id : Byte) (addr val : Word)
  | wrRegRsp (id : Byte) (addr val : Word)
  | wrCoilsRsp (id : Byte) (addr qty : Word)
  | wrRegsRsp (id : Byte) (addr qty : Word)
  | excRsp (id : Byte) (fn : BitVec 7) (code : Byte)
  -- host operations (R115)
  | start
  | setTmo (ms : Word)
  | setId (id : Byte)
  | query (tel : Telegram)
  | poll
  | pollr (regs : ImgRef)
  | getState
  | getErr
  | getIn
  | getOut
  | getErrCnt
  deriving DecidableEq, Repr

/-- R45, R115: what the host puts on the command port: the 4-bit code and the argument lines. The spec gives the
arguments and their widths, not their lines: `id` carries `SETID`'s id and a telegram's `tid`, `arg` carries
`SETTMO`'s `ms` and a telegram's `qty` (DESIGN CHOICE, log 4). -/
structure Command where
  op : BitVec 4
  id : Byte := 0
  fc : Byte := 0
  addr : Word := 0
  arg : Word := 0
  img : ImgRef := ⟨0, 0⟩
  deriving DecidableEq, Repr

/-- The two opcode spaces of R105: the bytes of a frame, checksum included, with the direction they are taken in;
and the command port. -/
inductive Code where
  | frame (dir : Dir) (bytes : List Byte)
  | host (cmd : Command)
  deriving DecidableEq, Repr

/-- Why the decoder refuses. -/
inductive Reject where
  /-- R133, R134: the checksum is wrong, or there are fewer than 4 bytes. -/
  | checksum
  /-- R98, R108: the function-code byte is not one the direction has a row for. -/
  | unsupportedFunction
  /-- R107: the length is not the one the format gives. -/
  | length
  /-- R274: a reserved command code. -/
  | reservedCommand
  /-- R38, U10: a read of a byte the frame does not have. No frame is rejected so: the checks before a field is read
  rule it out. -/
  | absentByte
  deriving DecidableEq, Repr

end Sys2Proof
end

