-- ==== Sys2Proof/WellFormed.lean ====
section
/-! DEFINITION. Well-formed instructions: a byte count is 8 bits (R100) and a frame, checksum included, is at most
`FRAME_CAP` bytes (R91). Every other field of an instruction is free: its type is its range. -/

namespace Sys2Proof

/-- The data of a frame whose other bytes number `rest`: its byte count fits 8 bits and the frame fits the buffer. -/
def dataFits (frameCap rest : Nat) (data : List Byte) : Bool :=
  decide (data.length ≤ 255) && decide (rest + data.length ≤ frameCap)

/-- R91, R100: well-formedness for a buffer of `frameCap` bytes. -/
def Instr.wf (frameCap : Nat) : Instr → Bool
  | .wrCoilsReq _ _ _ data | .wrRegsReq _ _ _ data => dataFits frameCap 9 data
  | .rdCoilsRsp _ data | .rdDiscRsp _ data | .rdHoldRsp _ data | .rdInputRsp _ data => dataFits frameCap 5 data
  | .rdCoilsReq .. | .rdDiscReq .. | .rdHoldReq .. | .rdInputReq .. | .wrCoilReq .. | .wrRegReq ..
  | .wrCoilRsp .. | .wrRegRsp .. | .wrCoilsRsp .. | .wrRegsRsp .. => decide (8 ≤ frameCap)
  | .excRsp .. => decide (5 ≤ frameCap)
  | .start | .setTmo _ | .setId _ | .query _ | .poll | .pollr _
  | .getState | .getErr | .getIn | .getOut | .getErrCnt => true

end Sys2Proof
end

