-- ==== Sys2Proof/Decode.lean ====
section
/-! DEFINITION. The decoder, total on any bytes and any command, rejecting by name; after it the encoder, written from
the formats of R90 to R96 and the command codes of R115; and the table's own view of a word. -/

namespace Sys2Proof

open Sys2Proof.Machine

/-- R98: the function-code byte. -/
def fcByte : Fc → Byte
  | .rdCoils => 0x01 | .rdDisc => 0x02 | .rdHold => 0x03 | .rdInput => 0x04
  | .wrCoil => 0x05 | .wrReg => 0x06 | .wrCoils => 0x0F | .wrRegs => 0x10

/-- R98 `supported(fc)`: the eight byte values and no other. -/
def fcOf (b : Byte) : Option Fc :=
  if b = 0x01 then some .rdCoils else if b = 0x02 then some .rdDisc
  else if b = 0x03 then some .rdHold else if b = 0x04 then some .rdInput
  else if b = 0x05 then some .wrCoil else if b = 0x06 then some .wrReg
  else if b = 0x0F then some .wrCoils else if b = 0x10 then some .wrRegs
  else none

/-- R107: the condition on the length `L` of a frame received as a request. -/
def wellFormedRequest (fc : Fc) (f : List Byte) : Bool :=
  match fc with
  | .rdCoils | .rdDisc | .rdHold | .rdInput | .wrCoil | .wrReg => decide (f.length = 8)
  | .wrCoils | .wrRegs => decide (9 ≤ f.length) && (memRead1 f 6).any fun bc => decide (f.length = 9 + bc.toNat)

/-- R107: the condition on the length `L` of a normal frame received as a response. -/
def wellFormedResponse (fc : Fc) (f : List Byte) : Bool :=
  match fc with
  | .rdCoils | .rdDisc | .rdHold | .rdInput =>
    decide (5 ≤ f.length) && (memRead1 f 2).any fun bc => decide (f.length = 5 + bc.toNat)
  | .wrCoil | .wrReg | .wrCoils | .wrRegs => decide (f.length = 8)

/-- The `bc` data bytes of a frame from offset `a` upward (R93, R94, R153). -/
def dataBytes (f : List Byte) (a : Nat) (bc : Byte) : List Byte := (f.drop a).take bc.toNat

/-- R93: a request with data, from its fields and its byte count at offset 6. -/
def withRequestData (f : List Byte) (build : List Byte → Instr) : Except Reject Instr :=
  match memRead1 f 6 with
  | none => .error .absentByte
  | some bc => .ok (build (dataBytes f 7 bc))

/-- R94: a response with data, from its byte count at offset 2. -/
def withResponseData (f : List Byte) (build : List Byte → Instr) : Except Reject Instr :=
  match memRead1 f 2 with
  | none => .error .absentByte
  | some bc => .ok (build (dataBytes f 3 bc))

/-- R95: the two words of a write response. -/
def withTwoWords (f : List Byte) (build : Word → Word → Instr) : Except Reject Instr :=
  match memRead2 f 2, memRead2 f 4 with
  | some a, some w => .ok (build a w)
  | _, _ => .error .absentByte

/-- R92, R93: a request of function code `fc`, from its id and the two words of its fields. -/
def requestFrom (fc : Fc) (f : List Byte) (id : Byte) (a w : Word) : Except Reject Instr :=
  match fc with
  | .rdCoils => .ok (.rdCoilsReq id a w)
  | .rdDisc => .ok (.rdDiscReq id a w)
  | .rdHold => .ok (.rdHoldReq id a w)
  | .rdInput => .ok (.rdInputReq id a w)
  | .wrCoil => .ok (.wrCoilReq id a w)
  | .wrReg => .ok (.wrRegReq id a w)
  | .wrCoils => withRequestData f (.wrCoilsReq id a w)
  | .wrRegs => withRequestData f (.wrRegsReq id a w)

/-- R92, R93, R153: the fields of a request of function code `fc`. -/
def requestOf (fc : Fc) (f : List Byte) : Except Reject Instr :=
  match memRead1 f 0, memRead2 f 2, memRead2 f 4 with
  | some id, some a, some w => requestFrom fc f id a w
  | _, _, _ => .error .absentByte

/-- R94, R95, R154: the fields of a normal response of function code `fc`. -/
def responseOf (fc : Fc) (f : List Byte) : Except Reject Instr :=
  match memRead1 f 0 with
  | none => .error .absentByte
  | some id =>
    match fc with
    | .rdCoils => withResponseData f (.rdCoilsRsp id)
    | .rdDisc => withResponseData f (.rdDiscRsp id)
    | .rdHold => withResponseData f (.rdHoldRsp id)
    | .rdInput => withResponseData f (.rdInputRsp id)
    | .wrCoil => withTwoWords f (.wrCoilRsp id)
    | .wrReg => withTwoWords f (.wrRegRsp id)
    | .wrCoils => withTwoWords f (.wrCoilsRsp id)
    | .wrRegs => withTwoWords f (.wrRegsRsp id)

/-- R96: the fields of an exception frame, `b` its byte at offset 1. -/
def exceptionOf (b : Byte) (f : List Byte) : Except Reject Instr :=
  match memRead1 f 0, memRead1 f 2 with
  | some id, some code => .ok (.excRsp id (b.setWidth 7) code)
  | _, _ => .error .absentByte

/-- R105 to R109: a frame taken as a request. Checksum, then function code, then length (R197); a byte with bit 7 set
is unsupported in a request (R109). -/
def decodeRequest (f : List Byte) : Except Reject Instr :=
  if verify f then
    match memRead1 f 1 with
    | none => .error .absentByte
    | some b =>
      match fcOf b with
      | none => .error .unsupportedFunction
      | some fc => if wellFormedRequest fc f then requestOf fc f else .error .length
  else .error .checksum

/-- R105 to R109: a frame taken as a response. Checksum, then the exception bit with its length, then function code,
then length (R185). -/
def decodeResponse (f : List Byte) : Except Reject Instr :=
  if verify f then
    match memRead1 f 1 with
    | none => .error .absentByte
    | some b =>
      if b.getLsbD 7 then
        if f.length = 5 then exceptionOf b f else .error .length
      else
        match fcOf b with
        | none => .error .unsupportedFunction
        | some fc => if wellFormedResponse fc f then responseOf fc f else .error .length
  else .error .checksum

/-- R106: the direction decides which rows apply. -/
def decodeFrame (d : Dir) (f : List Byte) : Except Reject Instr :=
  match d with
  | .request => decodeRequest f
  | .response => decodeResponse f

/-- R47: the telegram on the command port. -/
def commandTelegram (c : Command) : Telegram := ⟨c.id, c.fc, c.addr, c.arg, c.img⟩

/-- R115: the command codes; 0x6, 0x7, 0xD, 0xE and 0xF are reserved (R274). -/
def decodeCommand (c : Command) : Except Reject Instr :=
  if c.op = 0x0 then .ok .start
  else if c.op = 0x1 then .ok (.setTmo c.arg)
  else if c.op = 0x2 then .ok (.setId c.id)
  else if c.op = 0x3 then .ok (.query (commandTelegram c))
  else if c.op = 0x4 then .ok .poll
  else if c.op = 0x5 then .ok (.pollr c.img)
  else if c.op = 0x8 then .ok .getState
  else if c.op = 0x9 then .ok .getErr
  else if c.op = 0xA then .ok .getIn
  else if c.op = 0xB then .ok .getOut
  else if c.op = 0xC then .ok .getErrCnt
  else .error .reservedCommand

/-- The decoder over both opcode spaces. -/
def decode : Code → Except Reject Instr
  | .frame d f => decodeFrame d f
  | .host c => decodeCommand c

/-- R92, R95: the six body bytes of the formats `RQ6` and `RS6`. -/
def bodySix (id fc : Byte) (addr f2 : Word) : List Byte := id :: fc :: (field addr ++ field f2)

/-- R93: the body of the format `RQM`. -/
def bodyRqm (id fc : Byte) (addr qty : Word) (data : List Byte) : List Byte :=
  bodySix id fc addr qty ++ BitVec.ofNat 8 data.length :: data

/-- R94: the body of the format `RSB`. -/
def bodyRsb (id fc : Byte) (data : List Byte) : List Byte :=
  id :: fc :: BitVec.ofNat 8 data.length :: data

/-- R96: the body of the format `EXC`; byte 1 has bit 7 set. -/
def bodyExc (id : Byte) (fn : BitVec 7) (code : Byte) : List Byte := [id, 1#1 ++ fn, code]

/-- R90 to R96: a frame without its checksum; a host operation has none. -/
def encodeBody : Instr → List Byte
  | .rdCoilsReq id a q => bodySix id 0x01 a q
  | .rdDiscReq id a q => bodySix id 0x02 a q
  | .rdHoldReq id a q => bodySix id 0x03 a q
  | .rdInputReq id a q => bodySix id 0x04 a q
  | .wrCoilReq id a v => bodySix id 0x05 a v
  | .wrRegReq id a v => bodySix id 0x06 a v
  | .wrCoilsReq id a q d => bodyRqm id 0x0F a q d
  | .wrRegsReq id a q d => bodyRqm id 0x10 a q d
  | .rdCoilsRsp id d => bodyRsb id 0x01 d
  | .rdDiscRsp id d => bodyRsb id 0x02 d
  | .rdHoldRsp id d => bodyRsb id 0x03 d
  | .rdInputRsp id d => bodyRsb id 0x04 d
  | .wrCoilRsp id a v => bodySix id 0x05 a v
  | .wrRegRsp id a v => bodySix id 0x06 a v
  | .wrCoilsRsp id a q => bodySix id 0x0F a q
  | .wrRegsRsp id a q => bodySix id 0x10 a q
  | .excRsp id fn code => bodyExc id fn code
  | .start | .setTmo _ | .setId _ | .query _ | .poll | .pollr _
  | .getState | .getErr | .getIn | .getOut | .getErrCnt => []

/-- R160: the whole frame, checksum appended. -/
def encodeFrame (i : Instr) : List Byte := append (encodeBody i)

/-- R47, R115: a telegram on the command port. -/
def telegramCommand (t : Telegram) : Command :=
  { op := 0x3, id := t.tid, fc := t.fc, addr := t.addr, arg := t.qty, img := t.img }

/-- The encoder over both opcode spaces. -/
def encode : Instr → Code
  | .start => .host { op := 0x0 }
  | .setTmo ms => .host { op := 0x1, arg := ms }
  | .setId id => .host { op := 0x2, id := id }
  | .query t => .host (telegramCommand t)
  | .poll => .host { op := 0x4 }
  | .pollr r => .host { op := 0x5, img := r }
  | .getState => .host { op := 0x8 }
  | .getErr => .host { op := 0x9 }
  | .getIn => .host { op := 0xA }
  | .getOut => .host { op := 0xB }
  | .getErrCnt => .host { op := 0xC }
  | .rdCoilsReq id a q => .frame .request (encodeFrame (.rdCoilsReq id a q))
  | .rdDiscReq id a q => .frame .request (encodeFrame (.rdDiscReq id a q))
  | .rdHoldReq id a q => .frame .request (encodeFrame (.rdHoldReq id a q))
  | .rdInputReq id a q => .frame .request (encodeFrame (.rdInputReq id a q))
  | .wrCoilReq id a v => .frame .request (encodeFrame (.wrCoilReq id a v))
  | .wrRegReq id a v => .frame .request (encodeFrame (.wrRegReq id a v))
  | .wrCoilsReq id a q d => .frame .request (encodeFrame (.wrCoilsReq id a q d))
  | .wrRegsReq id a q d => .frame .request (encodeFrame (.wrRegsReq id a q d))
  | .rdCoilsRsp id d => .frame .response (encodeFrame (.rdCoilsRsp id d))
  | .rdDiscRsp id d => .frame .response (encodeFrame (.rdDiscRsp id d))
  | .rdHoldRsp id d => .frame .response (encodeFrame (.rdHoldRsp id d))
  | .rdInputRsp id d => .frame .response (encodeFrame (.rdInputRsp id d))
  | .wrCoilRsp id a v => .frame .response (encodeFrame (.wrCoilRsp id a v))
  | .wrRegRsp id a v => .frame .response (encodeFrame (.wrRegRsp id a v))
  | .wrCoilsRsp id a q => .frame .response (encodeFrame (.wrCoilsRsp id a q))
  | .wrRegsRsp id a q => .frame .response (encodeFrame (.wrRegsRsp id a q))
  | .excRsp id fn code => .frame .response (encodeFrame (.excRsp id fn code))

/-- A row of spec/opcode_table.json: its space, `match` and `mask`. -/
structure Row where
  host : Bool
  pattern : Nat
  mask : Nat
  deriving DecidableEq, Repr

/-- R105, R115: the 28 rows. A frame row is over the 17 bits `{dir, buf[0], buf[1]}`, a host row over the 4-bit code. -/
def opcodeTable : List Row :=
  [⟨false, 0x00001, 0x100FF⟩, ⟨false, 0x00002, 0x100FF⟩, ⟨false, 0x00003, 0x100FF⟩, ⟨false, 0x00004, 0x100FF⟩,
   ⟨false, 0x00005, 0x100FF⟩, ⟨false, 0x00006, 0x100FF⟩, ⟨false, 0x0000F, 0x100FF⟩, ⟨false, 0x00010, 0x100FF⟩,
   ⟨false, 0x10001, 0x100FF⟩, ⟨false, 0x10002, 0x100FF⟩, ⟨false, 0x10003, 0x100FF⟩, ⟨false, 0x10004, 0x100FF⟩,
   ⟨false, 0x10005, 0x100FF⟩, ⟨false, 0x10006, 0x100FF⟩] ++
  [⟨false, 0x1000F, 0x100FF⟩, ⟨false, 0x10010, 0x100FF⟩, ⟨false, 0x10080, 0x10080⟩,
   ⟨true, 0x0, 0xF⟩, ⟨true, 0x1, 0xF⟩, ⟨true, 0x2, 0xF⟩, ⟨true, 0x3, 0xF⟩, ⟨true, 0x4, 0xF⟩, ⟨true, 0x5, 0xF⟩,
   ⟨true, 0x8, 0xF⟩, ⟨true, 0x9, 0xF⟩, ⟨true, 0xA, 0xF⟩, ⟨true, 0xB, 0xF⟩, ⟨true, 0xC, 0xF⟩]

/-- Where an instruction's row stands in `opcodeTable`. -/
def Instr.rowIndex : Instr → Nat
  | .rdCoilsReq .. => 0 | .rdDiscReq .. => 1 | .rdHoldReq .. => 2 | .rdInputReq .. => 3
  | .wrCoilReq .. => 4 | .wrRegReq .. => 5 | .wrCoilsReq .. => 6 | .wrRegsReq .. => 7
  | .rdCoilsRsp .. => 8 | .rdDiscRsp .. => 9 | .rdHoldRsp .. => 10 | .rdInputRsp .. => 11
  | .wrCoilRsp .. => 12 | .wrRegRsp .. => 13 | .wrCoilsRsp .. => 14 | .wrRegsRsp .. => 15 | .excRsp .. => 16
  | .start => 17 | .setTmo _ => 18 | .setId _ => 19 | .query _ => 20 | .poll => 21 | .pollr _ => 22
  | .getState => 23 | .getErr => 24 | .getIn => 25 | .getOut => 26 | .getErrCnt => 27

/-- The number the table matches a code over, and whether it is in the host space; a frame without the two bytes of
the opcode has none. -/
def tableKey : Code → Option (Bool × Nat)
  | .frame d f =>
    match memRead1 f 0, memRead1 f 1 with
    | some id, some fc =>
      some (false, (match d with | .request => 0 | .response => 1) * 65536 + id.toNat * 256 + fc.toNat)
    | _, _ => none
  | .host c => some (true, c.op.toNat)

/-- R105: a code matches a row when it lies in the row's space and its key under the mask is the pattern. -/
def Row.admits (r : Row) (c : Code) : Bool :=
  (tableKey c).any fun key => (key.1 == r.host) && (key.2 &&& r.mask == r.pattern)

/-- How many zero bytes follow `id` and `fc` in the shortest frame of the format (R92 to R96), the checksum left out. -/
def tablePayload (d : Dir) (fc : Byte) : Nat :=
  match d, fcOf fc with
  | .request, some .wrCoils | .request, some .wrRegs => 5
  | .request, some _ => 4
  | .request, none => 0
  | .response, some .wrCoil | .response, some .wrReg | .response, some .wrCoils | .response, some .wrRegs => 4
  | .response, some _ => 1
  | .response, none => if fc.getLsbD 7 then 1 else 0

/-- The frame of a table word: the two bytes the table gives, operand bytes of zero, and the checksum, which is no
operand but implied by the bytes before it (R117; log 5). -/
def tableFrame (d : Dir) (id fc : Byte) : List Byte :=
  append (id :: fc :: List.replicate (tablePayload d fc) 0)

/-- A table word laid out as the hardware takes it: up to 16 bits it is a command code, above that the 17 bits
`{dir, buf[0], buf[1]}` of a frame row (R105). -/
def tableCode (nbits w : Nat) : Option Code :=
  if nbits ≤ 16 then
    if w < 16 then some (.host { op := BitVec.ofNat 4 w }) else none
  else if w < 131072 then
    let d : Dir := if w / 65536 = 0 then .request else .response
    some (.frame d (tableFrame d (BitVec.ofNat 8 (w / 256)) (BitVec.ofNat 8 w)))
  else none

/-- The instruction the decoder reads from a word numbered as spec/opcode_table.json numbers it. -/
def decodeTableWord (nbits w : Nat) : Option Instr :=
  match tableCode nbits w with
  | none => none
  | some c =>
    match decode c with
    | .ok i => some i
    | .error _ => none

end Sys2Proof
end

