-- ==== Sys2Proof/Config.lean ====
section
/-! DEFINITION. The parameters of an instance of the engine (R7, R8, R14). The spec makes them arguments of the
model; the host fixes the type of `exec`, so an instance's parameters ride in `State.cfg`, which no step writes
(log 1). -/

namespace Sys2Proof.Config

/-- R7: what an integrator fixes for one instance. -/
structure Params where
  /-- `FRAME_CAP`: capacity of the frame buffer in bytes; 256, or 64 in the constrained variant. -/
  frameCap : Nat
  /-- `T_IDLE`: the inter-frame idle threshold in time units; OPEN in the spec (R8, U9). -/
  tIdle : Nat
  /-- `TIMEOUT_RESET`: the reset value of the response time-out; OPEN in the spec (R25, U8). -/
  timeoutReset : Word
  deriving DecidableEq, Repr

/-- R7: every rule holds for any `FRAME_CAP >= 9`, and `T_IDLE` is an integer `>= 1`. -/
def Params.wf (p : Params) : Bool := decide (9 ≤ p.frameCap) && decide (1 ≤ p.tIdle)

/-- The instance `State.reset` stands for. `FRAME_CAP` = 256 is the spec's default (R7); `T_IDLE` = 5 is the
value its test vectors use and `TIMEOUT_RESET` = 0 is the model's own (DESIGN CHOICE, logs 1 and 2, unsafe): no
statement rests on either. -/
def reference : Params := { frameCap := 256, tIdle := 5, timeoutReset := 0 }

end Sys2Proof.Config
end

