-- ==== Sys2Proof/Machine/State.lean ====
section
/-! DEFINITION. The state: the engine's architectural state (R20, R37), the environment the model needs (R14), the
host's result port (R45) and the schedule that says which agent moves next (R13; log 6). Plain data. -/

namespace Sys2Proof.Machine

/-- R23: the role state machine's register; 1 bit, `IDLE` = 0, `WAITING` = 1. -/
inductive Phase where
  | idle | waiting
  deriving DecidableEq, Repr

/-- R290: the failures a poll records. `executionFailure` is in the list and is never raised (R294). -/
inductive ErrKind where
  | none | illegalFunction | illegalAddressRange | illegalQuantity | executionFailure
  | remoteException | bufferOverflow | noReply
  deriving DecidableEq, Repr

/-- R42: the events handed to the transport. -/
inductive TxEvent where
  | de (on : Bool)
  | write (bytes : List Byte)
  | flush
  deriving DecidableEq, Repr

/-- R116: `SetIdResult`. -/
inductive SetIdResult where
  | accepted | rejected
  deriving DecidableEq, Repr

/-- R116: `QueryResult`. -/
inductive QueryResult where
  | ok | notMaster | alreadyWaiting | invalidTargetId
  deriving DecidableEq, Repr

/-- R116: the `kind` of a `PollResult`. -/
inductive PollKind where
  | none | ignored | done | error
  deriving DecidableEq, Repr

/-- R116, R273: what a poll returns. -/
structure PollResult where
  kind : PollKind
  fc : Byte
  err : Word
  deriving DecidableEq, Repr

/-- R45, R115: what an operation returns to the host. `none` stands on the port before the first operation ends
(log 7); `unit` is the result of an operation that returns nothing. -/
inductive OpResult where
  | none
  | unit
  | setId (r : SetIdResult)
  | query (r : QueryResult)
  | poll (r : PollResult)
  | state (b : BitVec 1)
  | word (w : Word)
  deriving DecidableEq, Repr

/-- R13: one move of an agent. -/
inductive Event where
  /-- The host issues one operation. -/
  | op (cmd : Command)
  /-- The transport's receive side appends a byte to the receive queue (R40). -/
  | rxByte (b : Byte)
  /-- The clock advances (R39). -/
  | tick (d : Time)
  /-- The host changes a word of an image between operations (R13, R322). -/
  | imageWrite (handle : Nat) (index : Word) (value : Word)
  /-- The reset input is sampled high (R46, R320). -/
  | rst
  deriving DecidableEq, Repr

/-- The bytes of every register image, as address and byte pairs: addresses strictly rising, no zero byte listed. -/
abbrev Memory := List Host.Cell

/-- The state. `buf` is `buf[0..len-1]`, so that `len` is its length (R30, R31, D32). What holds no value is absent
(R38): `tLast` while `len = 0`, `tSend` in `IDLE`, the image reference before one is attached. -/
structure State where
  cfg : Config.Params
  ownId : Byte
  phase : Phase
  lastError : ErrKind
  lastExc : Byte
  timeout : Word
  buf : List Byte
  tLast : Option Time
  tSend : Option Time
  imgRef : Option ImgRef
  inCnt : Word
  outCnt : Word
  errCnt : Word
  rxq : List Byte
  now : Time
  txLog : List TxEvent
  mem : Memory
  result : OpResult
  schedule : List Event
  deriving DecidableEq, Repr

/-- Why a run stops. Each is a case the spec treats as a fault of the model. -/
inductive Fault where
  /-- U2, R159: a master-side encoder or decoder would touch `x[i]` with `i >= cap`. Raised by `execQuery` and by the
  meanings of the read responses. Safe: the spec gives the access no value. -/
  | imageBound
  /-- U10, R38: a read of a byte of `buf` at or above `len`, or of `t_last` or `t_send` while it holds no value. Raised
  by the validator, the two role cycles, the boundary detector and the time-out test; no state that meets the invariant
  reaches it. Safe. -/
  | absentRead
  /-- U4, R214: something other than a supported frame reaches the function dispatcher. Raised by `dispatchFrame`; no
  step reaches it. Safe. -/
  | unsupportedAtDispatcher
  deriving DecidableEq, Repr

/-- Why the model has no transition. -/
inductive Refusal where
  /-- An instruction that has no meaning yet; raised by `exec` alone. Safe. -/
  | notModelled (mnemonic : String)
  /-- U3, R274: a reserved command code. Raised by `step`. Safe: the host must not issue it. -/
  | reservedCommand
  /-- U1, R234: an accepted `QUERY` whose function code is not supported. Raised by `execQuery`. Safe. -/
  | telegramUnsupported
  /-- U1, R151: an accepted `QUERY` whose frame does not fit. Raised by `execQuery`. Safe. -/
  | telegramDoesNotFit
  /-- R106: a request at an engine that is not a slave, or a response at one that is not a master in `WAITING`: there
  those bytes are not that instruction. Raised by the frame meanings; no step reaches it. Safe. -/
  | directionNotOfRole
  deriving DecidableEq, Repr

/-- R320, R321: the state after reset of an instance with the parameters `p`. -/
def State.resetWith (p : Config.Params) : State where
  cfg := p
  ownId := 0
  phase := .idle
  lastError := .none
  lastExc := 0
  timeout := p.timeoutReset
  buf := []
  tLast := none
  tSend := none
  imgRef := none
  inCnt := 0
  outCnt := 0
  errCnt := 0
  rxq := []
  now := 0
  txLog := []
  mem := []
  result := .none
  schedule := []

/-- R320: the machine right after reset, for the reference instance (log 1). -/
def State.reset : State := State.resetWith Config.reference

end Sys2Proof.Machine
end

