-- ==== Sys2Proof/Machine/Flags.lean ====
section
/-! DEFINITION. The status record and the counters: the codes of the error kinds (R291), of the wire exceptions (R292)
and of the results (R116, R293), and what the error accessor reads (R277). -/

namespace Sys2Proof.Machine

/-- R291: the 8-bit code of an error kind. -/
def errCode : ErrKind → Byte
  | .none => 0x00
  | .illegalFunction => 0x01
  | .illegalAddressRange => 0x02
  | .illegalQuantity => 0x03
  | .executionFailure => 0x04
  | .remoteException => 0x80
  | .bufferOverflow => 0xFD
  | .noReply => 0xFF

/-- R292: the exceptions that have a code on the wire. `executionFailure` is never sent (R294). -/
inductive ExcKind where
  | illegalFunction | illegalAddressRange | illegalQuantity | executionFailure
  deriving DecidableEq, Repr

/-- R292 `wire_code`. -/
def wireCode : ExcKind → Byte
  | .illegalFunction => 0x01
  | .illegalAddressRange => 0x02
  | .illegalQuantity => 0x03
  | .executionFailure => 0x04

/-- R290: the error kind a slave records with an exception it sends. -/
def errOfExc : ExcKind → ErrKind
  | .illegalFunction => .illegalFunction
  | .illegalAddressRange => .illegalAddressRange
  | .illegalQuantity => .illegalQuantity
  | .executionFailure => .executionFailure

/-- R277: `{last_exc, last_error}`. -/
def errWord (exc : Byte) (k : ErrKind) : Word := mkWord exc (errCode k)

/-- R23: the value of the state register. -/
def phaseCode : Phase → BitVec 1
  | .idle => 0
  | .waiting => 1

/-- R116: 0 accepted, 1 rejected. -/
def setIdCode : SetIdResult → BitVec 1
  | .accepted => 0
  | .rejected => 1

/-- R116, R293. -/
def queryCode : QueryResult → BitVec 2
  | .ok => 0
  | .notMaster => 1
  | .alreadyWaiting => 2
  | .invalidTargetId => 3

/-- R116: the 2-bit kind of a poll result. -/
def pollKindCode : PollKind → BitVec 2
  | .none => 0
  | .ignored => 1
  | .done => 2
  | .error => 3

/-- R116, R273: nothing to report. -/
def pollNone : OpResult := .poll ⟨.none, 0, 0⟩

/-- R116, R273: a frame for another device was discarded. -/
def pollIgnored : OpResult := .poll ⟨.ignored, 0, 0⟩

/-- R116, R273: a transaction completed; `fc` is the function-code byte of the frame. -/
def pollDone (fc : Byte) : OpResult := .poll ⟨.done, fc, 0⟩

/-- R116, R273: a failure; `err` is the pair just recorded. -/
def pollError (exc : Byte) (k : ErrKind) : OpResult := .poll ⟨.error, 0, errWord exc k⟩

/-- R29: an increment of a 16-bit counter, which wraps from 65535 to 0. -/
def bump (c : Word) : Word := c + 1

end Sys2Proof.Machine
end

