-- ==== Sys2Proof/Machine/Ops.lean ====
section
/-! DEFINITION. The operations the meanings share: the register images (R21, R44, R60 to R62), transmitting a frame
(R42), recording a failure (R296), completing a transaction (R241, R256, R257), the exception responder (R215). -/

namespace Sys2Proof.Machine

/-! ## The bytes behind the images -/

/-- What an address reads as: the byte listed for it, else 0 (log 8). -/
def Memory.read : Memory → Nat → Byte
  | [], _ => 0
  | (k, v) :: rest, a => if k = a then v else Memory.read rest a

/-- The byte in its place by address, in a list that does not hold the address. -/
def Memory.insert : Memory → Nat → Byte → Memory
  | [], a, b => [(a, b)]
  | (k, v) :: rest, a, b => if k < a then (k, v) :: Memory.insert rest a b else (a, b) :: (k, v) :: rest

/-- A byte written: a zero is not listed, so that equal memories are equal lists. -/
def Memory.write (m : Memory) (a : Nat) (b : Byte) : Memory :=
  let rest := m.filter fun c => c.1 != a
  if b = 0 then rest else Memory.insert rest a b

/-- The canonical form: addresses strictly rising, no zero byte listed. -/
def Memory.wf : Memory → Bool
  | [] => true
  | (k, v) :: rest => (v != 0) && rest.all (fun c => decide (k < c.1)) && Memory.wf rest

/-! ## The register images -/

/-- Where word `i` of image `h` lies: its low half at this address, its high half at the next (log 8). An image has
at most 65536 words (R33), so two images never meet. -/
def wordAddr (h i : Nat) : Nat := h * 131072 + 2 * i

/-- R61: word `i` of image `h`. -/
def Memory.word (m : Memory) (h i : Nat) : Word :=
  mkWord (Memory.read m (wordAddr h i + 1)) (Memory.read m (wordAddr h i))

/-- R44: word `i` of image `h` written. -/
def Memory.setWord (m : Memory) (h i : Nat) (w : Word) : Memory :=
  Memory.write (Memory.write m (wordAddr h i) (loByte w)) (wordAddr h i + 1) (hiByte w)

/-- R62: coil `n` is bit `n mod 16` of word `n div 16`. -/
def Memory.coil (m : Memory) (h n : Nat) : Bool := (Memory.word m h (n / 16)).getLsbD (n % 16)

/-- R10 `coil(n) <- b`: one word read, one word written, the other 15 bits kept (R72). -/
def Memory.setCoil (m : Memory) (h n : Nat) (b : Bool) : Memory :=
  Memory.setWord m h (n / 16) (setBit (Memory.word m h (n / 16)) (n % 16) b)

/-- R69, R156: data byte `i` into the low half of word `i div 2` where `i` is even, into the high half where it is odd. -/
def Memory.setHalf (m : Memory) (h i : Nat) (b : Byte) : Memory :=
  let w := Memory.word m h (i / 2)
  Memory.setWord m h (i / 2) (if i % 2 = 0 then mkWord (hiByte w) b else mkWord b (loByte w))

/-- Words from index `i` upward, in ascending order (R79). -/
def Memory.setWords (m : Memory) (h i : Nat) : List Word → Memory
  | [] => m
  | w :: ws => Memory.setWords (Memory.setWord m h i w) h (i + 1) ws

/-- Coils from address `n` upward, in ascending order (R79). -/
def Memory.setCoils (m : Memory) (h n : Nat) : List Bool → Memory
  | [] => m
  | b :: bs => Memory.setCoils (Memory.setCoil m h n b) h (n + 1) bs

/-- Data bytes from byte number `i` upward (R156). -/
def Memory.setHalves (m : Memory) (h i : Nat) : List Byte → Memory
  | [] => m
  | b :: bs => Memory.setHalves (Memory.setHalf m h i b) h (i + 1) bs

/-- R33: the capacity of the current image, the one `img_ref` designates, whichever operation attached it (DESIGN
CHOICE for a slave that has had no `POLLR` of its own, log 20); 0 where none is attached. -/
def State.cap (s : State) : Nat :=
  match s.imgRef with
  | none => 0
  | some r => r.cap.val

/-- The current image, for `count` accesses of which the highest word index is below `need`. No access needs no
image; an access at or above `cap` is the fault of R159. -/
def State.withImage {α : Type} (s : State) (count need : Nat) (nothing : α) (use : Nat → α) : Except Fault α :=
  if count = 0 then .ok nothing
  else
    match s.imgRef with
    | none => .error .imageBound
    | some r => if need ≤ r.cap.val then .ok (use r.handle) else .error .imageBound

/-- Words `a` to `a + n - 1` of the current image. -/
def State.loadWords (s : State) (a n : Nat) : Except Fault (List Word) :=
  s.withImage n (a + n) [] fun h => (List.range n).map fun k => Memory.word s.mem h (a + k)

/-- Coils `a` to `a + n - 1` of the current image. -/
def State.loadCoils (s : State) (a n : Nat) : Except Fault (List Bool) :=
  s.withImage n ((a + n - 1) / 16 + 1) [] fun h => (List.range n).map fun k => Memory.coil s.mem h (a + k)

/-- Words of the current image from `a` upward written. -/
def State.storeWords (s : State) (a : Nat) (ws : List Word) : Except Fault State :=
  s.withImage ws.length (a + ws.length) s fun h => { s with mem := Memory.setWords s.mem h a ws }

/-- Coils of the current image from `a` upward written. -/
def State.storeCoils (s : State) (a : Nat) (bs : List Bool) : Except Fault State :=
  s.withImage bs.length ((a + bs.length - 1) / 16 + 1) s fun h => { s with mem := Memory.setCoils s.mem h a bs }

/-- Whole data bytes written to the current image from word 0 upward (R156). -/
def State.storeBytes (s : State) (d : List Byte) : Except Fault State :=
  s.withImage d.length (ceilDiv d.length 2) s fun h => { s with mem := Memory.setHalves s.mem h 0 d }

/-! ## The engine's registers -/

/-- R39: `elapsed(t) = (Now - t) mod 2^32`. -/
def State.elapsed (s : State) (t : Time) : Nat := (s.now - t).toNat

/-- An operation ends with the result `r` and has changed nothing else. -/
def State.answer (s : State) (r : OpResult) : State := { s with result := r }

/-- R180: `len <- 0`; `t_last` then holds no value (R32). -/
def State.emptyBuf (s : State) : State := { s with buf := [], tLast := none }

/-- R245: `state <- IDLE`; `t_send` then holds no value (R34). -/
def State.toIdle (s : State) : State := { s with phase := .idle, tSend := none }

/-- R296, R241: in the master role `state <- IDLE`; the slave cycle does not touch `state` (R250). -/
def State.endTransaction (s : State) : State := if s.ownId = 0 then s.toIdle else s

/-- R42 `Transmit`: the four events in this order, `out_cnt` + 1, `len <- 0`. -/
def State.transmit (s : State) (frame : List Byte) : State :=
  { s.emptyBuf with
    txLog := s.txLog ++ [.de true, .write frame, .flush, .de false]
    outCnt := bump s.outCnt }

/-- R237, R252: the candidate frame is counted and taken out of the buffer. The frame's fields are read before
anything is written over it (R82, D32). -/
def State.consume (s : State) : State := { s.emptyBuf with inCnt := bump s.inCnt }

/-- R296: what every failure does, inside the poll that found it: this is the engine's taking of an exception. There is
no return from one (R299): nothing is saved, the operation returns to the host. -/
def State.takeException (s : State) (k : ErrKind) (exc : Byte) : State :=
  { s.emptyBuf.endTransaction with
    errCnt := bump s.errCnt
    lastError := k
    lastExc := exc
    result := pollError exc k }

/-- R241, R256, R257: a transaction completes; `fc` is the function-code byte of the frame served or decoded. -/
def State.complete (s : State) (fc : Byte) : State :=
  { s.emptyBuf.endTransaction with
    lastError := .none
    lastExc := 0
    result := pollDone fc }

/-- R253: a frame for another device is discarded. -/
def State.ignore (s : State) : State := s.emptyBuf.answer pollIgnored

/-- R215, R255: the exception responder and what the slave records; `rfc` is the request's function-code byte. -/
def State.refuseRequest (s : State) (rfc : Byte) (e : ExcKind) : State :=
  (s.transmit (encodeFrame (.excRsp s.ownId (rfc.setWidth 7) (wireCode e)))).takeException (errOfExc e) 0

/-- R320: the engine's state after the reset input; the environment (R14) keeps its own, the host's result port is
emptied. -/
def State.resetEngine (s : State) : State :=
  { State.resetWith s.cfg with
    rxq := s.rxq, now := s.now, txLog := s.txLog, mem := s.mem, schedule := s.schedule }

end Sys2Proof.Machine
end

