-- ==== Sys2Proof/Machine/HostOps.lean ====
section
/-! DEFINITION. The configuration operations and the accessors (R265 to R282). -/

namespace Sys2Proof.Machine

/-- R266 `START`: `own_id`, `timeout` and `img_ref` keep their values. -/
def execStart (s : State) : Host.Outcome State Fault Refusal :=
  .next { s.emptyBuf.toIdle with
    lastError := .none, lastExc := 0, inCnt := 0, outCnt := 0, errCnt := 0, result := .unit }

/-- R267 `SETTMO`. -/
def execSetTmo (ms : Word) (s : State) : Host.Outcome State Fault Refusal :=
  .next { s with timeout := ms, result := .unit }

/-- R268 `SETID`: 0 and everything above 247 is rejected and changes nothing. An accepted one keeps `img_ref`, so that a
slave that was a master keeps the image of its latest accepted `QUERY` or `POLLR` until the next `POLLR`, though R250
and R270 name the image of the latest `POLLR` alone (DESIGN CHOICE, log 20, unsafe). -/
def execSetId (id : Byte) (s : State) : Host.Outcome State Fault Refusal :=
  if id = 0 ∨ 247 < id.toNat then .next (s.answer (.setId .rejected))
  else .next { s.emptyBuf.toIdle with ownId := id, result := .setId .accepted }

/-- R276 `GETSTATE`. -/
def execGetState (s : State) : Host.Outcome State Fault Refusal := .next (s.answer (.state (phaseCode s.phase)))

/-- R277 `GETERR`. -/
def execGetErr (s : State) : Host.Outcome State Fault Refusal := .next (s.answer (.word (errWord s.lastExc s.lastError)))

/-- R278 `GETIN`. -/
def execGetIn (s : State) : Host.Outcome State Fault Refusal := .next (s.answer (.word s.inCnt))

/-- R279 `GETOUT`. -/
def execGetOut (s : State) : Host.Outcome State Fault Refusal := .next (s.answer (.word s.outCnt))

/-- R280 `GETERRCNT`. -/
def execGetErrCnt (s : State) : Host.Outcome State Fault Refusal := .next (s.answer (.word s.errCnt))

end Sys2Proof.Machine
end

