-- ==== Sys2Proof/Machine/Detector.lean ====
section
/-! DEFINITION. The boundary detector (R170 to R181). -/

namespace Sys2Proof.Machine

/-- R171: the three results of `rx_step`. -/
inductive RxResult where
  | incomplete | complete | overflow
  deriving DecidableEq, Repr

/-- R171, R172, R176: the reading loop: queue, buffer; answers whether it overflowed, the buffer and the queue left. -/
def rxLoop (frameCap : Nat) : List Byte → List Byte → Bool × List Byte × List Byte
  | [], buf => (false, buf, [])
  | b :: q, buf => if buf.length = frameCap then (true, [], q) else rxLoop frameCap q (buf ++ [b])

/-- R171 after the loop read at least one byte: the bytes it appended are stamped with `Now` (R173); after an overflow
the buffer is empty and the bytes not read stay in the queue (R176). -/
def State.rxRead (s : State) : RxResult × State :=
  match rxLoop s.cfg.frameCap s.rxq s.buf with
  | (true, _, q) => (.overflow, { s.emptyBuf with rxq := q })
  | (false, buf, q) => (.incomplete, { s with buf := buf, tLast := some s.now, rxq := q })

/-- R174, R175: a step that read no byte. -/
def State.rxSilence (s : State) : Except Fault RxResult :=
  if s.buf = [] then .ok .incomplete
  else
    match s.tLast with
    | none => .error .absentRead
    | some t => .ok (if s.cfg.tIdle ≤ s.elapsed t then .complete else .incomplete)

/-- R171 `rx_step`. -/
def State.rxStep (s : State) : Except Fault (RxResult × State) :=
  if s.rxq = [] then
    match s.rxSilence with
    | .error f => .error f
    | .ok r => .ok (r, s)
  else .ok s.rxRead

end Sys2Proof.Machine
end

