-- ==== Sys2Proof/Machine/Validator.lean ====
section
/-! DEFINITION. The validator (R185 to R199): pure functions of the frame and, for requests, of the capacity. -/

namespace Sys2Proof.Machine

/-- R190: the verdicts on a request. -/
inductive RequestVerdict where
  | ok | noReply | illegal (e : ExcKind)
  deriving DecidableEq, Repr

/-- R185: the verdicts on an answer. -/
inductive AnswerVerdict where
  | ok | noReply | illegalFunction | remoteException (code : Byte)
  deriving DecidableEq, Repr

/-- R113: `DMAX`, the most data bytes a read response can carry. -/
def dmax (frameCap : Nat) : Nat := min 255 (frameCap - 5)

/-- R194 `quantity_ok`: `f2` is the second field, `bc` the byte count of an `RQM` frame. -/
def quantityOk (frameCap : Nat) (fc : Fc) (f2 bc : Nat) : Bool :=
  match fc with
  | .rdCoils | .rdDisc => decide (1 ≤ f2) && decide (f2 ≤ 8 * dmax frameCap)
  | .rdHold | .rdInput => decide (1 ≤ f2) && decide (f2 ≤ dmax frameCap / 2)
  | .wrCoil | .wrReg => true
  | .wrCoils => decide (1 ≤ f2) && decide (bc = ceilDiv f2 8)
  | .wrRegs => decide (1 ≤ f2) && decide (bc = 2 * f2)

/-- R195 `top_index`, over unbounded integers. -/
def topIndex (fc : Fc) (addr f2 : Nat) : Nat :=
  match fc with
  | .rdCoils | .rdDisc | .wrCoils => (addr + f2 - 1) / 16
  | .rdHold | .rdInput | .wrRegs => addr + f2 - 1
  | .wrCoil => addr / 16
  | .wrReg => addr

/-- R194 to R197: the checks on the fields of a request, quantity before range; `none` is a request in order. -/
def fieldDefect (frameCap cap : Nat) (fc : Fc) (addr f2 : Word) (bc : Nat) : Option ExcKind :=
  if quantityOk frameCap fc f2.toNat bc then
    if cap ≤ topIndex fc addr.toNat f2.toNat then some .illegalAddressRange else none
  else some .illegalQuantity

/-- The byte count of a request, for the formats that have one (R93). -/
def requestCount (fc : Fc) (f : List Byte) : Option Nat :=
  match fc with
  | .wrCoils | .wrRegs => (memRead1 f 6).map BitVec.toNat
  | .rdCoils | .rdDisc | .rdHold | .rdInput | .wrCoil | .wrReg => some 0

/-- R193 to R197: the checks on the fields of a well-formed request. A field its frame does not have is the fault of
R38. -/
def validateFields (frameCap cap : Nat) (fc : Fc) (f : List Byte) : Except Fault RequestVerdict :=
  match memRead2 f 2, memRead2 f 4, requestCount fc f with
  | some a, some w, some bc =>
    match fieldDefect frameCap cap fc a w bc with
    | some e => .ok (.illegal e)
    | none => .ok .ok
  | _, _, _ => .error .absentRead

/-- R190 `validate_request`. -/
def validateRequest (frameCap cap : Nat) (f : List Byte) : Except Fault RequestVerdict :=
  if verify f then
    match memRead1 f 1 with
    | none => .error .absentRead
    | some b =>
      match fcOf b with
      | none => .ok (.illegal .illegalFunction)
      | some fc => if wellFormedRequest fc f then validateFields frameCap cap fc f else .ok .noReply
  else .ok .noReply

/-- The verdict on an exception answer of the right length: its code, as received (R187). -/
def validateException (f : List Byte) : Except Fault AnswerVerdict :=
  match memRead1 f 2 with
  | none => .error .absentRead
  | some code => .ok (.remoteException code)

/-- R185 `validate_answer`. -/
def validateAnswer (f : List Byte) : Except Fault AnswerVerdict :=
  if verify f then
    match memRead1 f 1 with
    | none => .error .absentRead
    | some b =>
      if b.getLsbD 7 then
        if f.length = 5 then validateException f else .ok .noReply
      else
        match fcOf b with
        | none => .ok .illegalFunction
        | some fc => .ok (if wellFormedResponse fc f then .ok else .noReply)
  else .ok .noReply

/-- The slave's execution of one request, given what its handler does: the frame is this device's (R253), its fields
are in order (R194, R196), the handler runs and its response is sent (R205, R256). Only an engine in the slave role
receives requests (R106). -/
def State.serve (s : State) (id : Byte) (fc : Fc) (addr f2 : Word) (bc : Nat)
    (handler : State → Except Fault (Instr × State)) : Host.Outcome State Fault Refusal :=
  if s.ownId = 0 then .refused .directionNotOfRole
  else if id ≠ s.ownId then .next s.ignore
  else
    match fieldDefect s.cfg.frameCap s.cap fc addr f2 bc with
    | some e => .next (s.refuseRequest (fcByte fc) e)
    | none =>
      match handler s with
      | .error f => .fault f
      | .ok (response, s') => .next ((s'.transmit (encodeFrame response)).complete (fcByte fc))

/-- The master's reception of one normal answer, given what its decoder does (R241). Only a master in `WAITING`
receives responses (R106). -/
def State.accept (s : State) (fc : Fc) (decoder : State → Except Fault State) : Host.Outcome State Fault Refusal :=
  if s.ownId = 0 ∧ s.phase = .waiting then
    match decoder s with
    | .error f => .fault f
    | .ok s' => .next (s'.complete (fcByte fc))
  else .refused .directionNotOfRole

end Sys2Proof.Machine
end

