-- ==== Sys2Proof/Machine/MasterAnswers.lean ====
section
/-! DEFINITION. The master's decoding of the nine responses (R154 to R158, R163 to R167, R239). The decoder is chosen
by the answer's own function code (R154); neither the id nor anything else is matched against the query (R244). -/

namespace Sys2Proof.Machine

/-- R156: whole data bytes into the image from word 0, which are the slave's coils (R161 d); when their number is odd the high half of the last word keeps
its value. -/
def State.decodeCoils (s : State) (data : List Byte) : Except Fault State := s.storeBytes data

/-- R157: words into the image from word 0, which are the slave's words (R161 d); an odd last byte is ignored. -/
def State.decodeWords (s : State) (data : List Byte) : Except Fault State := s.storeWords 0 (wordsOfBytes data)

/-- R156 `RDCOILS.RSP`. -/
def execRdCoilsRsp (_id : Byte) (data : List Byte) (s : State) : Host.Outcome State Fault Refusal :=
  s.accept .rdCoils fun s => s.decodeCoils data

/-- R163 `RDDISC.RSP`. -/
def execRdDiscRsp (_id : Byte) (data : List Byte) (s : State) : Host.Outcome State Fault Refusal :=
  s.accept .rdDisc fun s => s.decodeCoils data

/-- R157 `RDHOLD.RSP`. -/
def execRdHoldRsp (_id : Byte) (data : List Byte) (s : State) : Host.Outcome State Fault Refusal :=
  s.accept .rdHold fun s => s.decodeWords data

/-- R164 `RDINPUT.RSP`. -/
def execRdInputRsp (_id : Byte) (data : List Byte) (s : State) : Host.Outcome State Fault Refusal :=
  s.accept .rdInput fun s => s.decodeWords data

/-- R158 `WRCOIL.RSP`: an acknowledgement; nothing is decoded and nothing compared. -/
def execWrCoilRsp (_id : Byte) (_addr _val : Word) (s : State) : Host.Outcome State Fault Refusal :=
  s.accept .wrCoil fun s => .ok s

/-- R165 `WRREG.RSP`. -/
def execWrRegRsp (_id : Byte) (_addr _val : Word) (s : State) : Host.Outcome State Fault Refusal :=
  s.accept .wrReg fun s => .ok s

/-- R166 `WRCOILS.RSP`. -/
def execWrCoilsRsp (_id : Byte) (_addr _qty : Word) (s : State) : Host.Outcome State Fault Refusal :=
  s.accept .wrCoils fun s => .ok s

/-- R167 `WRREGS.RSP`. -/
def execWrRegsRsp (_id : Byte) (_addr _qty : Word) (s : State) : Host.Outcome State Fault Refusal :=
  s.accept .wrRegs fun s => .ok s

/-- R239 `EXC.RSP`: the peer's code is recorded as received. -/
def execExcRsp (_id : Byte) (_fn : BitVec 7) (code : Byte) (s : State) : Host.Outcome State Fault Refusal :=
  if s.ownId = 0 ∧ s.phase = .waiting then .next (s.takeException .remoteException code)
  else .refused .directionNotOfRole

end Sys2Proof.Machine
end

