-- ==== Sys2Proof/Machine/SlaveHandlers.lean ====
section
/-! DEFINITION. The slave's execution of the eight requests (R205 to R213). -/

namespace Sys2Proof.Machine

/-- R206: `qty` coils from `addr` packed into the response `rsp` builds. -/
def State.readCoils (s : State) (addr qty : Word) (rsp : Byte → List Byte → Instr) : Except Fault (Instr × State) :=
  match s.loadCoils addr.toNat qty.toNat with
  | .error f => .error f
  | .ok bits => .ok (rsp s.ownId (packBits bits), s)

/-- R208: `qty` words from `addr`, high byte first, in the response `rsp` builds. -/
def State.readWords (s : State) (addr qty : Word) (rsp : Byte → List Byte → Instr) : Except Fault (Instr × State) :=
  match s.loadWords addr.toNat qty.toNat with
  | .error f => .error f
  | .ok ws => .ok (rsp s.ownId (bytesOfWords ws), s)

/-- R210: ON is a value with high byte 0xFF, OFF is every other value (R103); the response echoes the request. -/
def State.writeCoil (s : State) (addr val : Word) : Except Fault (Instr × State) :=
  match s.storeCoils addr.toNat [hiByte val == 0xFF] with
  | .error f => .error f
  | .ok s' => .ok (.wrCoilRsp s.ownId addr val, s')

/-- R211: the word is the value; the response echoes the request. -/
def State.writeReg (s : State) (addr val : Word) : Except Fault (Instr × State) :=
  match s.storeWords addr.toNat [val] with
  | .error f => .error f
  | .ok s' => .ok (.wrRegRsp s.ownId addr val, s')

/-- R212: `qty` coils from the data, as the master's image had them (R161 c); the response echoes address and
quantity. -/
def State.writeCoils (s : State) (addr qty : Word) (data : List Byte) : Except Fault (Instr × State) :=
  match s.storeCoils addr.toNat (unpackBits data qty.toNat) with
  | .error f => .error f
  | .ok s' => .ok (.wrCoilsRsp s.ownId addr qty, s')

/-- R213, R153: `qty` words from the data, as the master's image had them (R161 c), the number of items taken from
`qty`; the response echoes address and quantity. -/
def State.writeRegs (s : State) (addr qty : Word) (data : List Byte) : Except Fault (Instr × State) :=
  match s.storeWords addr.toNat ((wordsOfBytes data).take qty.toNat) with
  | .error f => .error f
  | .ok s' => .ok (.wrRegsRsp s.ownId addr qty, s')

/-- R206 `RDCOILS.REQ`. -/
def execRdCoilsReq (id : Byte) (addr qty : Word) (s : State) : Host.Outcome State Fault Refusal :=
  s.serve id .rdCoils addr qty 0 fun s => s.readCoils addr qty .rdCoilsRsp

/-- R207 `RDDISC.REQ`: the same bits of the same image (R21). -/
def execRdDiscReq (id : Byte) (addr qty : Word) (s : State) : Host.Outcome State Fault Refusal :=
  s.serve id .rdDisc addr qty 0 fun s => s.readCoils addr qty .rdDiscRsp

/-- R208 `RDHOLD.REQ`. -/
def execRdHoldReq (id : Byte) (addr qty : Word) (s : State) : Host.Outcome State Fault Refusal :=
  s.serve id .rdHold addr qty 0 fun s => s.readWords addr qty .rdHoldRsp

/-- R209 `RDINPUT.REQ`: the same words of the same image (R21). -/
def execRdInputReq (id : Byte) (addr qty : Word) (s : State) : Host.Outcome State Fault Refusal :=
  s.serve id .rdInput addr qty 0 fun s => s.readWords addr qty .rdInputRsp

/-- R210 `WRCOIL.REQ`. -/
def execWrCoilReq (id : Byte) (addr val : Word) (s : State) : Host.Outcome State Fault Refusal :=
  s.serve id .wrCoil addr val 0 fun s => s.writeCoil addr val

/-- R211 `WRREG.REQ`. -/
def execWrRegReq (id : Byte) (addr val : Word) (s : State) : Host.Outcome State Fault Refusal :=
  s.serve id .wrReg addr val 0 fun s => s.writeReg addr val

/-- R212 `WRCOILS.REQ`. -/
def execWrCoilsReq (id : Byte) (addr qty : Word) (data : List Byte) (s : State) : Host.Outcome State Fault Refusal :=
  s.serve id .wrCoils addr qty data.length fun s => s.writeCoils addr qty data

/-- R213 `WRREGS.REQ`. -/
def execWrRegsReq (id : Byte) (addr qty : Word) (data : List Byte) (s : State) : Host.Outcome State Fault Refusal :=
  s.serve id .wrRegs addr qty data.length fun s => s.writeRegs addr qty data

end Sys2Proof.Machine
end

