-- ==== Sys2Proof/Machine/Polls.lean ====
section
/-! DEFINITION. The polls: the function dispatcher (R205, R214), the slave cycle (R250 to R258), a poll in the master
role (R235 to R243), and `POLL` and `POLLR` (R270, R271). -/

namespace Sys2Proof.Machine

/-- R205, R154: the meaning of a decoded frame. Anything but a frame is the defensive case of R214. -/
def dispatchFrame (i : Instr) (s : State) : Host.Outcome State Fault Refusal :=
  match i with
  | .rdCoilsReq id a q => execRdCoilsReq id a q s
  | .rdDiscReq id a q => execRdDiscReq id a q s
  | .rdHoldReq id a q => execRdHoldReq id a q s
  | .rdInputReq id a q => execRdInputReq id a q s
  | .wrCoilReq id a v => execWrCoilReq id a v s
  | .wrRegReq id a v => execWrRegReq id a v s
  | .wrCoilsReq id a q d => execWrCoilsReq id a q d s
  | .wrRegsReq id a q d => execWrRegsReq id a q d s
  | .rdCoilsRsp id d => execRdCoilsRsp id d s
  | .rdDiscRsp id d => execRdDiscRsp id d s
  | .rdHoldRsp id d => execRdHoldRsp id d s
  | .rdInputRsp id d => execRdInputRsp id d s
  | .wrCoilRsp id a v => execWrCoilRsp id a v s
  | .wrRegRsp id a v => execWrRegRsp id a v s
  | .wrCoilsRsp id a q => execWrCoilsRsp id a q s
  | .wrRegsRsp id a q => execWrRegsRsp id a q s
  | .excRsp id fn code => execExcRsp id fn code s
  | .start | .setTmo _ | .setId _ | .query _ | .poll | .pollr _
  | .getState | .getErr | .getIn | .getOut | .getErrCnt => .fault .unsupportedAtDispatcher

/-- The frame a validator accepted, decoded and executed. A byte it does not have is the fault of R38, and anything
else that does not decode is the case of R214. -/
def runFrame (d : Dir) (f : List Byte) (s : State) : Host.Outcome State Fault Refusal :=
  match decodeFrame d f with
  | .error .absentByte => .fault .absentRead
  | .error .checksum | .error .unsupportedFunction | .error .length | .error .reservedCommand =>
    .fault .unsupportedAtDispatcher
  | .ok i => dispatchFrame i s

/-- R10 `MemRead(a,1)` in a poll: what is done with byte `a` of the candidate frame; a byte at or above `len` holds no
value, and its read is a fault of the model (R38, U10). -/
def withByte (f : List Byte) (a : Nat) (use : Byte → Host.Outcome State Fault Refusal) :
    Host.Outcome State Fault Refusal :=
  match memRead1 f a with
  | none => .fault .absentRead
  | some b => use b

/-- R252: a complete candidate frame in the slave role. The id is matched on byte 0 before anything else (R253). -/
def State.slaveFrame (s : State) : Host.Outcome State Fault Refusal :=
  let f := s.buf
  let s := s.consume
  withByte f 0 fun id =>
    if id ≠ s.ownId then .next s.ignore
    else
      match validateRequest s.cfg.frameCap s.cap f with
      | .error e => .fault e
      | .ok .noReply => .next (s.takeException .noReply 0)
      | .ok (.illegal e) => withByte f 1 fun rfc => .next (s.refuseRequest rfc e)
      | .ok .ok => runFrame .request f s

/-- R237: a complete candidate frame in the master role in `WAITING`. -/
def State.masterFrame (s : State) : Host.Outcome State Fault Refusal :=
  let f := s.buf
  let s := s.consume
  match validateAnswer f with
  | .error e => .fault e
  | .ok .noReply => .next (s.takeException .noReply 0)
  | .ok .illegalFunction => .next (s.takeException .illegalFunction 0)
  | .ok (.remoteException _) => runFrame .response f s
  | .ok .ok => runFrame .response f s

/-- R236, R250: the boundary detector runs; `frame` is what is done with a complete candidate frame. -/
def State.receive (s : State) (frame : State → Host.Outcome State Fault Refusal) : Host.Outcome State Fault Refusal :=
  match s.rxStep with
  | .error f => .fault f
  | .ok (.incomplete, s') => .next (s'.answer pollNone)
  | .ok (.overflow, s') => .next (s'.takeException .bufferOverflow 0)
  | .ok (.complete, s') => frame s'

/-- R236, R242: a poll in `WAITING`, time-out first. -/
def State.masterPollWaiting (s : State) : Host.Outcome State Fault Refusal :=
  match s.tSend with
  | none => .fault .absentRead
  | some t =>
    if s.timeout.toNat < s.elapsed t then .next (s.takeException .noReply 0)
    else s.receive State.masterFrame

/-- R270: the role is decided by `own_id` at the time of the poll. -/
def State.pollBody (s : State) : Host.Outcome State Fault Refusal :=
  if s.ownId = 0 then
    match s.phase with
    | .idle => .next (s.answer pollNone)
    | .waiting => s.masterPollWaiting
  else s.receive State.slaveFrame

/-- R270 `POLL`. -/
def execPoll (s : State) : Host.Outcome State Fault Refusal := s.pollBody

/-- R271 `POLLR`: the image is attached, then exactly `POLL`. -/
def execPollr (regs : ImgRef) (s : State) : Host.Outcome State Fault Refusal :=
  State.pollBody { s with imgRef := some regs }

end Sys2Proof.Machine
end

