-- ==== Sys2Proof/Machine/Query.lean ====
section
/-! DEFINITION. `QUERY` (R231 to R234) and the master-side encoders (R143 to R152). -/

namespace Sys2Proof.Machine

/-- R10, R147: 0xFF00 if the source word is nonzero, else 0x0000. -/
def coilValue (w : Word) : Word := if w = 0 then 0x0000 else 0xFF00

/-- R151: the byte count of the request, 0 for the formats without one. -/
def requestByteCount (fc : Fc) (qty : Nat) : Nat :=
  match fc with
  | .wrCoils => ceilDiv qty 8
  | .wrRegs => 2 * qty
  | .rdCoils | .rdDisc | .rdHold | .rdInput | .wrCoil | .wrReg => 0

/-- R151: the length of the request's frame, checksum included. -/
def requestLength (fc : Fc) (qty : Nat) : Nat :=
  match fc with
  | .wrCoils | .wrRegs => 9 + requestByteCount fc qty
  | .rdCoils | .rdDisc | .rdHold | .rdInput | .wrCoil | .wrReg => 8

/-- R151: the byte count fits its byte and the frame fits the buffer. -/
def requestFits (frameCap : Nat) (fc : Fc) (qty : Nat) : Bool :=
  decide (requestByteCount fc qty ≤ 255) && decide (requestLength fc qty ≤ frameCap)

/-- R147, R148: word 0 of the current image, the source word of the write-single requests. -/
def State.sourceWord (s : State) : Except Fault Word :=
  s.withImage 1 1 0 fun h => Memory.word s.mem h 0

/-- R143 to R150: the request of a telegram, read from the image `QUERY` has just made current. -/
def State.requestFor (s : State) (fc : Fc) (t : Telegram) : Except Fault Instr :=
  match fc with
  | .rdCoils => .ok (.rdCoilsReq t.tid t.addr t.qty)
  | .rdDisc => .ok (.rdDiscReq t.tid t.addr t.qty)
  | .rdHold => .ok (.rdHoldReq t.tid t.addr t.qty)
  | .rdInput => .ok (.rdInputReq t.tid t.addr t.qty)
  | .wrCoil => s.sourceWord.map fun w => .wrCoilReq t.tid t.addr (coilValue w)
  | .wrReg => s.sourceWord.map fun w => .wrRegReq t.tid t.addr w
  | .wrCoils => (s.loadCoils 0 t.qty.toNat).map fun bits => .wrCoilsReq t.tid t.addr t.qty (packBits bits)
  | .wrRegs => (s.loadWords 0 t.qty.toNat).map fun ws => .wrRegsReq t.tid t.addr t.qty (bytesOfWords ws)

/-- R233: an accepted `QUERY` of the supported function code `fc`, whose frame fits. -/
def State.sendQuery (s : State) (fc : Fc) (t : Telegram) : Host.Outcome State Fault Refusal :=
  let s := { s with imgRef := some t.img }
  match s.requestFor fc t with
  | .error f => .fault f
  | .ok request =>
    .next { s.transmit (encodeFrame request) with
      phase := .waiting, tSend := some s.now, result := .query .ok }

/-- R231 `QUERY`: the three refusals in the order of R232, then the preconditions of R234 (U1), then R233. -/
def execQuery (t : Telegram) (s : State) : Host.Outcome State Fault Refusal :=
  if s.ownId ≠ 0 then .next (s.answer (.query .notMaster))
  else if s.phase ≠ .idle then .next (s.answer (.query .alreadyWaiting))
  else if t.tid = 0 ∨ 247 < t.tid.toNat then .next (s.answer (.query .invalidTargetId))
  else
    match fcOf t.fc with
    | none => .refused .telegramUnsupported
    | some fc =>
      if requestFits s.cfg.frameCap fc t.qty.toNat then s.sendQuery fc t else .refused .telegramDoesNotFit

end Sys2Proof.Machine
end

