-- ==== Sys2Proof/Machine/Dispatch.lean ====
section
/-! DEFINITION. One arm per instruction. -/

namespace Sys2Proof.Machine

def exec (i : Instr) (s : State) : Host.Outcome State Fault Refusal :=
  match i with
  | .rdCoilsReq id addr qty => Sys2Proof.Machine.execRdCoilsReq id addr qty s
  | .rdDiscReq id addr qty => Sys2Proof.Machine.execRdDiscReq id addr qty s
  | .rdHoldReq id addr qty => Sys2Proof.Machine.execRdHoldReq id addr qty s
  | .rdInputReq id addr qty => Sys2Proof.Machine.execRdInputReq id addr qty s
  | .wrCoilReq id addr val => Sys2Proof.Machine.execWrCoilReq id addr val s
  | .wrRegReq id addr val => Sys2Proof.Machine.execWrRegReq id addr val s
  | .wrCoilsReq id addr qty data => Sys2Proof.Machine.execWrCoilsReq id addr qty data s
  | .wrRegsReq id addr qty data => Sys2Proof.Machine.execWrRegsReq id addr qty data s
  | .rdCoilsRsp id data => Sys2Proof.Machine.execRdCoilsRsp id data s
  | .rdDiscRsp id data => Sys2Proof.Machine.execRdDiscRsp id data s
  | .rdHoldRsp id data => Sys2Proof.Machine.execRdHoldRsp id data s
  | .rdInputRsp id data => Sys2Proof.Machine.execRdInputRsp id data s
  | .wrCoilRsp id addr val => Sys2Proof.Machine.execWrCoilRsp id addr val s
  | .wrRegRsp id addr val => Sys2Proof.Machine.execWrRegRsp id addr val s
  | .wrCoilsRsp id addr qty => Sys2Proof.Machine.execWrCoilsRsp id addr qty s
  | .wrRegsRsp id addr qty => Sys2Proof.Machine.execWrRegsRsp id addr qty s
  | .excRsp id fn code => Sys2Proof.Machine.execExcRsp id fn code s
  | .start => Sys2Proof.Machine.execStart s
  | .setTmo ms => Sys2Proof.Machine.execSetTmo ms s
  | .setId id => Sys2Proof.Machine.execSetId id s
  | .query tel => Sys2Proof.Machine.execQuery tel s
  | .poll => Sys2Proof.Machine.execPoll s
  | .pollr regs => Sys2Proof.Machine.execPollr regs s
  | .getState => Sys2Proof.Machine.execGetState s
  | .getErr => Sys2Proof.Machine.execGetErr s
  | .getIn => Sys2Proof.Machine.execGetIn s
  | .getOut => Sys2Proof.Machine.execGetOut s
  | .getErrCnt => Sys2Proof.Machine.execGetErrCnt s

end Sys2Proof.Machine
end

