-- ==== Sys2Proof/Machine/Fetch.lean ====
section
/-! DEFINITION. What stands around `exec`: the moves of the environment (R13), the reading of the command port (R45),
and the staging of one instruction as the very next to run (log 9). -/

namespace Sys2Proof.Machine

/-- R45: the command port, decoded; a reserved code has no meaning (R274, U3). -/
def fetchCommand (c : Command) : Except Refusal Instr :=
  match decode (.host c) with
  | .error _ => .error .reservedCommand
  | .ok i => .ok i

/-- R13, R40: the transport's receive side appends a byte at the queue's tail. -/
def State.arrive (s : State) (b : Byte) : State := { s with rxq := s.rxq ++ [b] }

/-- R13, R39: the clock advances by `d` time units; the 32-bit value wraps. -/
def State.advance (s : State) (d : Time) : State := { s with now := s.now + d }

/-- R13, R322: the host writes one word of an image between operations. -/
def State.hostWrite (s : State) (h : Nat) (i v : Word) : State := { s with mem := Memory.setWord s.mem h i.toNat v }

/-- The schedule's first event is taken. -/
def State.pop (s : State) (rest : List Event) : State := { s with schedule := rest }

/-- A command put first on the schedule. -/
def State.push (s : State) (c : Command) : State := { s with schedule := .op c :: s.schedule }

/-- A frame put where the next poll takes it as a complete candidate frame: it is in the buffer, nothing is in the
receive queue, and the idle threshold has just passed (R175). -/
def State.placeFrame (s : State) (f : List Byte) : State :=
  { s with buf := f, tLast := some (s.now - BitVec.ofNat 32 s.cfg.tIdle), rxq := [] }

/-- The role that takes a frame in the direction `d` (R106). A request runs at a slave, with the frame's own id where
that is an id a slave can have; a response runs at a master in `WAITING` whose time-out has not passed. -/
def State.placeRole (s : State) (d : Dir) (id : Byte) : State :=
  match d with
  | .request =>
    { s with
      ownId := if id = 0 ∨ 247 < id.toNat then (if s.ownId = 0 then 1 else s.ownId) else id
      phase := .idle, tSend := none }
  | .response => { s with ownId := 0, phase := .waiting, tSend := some s.now }

/-- One code staged as the very next instruction to run; no bytes are no frame. -/
def State.stage (s : State) : Code → State
  | .host c => s.push c
  | .frame d f =>
    match memRead1 f 0 with
    | none => s
    | some id => ((s.placeRole d id).placeFrame f).push { op := 0x4 }

/-- A table word staged; a word that is no code changes nothing. -/
def State.stageWord (s : State) (nbits w : Nat) : State :=
  match tableCode nbits w with
  | none => s
  | some c => s.stage c

end Sys2Proof.Machine
end

