-- ==== Sys2Proof/Machine/Step.lean ====
section
/-! DEFINITION. One step: the next move the schedule names (R11, R13; log 6). -/

namespace Sys2Proof.Machine

/-- One agent moves. Between operations the engine is idle and keeps its state (R309), so that an empty schedule
changes nothing. -/
def step (s : State) : Host.Outcome State Fault Refusal :=
  match s.schedule with
  | [] => .next s
  | .op c :: rest =>
    match fetchCommand c with
    | .error r => .refused r
    | .ok i => exec i (s.pop rest)
  | .rxByte b :: rest => .next ((s.pop rest).arrive b)
  | .tick d :: rest => .next ((s.pop rest).advance d)
  | .imageWrite h i v :: rest => .next ((s.pop rest).hostWrite h i v)
  | .rst :: rest => .next (s.pop rest).resetEngine

/-- The state in which the very next step runs the instruction of a table word (log 9). -/
def State.withFetchWord (s : State) (nbits w : Nat) : State := s.stageWord nbits w

end Sys2Proof.Machine
end

