-- ==== Sys2Proof/Safety.lean ====
section
/-! DEFINITION. What statements are written in: the invariant, the states the rules give for each ending of an
operation, and the fields of a request. -/

namespace Sys2Proof.Machine

/-- Byte `i` of a sequence of bytes that has it: what a statement says of bytes that are there. The machine reads with
`memRead1` and `memRead2`, which give nothing where there is no byte. -/
def byteAt (l : List Byte) (i : Nat) : Byte := l.getD i 0

/-- The two bytes from index `i` of a sequence that has them, the first the more significant. -/
def wordAt (l : List Byte) (i : Nat) : Word := mkWord (byteAt l i) (byteAt l (i + 1))

/-- The invariant of every state a run reaches: the parameters are ones the rules hold for (R7); `own_id` is 0 to 247
(R24); a slave is always in `IDLE` (R245, R259 a); `len` is at most `FRAME_CAP` (R31); `t_last` holds a value exactly
while bytes are buffered (R32) and `t_send` exactly in `WAITING` (R34); an idle master buffers nothing (R246 a);
`EXECUTION_FAILURE` is never stored (R294); `last_exc` is nonzero only with `REMOTE_EXCEPTION` (R28); memory is in its
canonical form. -/
abbrev State.Inv (s : State) : Prop :=
  s.cfg.wf = true ∧
  s.ownId.toNat ≤ 247 ∧
  (s.ownId ≠ 0 → s.phase = .idle) ∧
  s.buf.length ≤ s.cfg.frameCap ∧
  (s.tLast.isSome = true ↔ s.buf ≠ []) ∧
  (s.tSend.isSome = true ↔ s.phase = .waiting) ∧
  (s.ownId = 0 → s.phase = .idle → s.buf = []) ∧
  s.lastError ≠ .executionFailure ∧
  (s.lastExc ≠ 0 → s.lastError = .remoteException) ∧
  Memory.wf s.mem = true

/-- The boundary detector of this state completes the buffered frame: nothing is to be read, bytes are buffered, the
last of them was read at `t`, and the silence since then has lasted `T_IDLE` or more (R175). -/
abbrev State.Completes (s : State) (t : Time) : Prop :=
  s.rxq = [] ∧ s.buf ≠ [] ∧ s.tLast = some t ∧ s.cfg.tIdle ≤ s.elapsed t

/-- Every entry of the table of R320: the engine's state after reset. -/
def State.EngineReset (s : State) : Prop :=
  s.ownId = 0 ∧ s.phase = .idle ∧ s.lastError = .none ∧ s.lastExc = 0 ∧ s.timeout = s.cfg.timeoutReset ∧
  s.buf = [] ∧ s.tLast = none ∧ s.tSend = none ∧ s.imgRef = none ∧ s.inCnt = 0 ∧ s.outCnt = 0 ∧ s.errCnt = 0

/-- What the transport is handed for one frame, in this order (R42). -/
def transmission (frame : List Byte) : List TxEvent := [.de true, .write frame, .flush, .de false]

/-- The state a slave is in after it has served a request of function code `fc` with the response body `body`: the
response, checksum appended, is transmitted and counted, the buffer is empty, the record of an earlier failure is
cleared (R42, R160, R256, R257). Everything else is as in `s`. -/
def State.afterResponse (s : State) (fc : Byte) (body : List Byte) : State :=
  { s with
    txLog := s.txLog ++ transmission (append body)
    outCnt := s.outCnt + 1
    buf := []
    tLast := none
    lastError := .none
    lastExc := 0
    result := .poll ⟨.done, fc, 0⟩ }

/-- The state a slave is in after it has refused a request whose function-code byte is `rfc`: the exception frame
carries `rfc` with bit 7 set and the code; the failure is recorded and counted (R215, R255, R296). -/
def State.afterRefusal (s : State) (rfc : Byte) (k : ErrKind) (code : Byte) : State :=
  { s with
    txLog := s.txLog ++ transmission (append [s.ownId, rfc ||| 0x80, code])
    outCnt := s.outCnt + 1
    errCnt := s.errCnt + 1
    buf := []
    tLast := none
    lastError := k
    lastExc := 0
    result := .poll ⟨.error, 0, mkWord 0 (errCode k)⟩ }

/-- The state a slave is in after it has recorded a failure and sent nothing (R251, R254, R296). -/
def State.afterSlaveFailure (s : State) (k : ErrKind) : State :=
  { s with
    errCnt := s.errCnt + 1
    buf := []
    tLast := none
    lastError := k
    lastExc := 0
    result := .poll ⟨.error, 0, mkWord 0 (errCode k)⟩ }

/-- The state a master is in after a failure: as above, and `state <- IDLE`; `exc` is the peer's code (R236, R238 to
R240, R296). -/
def State.afterMasterFailure (s : State) (k : ErrKind) (exc : Byte) : State :=
  { s with
    errCnt := s.errCnt + 1
    buf := []
    tLast := none
    phase := .idle
    tSend := none
    lastError := k
    lastExc := exc
    result := .poll ⟨.error, 0, mkWord exc (errCode k)⟩ }

/-- The state a master is in after a good answer of function code `fc`, but for the image (R241). -/
def State.afterAnswer (s : State) (fc : Byte) : State :=
  { s with
    buf := []
    tLast := none
    phase := .idle
    tSend := none
    lastError := .none
    lastExc := 0
    result := .poll ⟨.done, fc, 0⟩ }

/-- The state a master is in after an accepted `QUERY` of the telegram `t` that sent the body `body` (R233). -/
def State.afterQuery (s : State) (t : Telegram) (body : List Byte) : State :=
  { s with
    imgRef := some t.img
    txLog := s.txLog ++ transmission (append body)
    outCnt := s.outCnt + 1
    buf := []
    tLast := none
    phase := .waiting
    tSend := some s.now
    result := .query .ok }

/-- Every byte of memory reads as before, but those of the `n` words from word `lo` of image `h` upward. -/
def Memory.SameOutside (before after : Memory) (h lo n : Nat) : Prop :=
  ∀ a, (∀ k < n, a ≠ wordAddr h (lo + k) ∧ a ≠ wordAddr h (lo + k) + 1) → Memory.read after a = Memory.read before a

/-- Every coil of every image (each has at most 65536 words, R33) is as before, but the `n` coils from coil `lo` of
image `h` upward (R62). -/
def Memory.SameCoilsOutside (before after : Memory) (h lo n : Nat) : Prop :=
  ∀ h' c, c < 16 * 65536 → ¬(h' = h ∧ lo ≤ c ∧ c < lo + n) → Memory.coil after h' c = Memory.coil before h' c

/-- R136 `flip`: a frame with bit `p mod 8` of byte `p div 8` inverted. -/
def flipBit (f : List Byte) (p : Nat) : List Byte :=
  f.set (p / 8) (byteAt f (p / 8) ^^^ (1#8 <<< (p % 8)))

end Sys2Proof.Machine

namespace Sys2Proof

/-- The fields of a request: id, function code, address, second field, byte count (0 where the format has none). -/
def Instr.requestFields : Instr → Option (Byte × Fc × Word × Word × Nat)
  | .rdCoilsReq id a q => some (id, .rdCoils, a, q, 0)
  | .rdDiscReq id a q => some (id, .rdDisc, a, q, 0)
  | .rdHoldReq id a q => some (id, .rdHold, a, q, 0)
  | .rdInputReq id a q => some (id, .rdInput, a, q, 0)
  | .wrCoilReq id a v => some (id, .wrCoil, a, v, 0)
  | .wrRegReq id a v => some (id, .wrReg, a, v, 0)
  | .wrCoilsReq id a q d => some (id, .wrCoils, a, q, d.length)
  | .wrRegsReq id a q d => some (id, .wrRegs, a, q, d.length)
  | .rdCoilsRsp .. | .rdDiscRsp .. | .rdHoldRsp .. | .rdInputRsp .. | .wrCoilRsp .. | .wrRegRsp ..
  | .wrCoilsRsp .. | .wrRegsRsp .. | .excRsp .. | .start | .setTmo _ | .setId _ | .query _ | .poll | .pollr _
  | .getState | .getErr | .getIn | .getOut | .getErrCnt => none

end Sys2Proof
end

