-- ==== Sys2Proof/Certificates/Slice0/Obligations.lean ====
section
/-! DEFINITION. The statements for the provers. In all of them the states are arbitrary: the parameters of the instance
(`State.cfg`, log 1) are quantified with the rest of the state, and no statement rests on a value a log entry chose,
unless its docstring says so. -/

open Sys2Proof Sys2Proof.Machine

/-! ## Frames and codes -/

/-- Worked examples of rules R143 to R150, R156, R166, R192 and R239, taken as their direction says (R106): the bytes of
the spec decode to the instruction they stand for. -/
def Obligations.SpecFramesDecodeToTheirInstructions : Prop :=
  decodeFrame .request [0x11, 0x01, 0x00, 0x13, 0x00, 0x25, 0x0E, 0x84] = .ok (.rdCoilsReq 0x11 0x0013 0x0025) ∧
  decodeFrame .request [0x11, 0x03, 0x00, 0x6B, 0x00, 0x03, 0x76, 0x87] = .ok (.rdHoldReq 0x11 0x006B 3) ∧
  decodeFrame .request [0x11, 0x05, 0x00, 0xAC, 0xFF, 0x00, 0x4E, 0x8B] = .ok (.wrCoilReq 0x11 0x00AC 0xFF00) ∧
  decodeFrame .request [0x11, 0x0F, 0x00, 0x13, 0x00, 0x0A, 0x02, 0xCD, 0x01, 0xBF, 0x0B] =
    .ok (.wrCoilsReq 0x11 0x0013 10 [0xCD, 0x01]) ∧
  decodeFrame .response [0x11, 0x01, 0x02, 0xCD, 0x01, 0xED, 0x6F] = .ok (.rdCoilsRsp 0x11 [0xCD, 0x01]) ∧
  decodeFrame .response [0x11, 0x0F, 0x00, 0x13, 0x00, 0x0A, 0x26, 0x99] = .ok (.wrCoilsRsp 0x11 0x0013 10) ∧
  decodeFrame .response [0x05, 0x83, 0x02, 0x81, 0x30] = .ok (.excRsp 0x05 3 2) ∧
  decodeFrame .request [0x05, 0x07, 0x43, 0x22] = .error .unsupportedFunction

/-- R90 to R96, R98, R115: every well-formed instruction is read back from its own code, every operand at every value. -/
def Obligations.DecodingInvertsEncoding : Prop :=
  ∀ (frameCap : Nat) (i : Instr), i.wf frameCap = true → decode (encode i) = .ok i

/-- The other direction for frames (R104, R107): a frame that decodes is the encoding of what it decodes to, bit for bit,
and is well-formed for every buffer that holds it. -/
def Obligations.EncodingInvertsDecodingOfFrames : Prop :=
  ∀ (frameCap : Nat) (d : Dir) (f : List Byte) (i : Instr), f.length ≤ frameCap → decodeFrame d f = .ok i →
    i.wf frameCap = true ∧ encode i = .frame d f

/-- R105, R115: a code that decodes is admitted by exactly one row of the opcode table, that of its instruction. -/
def Obligations.DecodedCodesMatchExactlyTheirRow : Prop :=
  ∀ (c : Code) (i : Instr), decode c = .ok i →
    opcodeTable.filter (fun r => r.admits c) = opcodeTable[i.rowIndex]?.toList

/-! ## The checksum engine -/

/-- The numbers the rules R130 to R134 give. -/
def Obligations.ChecksumWorkedExamples : Prop :=
  crc16Raw [] = 0xFFFF ∧ crc16Raw [0x00] = 0x40BF ∧ crc16Raw [0x01] = 0x807E ∧
  compute [0x01, 0x03, 0x00, 0x00, 0x00, 0x0A] = 0xC5CD ∧
  append [0x01, 0x03, 0x00, 0x00, 0x00, 0x0A] = [0x01, 0x03, 0x00, 0x00, 0x00, 0x0A, 0xC5, 0xCD] ∧
  verify [0x05, 0x03, 0x00, 0x0A, 0x00, 0x04, 0x65, 0x8F] = true ∧
  verify [0x05, 0x03, 0x00, 0x0A, 0x00, 0x04, 0x65, 0x8E] = false ∧ verify [0xFF, 0xFF] = false

/-- R136: a finished frame of 4 bytes or more verifies; one with any single bit inverted does not; a finished frame of 3
bytes does not verify, though its last two bytes are its checksum. -/
def Obligations.ChecksumMatchesAndDetectsEveryBitFlip : Prop :=
  (∀ b : List Byte, 2 ≤ b.length → verify (append b) = true) ∧
  (∀ b : List Byte, b.length = 1 → verify (append b) = false) ∧
  (∀ b : List Byte, 1 ≤ b.length →
    byteAt (append b) ((append b).length - 2) = loByte (crc16Raw ((append b).take ((append b).length - 2))) ∧
    byteAt (append b) ((append b).length - 1) = hiByte (crc16Raw ((append b).take ((append b).length - 2)))) ∧
  (∀ (b : List Byte) (p : Nat), 1 ≤ b.length → p < 8 * (b.length + 2) → verify (flipBit (append b) p) = false)

/-- R137: the register run over a finished frame is left at zero, and for 4 bytes or more that is what `verify` asks. -/
def Obligations.ResidueOfAFinishedFrameIsZero : Prop :=
  (∀ b : List Byte, crc16Raw (append b) = 0) ∧
  (∀ f : List Byte, 4 ≤ f.length → (verify f = true ↔ crc16Raw f = 0))

/-! ## Packing -/

/-- R141, R142, and R161 (a) in the last line: coils packed least significant bit first, the unused bits 0; and unpacked. -/
def Obligations.CoilsPackAndUnpack : Prop :=
  (∀ c : List Bool, (packBits c).length = ceilDiv c.length 8 ∧
    (∀ k < c.length, (byteAt (packBits c) (k / 8)).getLsbD (k % 8) = c.getD k false) ∧
    (∀ k, c.length ≤ k → k < 8 * ceilDiv c.length 8 → (byteAt (packBits c) (k / 8)).getLsbD (k % 8) = false)) ∧
  (∀ (d : List Byte) (q : Nat), q ≤ 8 * d.length → (unpackBits d q).length = q ∧
    ∀ k < q, (unpackBits d q).getD k false = (byteAt d (k / 8)).getLsbD (k % 8)) ∧
  (∀ c : List Bool, unpackBits (packBits c) c.length = c)

/-- R102: registers packed high byte first; and read back, which is R161 (b). -/
def Obligations.RegistersPackHighByteFirst : Prop :=
  ∀ r : List Word, (bytesOfWords r).length = 2 * r.length ∧
    (∀ i < r.length, byteAt (bytesOfWords r) (2 * i) = hiByte (r.getD i 0) ∧
      byteAt (bytesOfWords r) (2 * i + 1) = loByte (r.getD i 0)) ∧
    wordsOfBytes (bytesOfWords r) = r

/-! ## The boundary detector -/

/-- R171: what one step of the detector answers and leaves, in every case. -/
def Obligations.DetectorStepReadsOrDecidesBySilence : Prop :=
  (∀ s : State, s.rxq ≠ [] → s.buf.length + s.rxq.length ≤ s.cfg.frameCap →
    s.rxStep = .ok (.incomplete, { s with buf := s.buf ++ s.rxq, tLast := some s.now, rxq := [] })) ∧
  (∀ s : State, s.buf.length ≤ s.cfg.frameCap → s.cfg.frameCap < s.buf.length + s.rxq.length →
    s.rxStep = .ok (.overflow,
      { s with buf := [], tLast := none, rxq := s.rxq.drop (s.cfg.frameCap - s.buf.length + 1) })) ∧
  (∀ s : State, s.rxq = [] → s.buf = [] → s.rxStep = .ok (.incomplete, s)) ∧
  (∀ (s : State) (t : Time), s.rxq = [] → s.buf ≠ [] → s.tLast = some t → s.cfg.tIdle ≤ (s.now - t).toNat →
    s.rxStep = .ok (.complete, s)) ∧
  (∀ (s : State) (t : Time), s.rxq = [] → s.buf ≠ [] → s.tLast = some t → (s.now - t).toNat < s.cfg.tIdle →
    s.rxStep = .ok (.incomplete, s))

/-! ## A step runs the decoded instruction -/

/-- R45, R115: when the command at the port decodes to `i`, the step is `exec i`, the schedule moved on. -/
def Obligations.StepRunsTheHostOperation : Prop :=
  ∀ (s : State) (c : Command) (rest : List Event) (i : Instr), decodeCommand c = .ok i →
    step { s with schedule := .op c :: rest } = exec i { s with schedule := rest }

/-- R252, R205, R270, R271: when a slave is polled and the buffered frame is complete and decodes to a request, the step
is `exec` of that request on the state in which the frame has been counted and taken; a poll with registers attaches the
image first. -/
def Obligations.StepRunsTheReceivedRequest : Prop :=
  ∀ (s : State) (c : Command) (rest : List Event) (t : Time) (i : Instr),
    s.ownId ≠ 0 → s.Completes t → decodeFrame .request s.buf = .ok i →
    (c.op = 0x4 → step { s with schedule := .op c :: rest } =
      exec i { s with schedule := rest, inCnt := s.inCnt + 1, buf := [], tLast := none }) ∧
    (c.op = 0x5 → step { s with schedule := .op c :: rest } =
      exec i { s with schedule := rest, inCnt := s.inCnt + 1, buf := [], tLast := none, imgRef := some c.img })

/-- R237, R241, R270, R271: the same for a master in `WAITING` whose time-out has not passed, and a response. -/
def Obligations.StepRunsTheReceivedAnswer : Prop :=
  ∀ (s : State) (c : Command) (rest : List Event) (sent t : Time) (i : Instr),
    s.ownId = 0 → s.phase = .waiting → s.tSend = some sent → (s.now - sent).toNat ≤ s.timeout.toNat →
    s.Completes t → decodeFrame .response s.buf = .ok i →
    (c.op = 0x4 → step { s with schedule := .op c :: rest } =
      exec i { s with schedule := rest, inCnt := s.inCnt + 1, buf := [], tLast := none }) ∧
    (c.op = 0x5 → step { s with schedule := .op c :: rest } =
      exec i { s with schedule := rest, inCnt := s.inCnt + 1, buf := [], tLast := none, imgRef := some c.img })

/-- R274: the reserved command codes, and they alone, are refused at the port. -/
def Obligations.StepRefusesReservedCommands : Prop :=
  ∀ (s : State) (c : Command) (rest : List Event),
    step { s with schedule := .op c :: rest } = .refused .reservedCommand ↔
      c.op = 0x6 ∨ c.op = 0x7 ∨ c.op = 0xD ∨ c.op = 0xE ∨ c.op = 0xF

/-- R13, R39, R40, R44, R309: what the moves of the environment change, and that with nothing scheduled nothing
changes. The schedule is the model's (log 6). -/
def Obligations.EnvironmentMovesChangeOnlyTheirOwn : Prop :=
  ∀ (s : State) (rest : List Event),
    (∀ b, step { s with schedule := .rxByte b :: rest } = .next { s with schedule := rest, rxq := s.rxq ++ [b] }) ∧
    (∀ d, step { s with schedule := .tick d :: rest } = .next { s with schedule := rest, now := s.now + d }) ∧
    (∀ h i v, ∃ m, step { s with schedule := .imageWrite h i v :: rest } = .next { s with schedule := rest, mem := m } ∧
      Memory.word m h i.toNat = v ∧ Memory.SameOutside s.mem m h i.toNat 1) ∧
    step { s with schedule := [] } = .next { s with schedule := [] }

/-- R320: the reset input, from every state, and the initial state of every instance. That the reset input leaves the
queue, the time and the images as they were is the model's choice, which log 12 names; R322 and R324 say at most that the
engine resets no image and does not drain the queue. -/
def Obligations.ResetInputRestoresTheInitialState : Prop :=
  (∀ (s : State) (rest : List Event), ∃ t, step { s with schedule := .rst :: rest } = .next t ∧ t.EngineReset ∧
    t.cfg = s.cfg ∧ t.txLog = s.txLog ∧ t.rxq = s.rxq ∧ t.now = s.now ∧ t.mem = s.mem ∧ t.schedule = rest) ∧
  (∀ p : Config.Params, (State.resetWith p).EngineReset ∧ (State.resetWith p).cfg = p)

/-! ## The slave's execution of requests -/

/-- R206, R207: a request for coils in order is answered with the coils, packed; nothing else changes but the record of
the transaction. -/
def Obligations.SlaveAnswersReadsOfCoils : Prop :=
  ∀ (s : State) (r : ImgRef) (addr qty : Word), s.ownId ≠ 0 → s.imgRef = some r →
    1 ≤ qty.toNat → qty.toNat ≤ 8 * min 255 (s.cfg.frameCap - 5) → (addr.toNat + qty.toNat - 1) / 16 < r.cap.val →
    ∃ d : List Byte, d.length = ceilDiv qty.toNat 8 ∧
      (∀ k < qty.toNat, (byteAt d (k / 8)).getLsbD (k % 8) = Memory.coil s.mem r.handle (addr.toNat + k)) ∧
      (∀ k, qty.toNat ≤ k → k < 8 * d.length → (byteAt d (k / 8)).getLsbD (k % 8) = false) ∧
      exec (.rdCoilsReq s.ownId addr qty) s =
        .next (s.afterResponse 0x01 (s.ownId :: 0x01 :: BitVec.ofNat 8 d.length :: d)) ∧
      exec (.rdDiscReq s.ownId addr qty) s =
        .next (s.afterResponse 0x02 (s.ownId :: 0x02 :: BitVec.ofNat 8 d.length :: d))

/-- R208, R209: a request for registers in order is answered with the words, high byte first. -/
def Obligations.SlaveAnswersReadsOfRegisters : Prop :=
  ∀ (s : State) (r : ImgRef) (addr qty : Word), s.ownId ≠ 0 → s.imgRef = some r →
    1 ≤ qty.toNat → qty.toNat ≤ min 255 (s.cfg.frameCap - 5) / 2 → addr.toNat + qty.toNat - 1 < r.cap.val →
    ∃ d : List Byte, d.length = 2 * qty.toNat ∧
      (∀ i < qty.toNat, wordAt d (2 * i) = Memory.word s.mem r.handle (addr.toNat + i)) ∧
      exec (.rdHoldReq s.ownId addr qty) s =
        .next (s.afterResponse 0x03 (s.ownId :: 0x03 :: BitVec.ofNat 8 d.length :: d)) ∧
      exec (.rdInputReq s.ownId addr qty) s =
        .next (s.afterResponse 0x04 (s.ownId :: 0x04 :: BitVec.ofNat 8 d.length :: d))

/-- R210: one coil is set or cleared, by the high byte of the value alone; the response echoes the request. -/
def Obligations.SlaveWritesOneCoil : Prop :=
  ∀ (s : State) (r : ImgRef) (addr val : Word), s.ownId ≠ 0 → s.imgRef = some r → addr.toNat / 16 < r.cap.val →
    ∃ m, exec (.wrCoilReq s.ownId addr val) s =
        .next (State.afterResponse { s with mem := m } 0x05
          [s.ownId, 0x05, hiByte addr, loByte addr, hiByte val, loByte val]) ∧
      Memory.coil m r.handle addr.toNat = decide (hiByte val = 0xFF) ∧
      Memory.SameCoilsOutside s.mem m r.handle addr.toNat 1 ∧
      Memory.SameOutside s.mem m r.handle (addr.toNat / 16) 1

/-- R211: one word becomes the value; the response echoes the request. -/
def Obligations.SlaveWritesOneRegister : Prop :=
  ∀ (s : State) (r : ImgRef) (addr val : Word), s.ownId ≠ 0 → s.imgRef = some r → addr.toNat < r.cap.val →
    ∃ m, exec (.wrRegReq s.ownId addr val) s =
        .next (State.afterResponse { s with mem := m } 0x06
          [s.ownId, 0x06, hiByte addr, loByte addr, hiByte val, loByte val]) ∧
      Memory.word m r.handle addr.toNat = val ∧ Memory.SameOutside s.mem m r.handle addr.toNat 1

/-- R212: exactly the coils named become the data bits; the response echoes address and quantity. -/
def Obligations.SlaveWritesManyCoils : Prop :=
  ∀ (s : State) (r : ImgRef) (addr qty : Word) (data : List Byte), s.ownId ≠ 0 → s.imgRef = some r →
    1 ≤ qty.toNat → data.length = ceilDiv qty.toNat 8 → (addr.toNat + qty.toNat - 1) / 16 < r.cap.val →
    ∃ m, exec (.wrCoilsReq s.ownId addr qty data) s =
        .next (State.afterResponse { s with mem := m } 0x0F
          [s.ownId, 0x0F, hiByte addr, loByte addr, hiByte qty, loByte qty]) ∧
      (∀ k < qty.toNat, Memory.coil m r.handle (addr.toNat + k) = (byteAt data (k / 8)).getLsbD (k % 8)) ∧
      Memory.SameCoilsOutside s.mem m r.handle addr.toNat qty.toNat ∧
      Memory.SameOutside s.mem m r.handle (addr.toNat / 16)
        ((addr.toNat + qty.toNat - 1) / 16 - addr.toNat / 16 + 1)

/-- R213: exactly the words named become the data, two bytes each, high byte first. -/
def Obligations.SlaveWritesManyRegisters : Prop :=
  ∀ (s : State) (r : ImgRef) (addr qty : Word) (data : List Byte), s.ownId ≠ 0 → s.imgRef = some r →
    1 ≤ qty.toNat → data.length = 2 * qty.toNat → addr.toNat + qty.toNat - 1 < r.cap.val →
    ∃ m, exec (.wrRegsReq s.ownId addr qty data) s =
        .next (State.afterResponse { s with mem := m } 0x10
          [s.ownId, 0x10, hiByte addr, loByte addr, hiByte qty, loByte qty]) ∧
      (∀ i < qty.toNat, Memory.word m r.handle (addr.toNat + i) = wordAt data (2 * i)) ∧
      Memory.SameOutside s.mem m r.handle addr.toNat qty.toNat

/-- R194: a request whose quantity is zero, more than a response can carry, or contradicted by its byte count, is refused
with the exception illegal-quantity, whatever its address (R197). -/
def Obligations.SlaveRefusesIllegalQuantities : Prop :=
  ∀ (s : State) (i : Instr) (fc : Fc) (addr f2 : Word) (bc : Nat), s.ownId ≠ 0 →
    i.requestFields = some (s.ownId, fc, addr, f2, bc) →
    (match fc with
      | .rdCoils | .rdDisc => f2.toNat = 0 ∨ 8 * min 255 (s.cfg.frameCap - 5) < f2.toNat
      | .rdHold | .rdInput => f2.toNat = 0 ∨ min 255 (s.cfg.frameCap - 5) / 2 < f2.toNat
      | .wrCoil | .wrReg => False
      | .wrCoils => f2.toNat = 0 ∨ bc ≠ ceilDiv f2.toNat 8
      | .wrRegs => f2.toNat = 0 ∨ bc ≠ 2 * f2.toNat) →
    exec i s = .next (s.afterRefusal (fcByte fc) .illegalQuantity 0x03)

/-- R195, R196: a request in order otherwise, whose highest word is at or above the capacity, is refused with the
exception illegal-address-range; with no image attached the capacity is 0. -/
def Obligations.SlaveRefusesAddressesOutOfRange : Prop :=
  ∀ (s : State) (i : Instr) (fc : Fc) (addr f2 : Word) (bc : Nat), s.ownId ≠ 0 →
    i.requestFields = some (s.ownId, fc, addr, f2, bc) →
    (match fc with
      | .rdCoils | .rdDisc => 1 ≤ f2.toNat ∧ f2.toNat ≤ 8 * min 255 (s.cfg.frameCap - 5)
      | .rdHold | .rdInput => 1 ≤ f2.toNat ∧ f2.toNat ≤ min 255 (s.cfg.frameCap - 5) / 2
      | .wrCoil | .wrReg => True
      | .wrCoils => 1 ≤ f2.toNat ∧ bc = ceilDiv f2.toNat 8
      | .wrRegs => 1 ≤ f2.toNat ∧ bc = 2 * f2.toNat) →
    (match s.imgRef with
      | none => 0
      | some r => r.cap.val) ≤
      (match fc with
        | .rdCoils | .rdDisc | .wrCoils => (addr.toNat + f2.toNat - 1) / 16
        | .rdHold | .rdInput | .wrRegs => addr.toNat + f2.toNat - 1
        | .wrCoil => addr.toNat / 16
        | .wrReg => addr.toNat) →
    exec i s = .next (s.afterRefusal (fcByte fc) .illegalAddressRange 0x02)

/-- R253: a complete frame whose first byte is not this device's id is counted and discarded unchecked, and nothing else
changes; a decoded request for another id likewise. -/
def Obligations.SlaveDiscardsForeignFrames : Prop :=
  (∀ (s : State) (t : Time), s.ownId ≠ 0 → s.Completes t → byteAt s.buf 0 ≠ s.ownId →
    exec .poll s = .next { s with
      inCnt := s.inCnt + 1, buf := [], tLast := none, result := .poll ⟨.ignored, 0, 0⟩ }) ∧
  (∀ (s : State) (i : Instr) (id : Byte) (fc : Fc) (addr f2 : Word) (bc : Nat), s.ownId ≠ 0 →
    i.requestFields = some (id, fc, addr, f2, bc) → id ≠ s.ownId →
    exec i s = .next { s with buf := [], tLast := none, result := .poll ⟨.ignored, 0, 0⟩ })

/-- R254, with R107: a frame for this device with a bad checksum, or with a supported function code and a wrong length, is
dropped: counted as an error, and nothing is sent. -/
def Obligations.SlaveDropsBadFrames : Prop :=
  ∀ (s : State) (t : Time), s.ownId ≠ 0 → s.Completes t → byteAt s.buf 0 = s.ownId →
    (verify s.buf = false ∨
      (byteAt s.buf 1 ∈ [0x01#8, 0x02#8, 0x03#8, 0x04#8, 0x05#8, 0x06#8] ∧ s.buf.length ≠ 8) ∨
      (byteAt s.buf 1 ∈ [0x0F#8, 0x10#8] ∧ (s.buf.length < 9 ∨ s.buf.length ≠ 9 + (byteAt s.buf 6).toNat))) →
    exec .poll s = .next (State.afterSlaveFailure { s with inCnt := s.inCnt + 1 } .noReply)

/-- R192, R215, R255: a frame for this device with a good checksum and an unsupported function code is answered with the
exception illegal-function, whatever its length. -/
def Obligations.SlaveRefusesUnsupportedFunctions : Prop :=
  ∀ (s : State) (t : Time), s.ownId ≠ 0 → s.Completes t → byteAt s.buf 0 = s.ownId → verify s.buf = true →
    byteAt s.buf 1 ∉ [0x01#8, 0x02#8, 0x03#8, 0x04#8, 0x05#8, 0x06#8, 0x0F#8, 0x10#8] →
    exec .poll s =
      .next (State.afterRefusal { s with inCnt := s.inCnt + 1 } (byteAt s.buf 1) .illegalFunction 0x01)

/-- R238, R251: a poll that reads a byte while the buffer is full records an overflow, in either role; the bytes not read
stay in the queue (R176). -/
def Obligations.OverflowIsRecordedInEitherRole : Prop :=
  ∀ s : State, s.buf.length ≤ s.cfg.frameCap → s.cfg.frameCap < s.buf.length + s.rxq.length →
    (s.ownId ≠ 0 → exec .poll s = .next (State.afterSlaveFailure
      { s with rxq := s.rxq.drop (s.cfg.frameCap - s.buf.length + 1) } .bufferOverflow)) ∧
    (∀ sent, s.ownId = 0 → s.phase = .waiting → s.tSend = some sent → (s.now - sent).toNat ≤ s.timeout.toNat →
      exec .poll s = .next (State.afterMasterFailure
        { s with rxq := s.rxq.drop (s.cfg.frameCap - s.buf.length + 1) } .bufferOverflow 0))

/-! ## The polls -/

/-- R270, R271, R236, R250: a poll that finds no complete frame reports nothing; it has read what was pending. A poll with
registers attaches the image as well. The two roles alike, a master within its time-out. -/
def Obligations.PollsWithoutAFrameReportNothing : Prop :=
  ∀ (s : State) (r : ImgRef),
    (s.ownId ≠ 0 ∨ (s.phase = .waiting ∧ ∃ sent, s.tSend = some sent ∧ (s.now - sent).toNat ≤ s.timeout.toNat)) →
    (s.rxq = [] → (s.buf = [] ∨ ∃ t, s.tLast = some t ∧ (s.now - t).toNat < s.cfg.tIdle) →
      exec .poll s = .next { s with result := .poll ⟨.none, 0, 0⟩ } ∧
      exec (.pollr r) s = .next { s with imgRef := some r, result := .poll ⟨.none, 0, 0⟩ }) ∧
    (s.rxq ≠ [] → s.buf.length + s.rxq.length ≤ s.cfg.frameCap →
      exec .poll s = .next { s with
        buf := s.buf ++ s.rxq, tLast := some s.now, rxq := [], result := .poll ⟨.none, 0, 0⟩ } ∧
      exec (.pollr r) s = .next { s with
        imgRef := some r, buf := s.buf ++ s.rxq, tLast := some s.now, rxq := [], result := .poll ⟨.none, 0, 0⟩ })

/-- R235: a poll of an idle master does nothing. -/
def Obligations.IdleMasterPollDoesNothing : Prop :=
  ∀ s : State, s.ownId = 0 → s.phase = .idle → exec .poll s = .next { s with result := .poll ⟨.none, 0, 0⟩ }

/-- R271: `POLLR` attaches the image and then does exactly what `POLL` does, in every state. -/
def Obligations.PollWithRegistersAttachesThenPolls : Prop :=
  (∀ (s : State) (r : ImgRef), exec (.pollr r) s = exec .poll { s with imgRef := some r }) ∧
  (∀ (s t : State) (r : ImgRef), s.Inv → exec (.pollr r) s = .next t → t.imgRef = some r)

/-- R236, R242: a transaction times out at a poll if and only if the elapsed time is strictly greater than the time-out;
then the poll records `NO_REPLY` and does not read the queue, whatever is buffered or pending. Else the poll ends the
transaction only with a complete frame, counted, or with an overflow. -/
def Obligations.TimeOutIsStrictAndComesFirst : Prop :=
  ∀ (s : State) (sent : Time), s.ownId = 0 → s.phase = .waiting → s.tSend = some sent →
    (s.timeout.toNat < (s.now - sent).toNat → exec .poll s = .next (s.afterMasterFailure .noReply 0)) ∧
    ((s.now - sent).toNat ≤ s.timeout.toNat → ∀ t, exec .poll s = .next t → t.phase = .idle →
      t.inCnt = s.inCnt + 1 ∨ t.lastError = .bufferOverflow)

/-! ## The master's answers -/

/-- R156, R163: the data bytes of a coil answer go, whole, into the image from coil 0 upward. -/
def Obligations.MasterDecodesCoils : Prop :=
  ∀ (s : State) (r : ImgRef) (id : Byte) (data : List Byte), s.ownId = 0 → s.phase = .waiting → s.imgRef = some r →
    ceilDiv data.length 2 ≤ r.cap.val →
    ∃ m, exec (.rdCoilsRsp id data) s = .next (State.afterAnswer { s with mem := m } 0x01) ∧
      exec (.rdDiscRsp id data) s = .next (State.afterAnswer { s with mem := m } 0x02) ∧
      (∀ i < data.length, ∀ j < 8, Memory.coil m r.handle (8 * i + j) = (byteAt data i).getLsbD j) ∧
      Memory.SameCoilsOutside s.mem m r.handle 0 (8 * data.length) ∧
      Memory.SameOutside s.mem m r.handle 0 (ceilDiv data.length 2)

/-- R157, R164: the data of a register answer go into the image from word 0 upward; an odd last byte is ignored. -/
def Obligations.MasterDecodesRegisters : Prop :=
  ∀ (s : State) (r : ImgRef) (id : Byte) (data : List Byte), s.ownId = 0 → s.phase = .waiting → s.imgRef = some r →
    data.length / 2 ≤ r.cap.val →
    ∃ m, exec (.rdHoldRsp id data) s = .next (State.afterAnswer { s with mem := m } 0x03) ∧
      exec (.rdInputRsp id data) s = .next (State.afterAnswer { s with mem := m } 0x04) ∧
      (∀ i < data.length / 2, Memory.word m r.handle i = wordAt data (2 * i)) ∧
      Memory.SameOutside s.mem m r.handle 0 (data.length / 2)

/-- R158, R165, R166, R167: an acknowledgement completes the transaction, whatever it echoes; the image is unchanged. -/
def Obligations.MasterTakesAcknowledgementsUncompared : Prop :=
  ∀ (s : State) (id : Byte) (addr f2 : Word), s.ownId = 0 → s.phase = .waiting →
    exec (.wrCoilRsp id addr f2) s = .next (s.afterAnswer 0x05) ∧
    exec (.wrRegRsp id addr f2) s = .next (s.afterAnswer 0x06) ∧
    exec (.wrCoilsRsp id addr f2) s = .next (s.afterAnswer 0x0F) ∧
    exec (.wrRegsRsp id addr f2) s = .next (s.afterAnswer 0x10)

/-- R239: an exception answer is recorded with the peer's code, as received, and ends the transaction. -/
def Obligations.MasterRecordsExceptionAnswers : Prop :=
  ∀ (s : State) (id : Byte) (fn : BitVec 7) (code : Byte), s.ownId = 0 → s.phase = .waiting →
    exec (.excRsp id fn code) s = .next (s.afterMasterFailure .remoteException code)

/-- R240, with R107: a complete frame that is no good answer ends the transaction: `NO_REPLY` for a bad checksum or a
wrong length, `ILLEGAL_FUNCTION` for a good checksum, bit 7 clear and an unsupported function code. -/
def Obligations.MasterEndsTheTransactionOnBadAnswers : Prop :=
  ∀ (s : State) (sent t : Time), s.ownId = 0 → s.phase = .waiting → s.tSend = some sent →
    (s.now - sent).toNat ≤ s.timeout.toNat → s.Completes t →
    ((verify s.buf = false ∨
      (128 ≤ (byteAt s.buf 1).toNat ∧ s.buf.length ≠ 5) ∨
      (byteAt s.buf 1 ∈ [0x01#8, 0x02#8, 0x03#8, 0x04#8] ∧
        (s.buf.length < 5 ∨ s.buf.length ≠ 5 + (byteAt s.buf 2).toNat)) ∨
      (byteAt s.buf 1 ∈ [0x05#8, 0x06#8, 0x0F#8, 0x10#8] ∧ s.buf.length ≠ 8)) →
      exec .poll s = .next (State.afterMasterFailure { s with inCnt := s.inCnt + 1 } .noReply 0)) ∧
    (verify s.buf = true → (byteAt s.buf 1).toNat < 128 →
      byteAt s.buf 1 ∉ [0x01#8, 0x02#8, 0x03#8, 0x04#8, 0x05#8, 0x06#8, 0x0F#8, 0x10#8] →
      exec .poll s = .next (State.afterMasterFailure { s with inCnt := s.inCnt + 1 } .illegalFunction 0))

/-- R159: an image too small for what an answer writes, or for what a request reads, is a fault of the model. For an
answer that is R159 with R241. For a `QUERY` it is the model's choice, which log 19 names: U2 allows a fault or a
refusal, and R234 speaks of a refusal. -/
def Obligations.MasterImageBoundIsAFault : Prop :=
  (∀ (s : State) (r : ImgRef) (id : Byte) (data : List Byte), s.ownId = 0 → s.phase = .waiting → s.imgRef = some r →
    (r.cap.val < ceilDiv data.length 2 →
      exec (.rdCoilsRsp id data) s = .fault .imageBound ∧ exec (.rdDiscRsp id data) s = .fault .imageBound) ∧
    (r.cap.val < data.length / 2 →
      exec (.rdHoldRsp id data) s = .fault .imageBound ∧ exec (.rdInputRsp id data) s = .fault .imageBound)) ∧
  (∀ (s : State) (t : Telegram), s.ownId = 0 → s.phase = .idle → 1 ≤ t.tid.toNat → t.tid.toNat ≤ 247 →
    9 ≤ s.cfg.frameCap →
    (t.fc = 0x05 ∨ t.fc = 0x06 → t.img.cap.val < 1 → exec (.query t) s = .fault .imageBound) ∧
    (t.fc = 0x0F → ceilDiv t.qty.toNat 8 ≤ min 255 (s.cfg.frameCap - 9) → t.img.cap.val < ceilDiv t.qty.toNat 16 →
      exec (.query t) s = .fault .imageBound) ∧
    (t.fc = 0x10 → 2 * t.qty.toNat ≤ min 255 (s.cfg.frameCap - 9) → t.img.cap.val < t.qty.toNat →
      exec (.query t) s = .fault .imageBound))

/-! ## Queries -/

/-- R232: the three refusals in their order; each changes nothing but the result. -/
def Obligations.QueryRefusalsChangeNothing : Prop :=
  ∀ (s : State) (t : Telegram),
    (s.ownId ≠ 0 → exec (.query t) s = .next { s with result := .query .notMaster }) ∧
    (s.ownId = 0 → s.phase ≠ .idle → exec (.query t) s = .next { s with result := .query .alreadyWaiting }) ∧
    (s.ownId = 0 → s.phase = .idle → (t.tid = 0 ∨ 247 < t.tid.toNat) →
      exec (.query t) s = .next { s with result := .query .invalidTargetId })

/-- R143 to R146, with R233: an accepted `QUERY` of a read sends id, function code, address and quantity as given. -/
def Obligations.QuerySendsReadRequests : Prop :=
  ∀ (s : State) (t : Telegram), s.ownId = 0 → s.phase = .idle → 1 ≤ t.tid.toNat → t.tid.toNat ≤ 247 →
    8 ≤ s.cfg.frameCap → (t.fc = 0x01 ∨ t.fc = 0x02 ∨ t.fc = 0x03 ∨ t.fc = 0x04) →
    exec (.query t) s =
      .next (s.afterQuery t [t.tid, t.fc, hiByte t.addr, loByte t.addr, hiByte t.qty, loByte t.qty])

/-- R147, R148: an accepted `QUERY` of a single write sends a value taken from word 0 of the telegram's image. -/
def Obligations.QuerySendsSingleWrites : Prop :=
  ∀ (s : State) (t : Telegram), s.ownId = 0 → s.phase = .idle → 1 ≤ t.tid.toNat → t.tid.toNat ≤ 247 →
    8 ≤ s.cfg.frameCap → 1 ≤ t.img.cap.val →
    (t.fc = 0x05 → exec (.query t) s =
      .next (s.afterQuery t [t.tid, 0x05, hiByte t.addr, loByte t.addr,
        if Memory.word s.mem t.img.handle 0 = 0 then 0x00 else 0xFF, 0x00])) ∧
    (t.fc = 0x06 → exec (.query t) s =
      .next (s.afterQuery t [t.tid, 0x06, hiByte t.addr, loByte t.addr,
        hiByte (Memory.word s.mem t.img.handle 0), loByte (Memory.word s.mem t.img.handle 0)]))

/-- R149, R150: an accepted `QUERY` of a multiple write sends the items of the telegram's image from index 0 upward. -/
def Obligations.QuerySendsMultipleWrites : Prop :=
  ∀ (s : State) (t : Telegram), s.ownId = 0 → s.phase = .idle → 1 ≤ t.tid.toNat → t.tid.toNat ≤ 247 →
    9 ≤ s.cfg.frameCap →
    (t.fc = 0x0F → ceilDiv t.qty.toNat 8 ≤ min 255 (s.cfg.frameCap - 9) → ceilDiv t.qty.toNat 16 ≤ t.img.cap.val →
      ∃ d : List Byte, d.length = ceilDiv t.qty.toNat 8 ∧
        (∀ k < t.qty.toNat, (byteAt d (k / 8)).getLsbD (k % 8) = Memory.coil s.mem t.img.handle k) ∧
        (∀ k, t.qty.toNat ≤ k → k < 8 * d.length → (byteAt d (k / 8)).getLsbD (k % 8) = false) ∧
        exec (.query t) s = .next (s.afterQuery t
          (t.tid :: 0x0F :: hiByte t.addr :: loByte t.addr :: hiByte t.qty :: loByte t.qty ::
            BitVec.ofNat 8 d.length :: d))) ∧
    (t.fc = 0x10 → 2 * t.qty.toNat ≤ min 255 (s.cfg.frameCap - 9) → t.qty.toNat ≤ t.img.cap.val →
      ∃ d : List Byte, d.length = 2 * t.qty.toNat ∧
        (∀ i < t.qty.toNat, wordAt d (2 * i) = Memory.word s.mem t.img.handle i) ∧
        exec (.query t) s = .next (s.afterQuery t
          (t.tid :: 0x10 :: hiByte t.addr :: loByte t.addr :: hiByte t.qty :: loByte t.qty ::
            BitVec.ofNat 8 d.length :: d)))

/-- R337: a `QUERY` that is not refused to the host and has an unsupported function code, or a frame that does not fit
(R151), has no transition. -/
def Obligations.QueryWithoutMeaningIsRefused : Prop :=
  ∀ (s : State) (t : Telegram), s.ownId = 0 → s.phase = .idle → 1 ≤ t.tid.toNat → t.tid.toNat ≤ 247 →
    9 ≤ s.cfg.frameCap →
    (t.fc ∉ [0x01#8, 0x02#8, 0x03#8, 0x04#8, 0x05#8, 0x06#8, 0x0F#8, 0x10#8] →
      exec (.query t) s = .refused .telegramUnsupported) ∧
    (t.fc = 0x0F → min 255 (s.cfg.frameCap - 9) < ceilDiv t.qty.toNat 8 →
      exec (.query t) s = .refused .telegramDoesNotFit) ∧
    (t.fc = 0x10 → min 255 (s.cfg.frameCap - 9) < 2 * t.qty.toNat →
      exec (.query t) s = .refused .telegramDoesNotFit)

/-! ## Configuration and accessors -/

/-- R266: `START` clears the protocol state and keeps the configuration; after reset it changes nothing. -/
def Obligations.StartKeepsTheConfiguration : Prop :=
  (∀ s : State, exec .start s = .next { s with
    phase := .idle, tSend := none, buf := [], tLast := none, lastError := .none, lastExc := 0,
    inCnt := 0, outCnt := 0, errCnt := 0, result := .unit }) ∧
  (∀ p, exec .start (State.resetWith p) = .next { State.resetWith p with result := .unit })

/-- R267: `SETTMO` stores the time-out, every value, and changes nothing else. -/
def Obligations.SetTimeoutStoresEveryValue : Prop :=
  ∀ (s : State) (ms : Word), exec (.setTmo ms) s = .next { s with timeout := ms, result := .unit }

/-- R268: `SETID` rejects 0 and everything above 247 and then changes nothing; otherwise the engine becomes a slave with
that id, in `IDLE`, with an empty buffer, and all else is kept. -/
def Obligations.SetIdMakesASlaveOrChangesNothing : Prop :=
  ∀ (s : State) (id : Byte),
    ((id = 0 ∨ 247 < id.toNat) → exec (.setId id) s = .next { s with result := .setId .rejected }) ∧
    (1 ≤ id.toNat → id.toNat ≤ 247 → exec (.setId id) s = .next { s with
      ownId := id, phase := .idle, tSend := none, buf := [], tLast := none, result := .setId .accepted })

/-- R276 to R280: the accessors return what the rules say and change nothing but the result. -/
def Obligations.AccessorsReadAndChangeNothing : Prop :=
  ∀ s : State,
    exec .getState s = .next { s with result := .state (if s.phase = .idle then 0 else 1) } ∧
    exec .getErr s = .next { s with result := .word (s.lastExc ++
      (match s.lastError with
        | .none => 0x00#8 | .illegalFunction => 0x01#8 | .illegalAddressRange => 0x02#8 | .illegalQuantity => 0x03#8
        | .executionFailure => 0x04#8 | .remoteException => 0x80#8 | .bufferOverflow => 0xFD#8
        | .noReply => 0xFF#8)) } ∧
    exec .getIn s = .next { s with result := .word s.inCnt } ∧
    exec .getOut s = .next { s with result := .word s.outCnt } ∧
    exec .getErrCnt s = .next { s with result := .word s.errCnt }

/-! ## The whole machine -/

/-- The invariant (R24, R28, R31, R32, R34, R245, R246, R259, R294 and the canonical form of memory) is kept by every
step, from every state that has it. -/
def Obligations.EveryStepKeepsTheInvariant : Prop :=
  ∀ s t : State, s.Inv → step s = .next t → t.Inv

/-- The invariant holds after reset, for every choice of the parameters the rules allow. -/
def Obligations.ResetHasTheInvariant : Prop :=
  (∀ p : Config.Params, p.wf = true → (State.resetWith p).Inv) ∧ State.reset.Inv

/-- R38, R214, R217, R234, R274: in a state that meets the invariant the only fault is a master's image that is too
small, and the only refusals are those of U1 and U3; so the dispatcher's defensive case and the read of a value that is
not held are never reached, and a slave's poll never stops. -/
def Obligations.OnlyTheSpecsOwnStopsAreReached : Prop :=
  ∀ s : State, s.Inv →
    (∀ f, step s = .fault f → f = .imageBound ∧ s.ownId = 0) ∧
    (∀ r, step s = .refused r →
      r = .reservedCommand ∨ (s.ownId = 0 ∧ s.phase = .idle ∧ (r = .telegramUnsupported ∨ r = .telegramDoesNotFit)))

/-- R245: how every event changes `state`. -/
def Obligations.StateFollowsTheTransitionTable : Prop :=
  ∀ (s t : State) (e : Event) (rest : List Event), s.Inv → s.schedule = e :: rest → step s = .next t →
    t.phase =
      (match e with
        | .rst => .idle
        | .rxByte _ | .tick _ | .imageWrite _ _ _ => s.phase
        | .op c =>
          match decodeCommand c with
          | .ok .start => .idle
          | .ok (.setId id) => if id = 0 ∨ 247 < id.toNat then s.phase else .idle
          | .ok (.query _) => if t.result = .query .ok then .waiting else s.phase
          | .ok .poll | .ok (.pollr _) => if t.result = .poll ⟨.none, 0, 0⟩ then s.phase else .idle
          | _ => s.phase) ∧
    (t.phase = .waiting → t.ownId = 0) ∧
    (s.phase = .idle → t.phase = .waiting → s.ownId = 0 ∧ t.result = .query .ok)

/-- R24, R268, R301: `own_id` changes only by an accepted `SETID`, to 1 to 247, and by reset, to 0. -/
def Obligations.OwnIdChangesOnlyBySetIdAndReset : Prop :=
  ∀ s t : State, s.Inv → step s = .next t → t.ownId ≠ s.ownId →
    (∃ c id rest, s.schedule = .op c :: rest ∧ decodeCommand c = .ok (.setId id) ∧ t.ownId = id ∧
      1 ≤ id.toNat ∧ id.toNat ≤ 247) ∨
    (∃ rest, s.schedule = .rst :: rest ∧ t.ownId = 0)

/-- R48, R76, R259 (b), R302: a byte of memory changes only by the host's own write, or by a poll that ends `DONE`, with a
write function code at a slave or a read function code at a master, and then only within the words of the current image
below its capacity. -/
def Obligations.ImagesChangeOnlyBelowTheCapacity : Prop :=
  ∀ (s t : State) (a : Nat), s.Inv → step s = .next t → Memory.read t.mem a ≠ Memory.read s.mem a →
    (∃ h i v rest, s.schedule = .imageWrite h i v :: rest ∧ (a = wordAddr h i.toNat ∨ a = wordAddr h i.toNat + 1)) ∨
    (∃ c rest fc r, s.schedule = .op c :: rest ∧ (c.op = 0x4 ∨ c.op = 0x5) ∧ t.result = .poll ⟨.done, fc, 0⟩ ∧
      (s.ownId ≠ 0 → fc ∈ [0x05#8, 0x06#8, 0x0F#8, 0x10#8]) ∧ (s.ownId = 0 → fc ∈ [0x01#8, 0x02#8, 0x03#8, 0x04#8]) ∧
      t.imgRef = some r ∧ ∃ i < r.cap.val, a = wordAddr r.handle i ∨ a = wordAddr r.handle i + 1)

/-- R246, R259, R272: what one poll does to the counters, to `state` and to the buffer, by its result. -/
def Obligations.PollsCountByTheirResult : Prop :=
  ∀ s t : State, s.Inv → exec .poll s = .next t →
    ∃ r : PollResult, t.result = .poll r ∧
      t.errCnt = (if r.kind = .error then s.errCnt + 1 else s.errCnt) ∧
      t.outCnt = (if s.ownId ≠ 0 ∧ (r.kind = .done ∨ (r.kind = .error ∧
          t.lastError ∈ [ErrKind.illegalFunction, .illegalQuantity, .illegalAddressRange]))
        then s.outCnt + 1 else s.outCnt) ∧
      (t.inCnt = s.inCnt ∨ t.inCnt = s.inCnt + 1) ∧
      (r.kind = .done ∨ r.kind = .ignored → t.inCnt = s.inCnt + 1) ∧
      (r.kind = .none → t.inCnt = s.inCnt) ∧
      (r.kind ≠ .none → t.buf = [] ∧ t.phase = .idle) ∧
      (s.ownId ≠ 0 → t.phase = .idle)

/-- R273: for `ERROR` the result's `err` is what `GETERR` would return immediately afterwards; for the other kinds it is
0, and `fc` is 0 but for `DONE`. -/
def Obligations.PollErrorIsWhatGetErrReturns : Prop :=
  ∀ s t : State, s.Inv → exec .poll s = .next t →
    ∃ r : PollResult, t.result = .poll r ∧
      (r.kind = .error → exec .getErr t = .next { t with result := .word r.err }) ∧
      (r.kind ≠ .error → r.err = 0) ∧ (r.kind ≠ .done → r.fc = 0)

/-- R42, R91, R160, R216: in one step the transport is handed nothing, or one frame as the four events in their order;
that frame fits the buffer and its checksum is good, it is counted, the buffer is empty after it, and a slave's frame
carries its own id. -/
def Obligations.TransmissionsAreWholeGoodFrames : Prop :=
  ∀ s t : State, s.Inv → step s = .next t →
    t.txLog = s.txLog ∨
    ∃ frame : List Byte, t.txLog = s.txLog ++ [.de true, .write frame, .flush, .de false] ∧
      verify frame = true ∧ frame.length ≤ s.cfg.frameCap ∧ t.outCnt = s.outCnt + 1 ∧ t.buf = [] ∧
      (s.ownId ≠ 0 → byteAt frame 0 = s.ownId)

/-- R161 (c), for function codes 15 and 16: what a master's write query sends, decoded and executed at a slave, leaves the slave's items equal to the
master's. -/
def Obligations.WritesReachTheSlave : Prop :=
  ∀ (m u : State) (t : Telegram) (r : ImgRef), m.ownId = 0 → m.phase = .idle → 1 ≤ t.tid.toNat → t.tid.toNat ≤ 247 →
    9 ≤ m.cfg.frameCap → 1 ≤ t.qty.toNat → u.ownId = t.tid → u.imgRef = some r →
    (t.fc = 0x0F → ceilDiv t.qty.toNat 8 ≤ min 255 (m.cfg.frameCap - 9) → ceilDiv t.qty.toNat 16 ≤ t.img.cap.val →
      (t.addr.toNat + t.qty.toNat - 1) / 16 < r.cap.val →
      ∃ m' frame i u', exec (.query t) m = .next m' ∧ m'.txLog = m.txLog ++ transmission frame ∧
        decodeFrame .request frame = .ok i ∧ exec i u = .next u' ∧
        ∀ k < t.qty.toNat, Memory.coil u'.mem r.handle (t.addr.toNat + k) = Memory.coil m.mem t.img.handle k) ∧
    (t.fc = 0x10 → 2 * t.qty.toNat ≤ min 255 (m.cfg.frameCap - 9) → t.qty.toNat ≤ t.img.cap.val →
      t.addr.toNat + t.qty.toNat - 1 < r.cap.val →
      ∃ m' frame i u', exec (.query t) m = .next m' ∧ m'.txLog = m.txLog ++ transmission frame ∧
        decodeFrame .request frame = .ok i ∧ exec i u = .next u' ∧
        ∀ k < t.qty.toNat, Memory.word u'.mem r.handle (t.addr.toNat + k) = Memory.word m.mem t.img.handle k)

/-- R161 (d), for function codes 1 to 4: what a slave answers to a read, decoded and executed at a waiting master, leaves the master's items from
index 0 equal to the slave's from the address on. -/
def Obligations.ReadsReachTheMaster : Prop :=
  ∀ (u m : State) (addr qty : Word) (r x : ImgRef), u.ownId ≠ 0 → u.imgRef = some r →
    m.ownId = 0 → m.phase = .waiting → m.imgRef = some x → 1 ≤ qty.toNat →
    (∀ req, req = Instr.rdCoilsReq u.ownId addr qty ∨ req = Instr.rdDiscReq u.ownId addr qty →
      qty.toNat ≤ 8 * min 255 (u.cfg.frameCap - 5) → (addr.toNat + qty.toNat - 1) / 16 < r.cap.val →
      ceilDiv (ceilDiv qty.toNat 8) 2 ≤ x.cap.val →
      ∃ u' frame i m', exec req u = .next u' ∧ u'.txLog = u.txLog ++ transmission frame ∧
        decodeFrame .response frame = .ok i ∧ exec i m = .next m' ∧
        ∀ k < qty.toNat, Memory.coil m'.mem x.handle k = Memory.coil u.mem r.handle (addr.toNat + k)) ∧
    (∀ req, req = Instr.rdHoldReq u.ownId addr qty ∨ req = Instr.rdInputReq u.ownId addr qty →
      qty.toNat ≤ min 255 (u.cfg.frameCap - 5) / 2 → addr.toNat + qty.toNat - 1 < r.cap.val →
      qty.toNat ≤ x.cap.val →
      ∃ u' frame i m', exec req u = .next u' ∧ u'.txLog = u.txLog ++ transmission frame ∧
        decodeFrame .response frame = .ok i ∧ exec i m = .next m' ∧
        ∀ k < qty.toNat, Memory.word m'.mem x.handle k = Memory.word u.mem r.handle (addr.toNat + k))

/-- R38, U10: what holds no value reads as absent, and a read of it is a fault of the model: a byte of the buffer at or
above `len`, wherever a poll or the validator needs one; `t_last`, where bytes are buffered all the same; `t_send`, in
`WAITING` all the same; the image, where none is attached. -/
def Obligations.AbsentValuesReadAsFaults : Prop :=
  (∀ (buf : List Byte) (a : Nat), memRead1 buf a = none ↔ buf.length ≤ a) ∧
  (∀ (buf : List Byte) (a : Nat), memRead2 buf a = none ↔ buf.length ≤ a + 1) ∧
  (∀ (s : State) (a : Nat) (use : Byte → Host.Outcome State Fault Refusal), s.buf.length ≤ a →
    withByte s.buf a use = .fault .absentRead) ∧
  (∀ s : State, s.buf = [] → s.slaveFrame = .fault .absentRead) ∧
  (∀ (frameCap cap : Nat) (fc : Fc) (f : List Byte), f.length < 6 →
    validateFields frameCap cap fc f = .error .absentRead) ∧
  (∀ s : State, s.ownId ≠ 0 → s.rxq = [] → s.buf ≠ [] → s.tLast = none → exec .poll s = .fault .absentRead) ∧
  (∀ s : State, s.ownId = 0 → s.phase = .waiting → s.tSend = none → exec .poll s = .fault .absentRead) ∧
  (∀ (s : State) (id : Byte) (data : List Byte), s.ownId = 0 → s.phase = .waiting → s.imgRef = none → data ≠ [] →
    exec (.rdCoilsRsp id data) s = .fault .imageBound ∧ exec (.rdDiscRsp id data) s = .fault .imageBound)
end

