-- ==== Sys2Proof/Laws/Memory.lean ====
section
/-! SUPPORT. The laws of the image memory: read after write, the canonical form kept, words and coils. -/

namespace Sys2Proof.Machine

/-! ### Bytes -/

theorem Memory.read_filter_same (m : Memory) (a : Nat) :
    Memory.read (m.filter fun c => c.1 != a) a = 0 := by
  induction m with
  | nil => rfl
  | cons c rest ih =>
    obtain ⟨k, v⟩ := c
    by_cases h : k = a <;> simp [Memory.read, h, ih]

theorem Memory.read_filter_other (m : Memory) {a x : Nat} (hx : x ≠ a) :
    Memory.read (m.filter fun c => c.1 != a) x = Memory.read m x := by
  induction m with
  | nil => rfl
  | cons c rest ih =>
    obtain ⟨k, v⟩ := c
    by_cases h : k = a
    · subst h; simp [Memory.read, ih, Ne.symm hx]
    · simp [Memory.read, h, ih]

theorem Memory.read_insert_same (m : Memory) (a : Nat) (b : Byte) : Memory.read (Memory.insert m a b) a = b := by
  induction m with
  | nil => simp [Memory.insert, Memory.read]
  | cons c rest ih =>
    obtain ⟨k, v⟩ := c
    by_cases h : k < a
    · simp [Memory.insert, Memory.read, h, ih, Nat.ne_of_lt h]
    · simp [Memory.insert, Memory.read, h]

theorem Memory.read_insert_other (m : Memory) {a x : Nat} (b : Byte) (hx : x ≠ a) :
    Memory.read (Memory.insert m a b) x = Memory.read m x := by
  induction m with
  | nil => simp [Memory.insert, Memory.read, Ne.symm hx]
  | cons c rest ih =>
    obtain ⟨k, v⟩ := c
    by_cases h : k < a
    · simp [Memory.insert, Memory.read, h, ih]
    · simp [Memory.insert, Memory.read, h, Ne.symm hx]

/-- A byte written is read back. -/
@[simp] theorem Memory.read_write_same (m : Memory) (a : Nat) (b : Byte) :
    Memory.read (Memory.write m a b) a = b := by
  unfold Memory.write
  by_cases h : b = 0
  · subst h; exact Memory.read_filter_same m a
  · simp only [if_neg h, Memory.read_insert_same]

/-- A write leaves every other byte alone. -/
theorem Memory.read_write_other (m : Memory) {a x : Nat} (b : Byte) (hx : x ≠ a) :
    Memory.read (Memory.write m a b) x = Memory.read m x := by
  unfold Memory.write
  by_cases h : b = 0
  · simp only [if_pos h, Memory.read_filter_other m hx]
  · simp only [if_neg h, Memory.read_insert_other _ b hx, Memory.read_filter_other m hx]

/-! ### The canonical form -/

theorem Memory.wf_nil : Memory.wf [] = true := rfl

theorem Memory.wf_cons {k : Nat} {v : Byte} {rest : Memory} :
    Memory.wf ((k, v) :: rest) = true ↔
      v ≠ 0 ∧ (∀ c ∈ rest, k < c.1) ∧ Memory.wf rest = true := by
  simp [Memory.wf, and_assoc]

theorem Memory.wf_filter {m : Memory} (a : Nat) (h : Memory.wf m = true) :
    Memory.wf (m.filter fun c => c.1 != a) = true := by
  induction m with
  | nil => rfl
  | cons c rest ih =>
    obtain ⟨k, v⟩ := c
    obtain ⟨hv, hr, hw⟩ := Memory.wf_cons.1 h
    by_cases hk : k = a
    · simpa [hk] using ih hw
    · simp only [List.filter, show (k != a) = true from by simp [hk]]
      exact Memory.wf_cons.2 ⟨hv, fun c hc => hr c (List.mem_filter.1 hc).1, ih hw⟩

theorem Memory.mem_insert {m : Memory} {a : Nat} {b : Byte} {c : Host.Cell}
    (h : c ∈ Memory.insert m a b) : c = (a, b) ∨ c ∈ m := by
  induction m with
  | nil => simpa [Memory.insert] using h
  | cons d rest ih =>
    obtain ⟨k, v⟩ := d
    by_cases hk : k < a
    · simp only [Memory.insert, hk, if_true, List.mem_cons] at h
      rcases h with rfl | h
      · simp
      · rcases ih h with rfl | h <;> simp [*]
    · simp only [Memory.insert, hk, if_false, List.mem_cons] at h
      rcases h with rfl | h <;> simp [*]

theorem Memory.wf_insert {m : Memory} {a : Nat} {b : Byte} (hb : b ≠ 0) (hm : ∀ c ∈ m, c.1 ≠ a)
    (h : Memory.wf m = true) : Memory.wf (Memory.insert m a b) = true := by
  induction m with
  | nil => exact Memory.wf_cons.2 ⟨hb, by simp, rfl⟩
  | cons d rest ih =>
    obtain ⟨k, v⟩ := d
    obtain ⟨hv, hr, hw⟩ := Memory.wf_cons.1 h
    have hk' : k ≠ a := hm _ (List.mem_cons_self ..)
    by_cases hk : k < a
    · simp only [Memory.insert, hk, if_true]
      refine Memory.wf_cons.2 ⟨hv, fun c hc => ?_, ih (fun c hc => hm c (List.mem_cons_of_mem _ hc)) hw⟩
      rcases Memory.mem_insert hc with rfl | hc
      · exact hk
      · exact hr c hc
    · simp only [Memory.insert, hk, if_false]
      refine Memory.wf_cons.2 ⟨hb, fun c hc => ?_, h⟩
      have hak : a < k := by omega
      rcases List.mem_cons.1 hc with rfl | hc
      · exact hak
      · exact Nat.lt_trans hak (hr c hc)

/-- A byte write keeps the canonical form. -/
theorem Memory.wf_write {m : Memory} (a : Nat) (b : Byte) (h : Memory.wf m = true) :
    Memory.wf (Memory.write m a b) = true := by
  unfold Memory.write
  by_cases hb : b = 0
  · simpa [hb] using Memory.wf_filter a h
  · simp only [hb, if_false]
    exact Memory.wf_insert hb (fun c hc => by simpa using (List.mem_filter.1 hc).2) (Memory.wf_filter a h)

theorem Memory.wf_setWord {m : Memory} (h i : Nat) (w : Word) (hm : Memory.wf m = true) :
    Memory.wf (Memory.setWord m h i w) = true := Memory.wf_write _ _ (Memory.wf_write _ _ hm)

theorem Memory.wf_setCoil {m : Memory} (h n : Nat) (b : Bool) (hm : Memory.wf m = true) :
    Memory.wf (Memory.setCoil m h n b) = true := Memory.wf_setWord _ _ _ hm

theorem Memory.wf_setHalf {m : Memory} (h i : Nat) (b : Byte) (hm : Memory.wf m = true) :
    Memory.wf (Memory.setHalf m h i b) = true := Memory.wf_setWord _ _ _ hm

theorem Memory.wf_setWords {m : Memory} (h i : Nat) (ws : List Word) (hm : Memory.wf m = true) :
    Memory.wf (Memory.setWords m h i ws) = true := by
  induction ws generalizing m i with
  | nil => exact hm
  | cons w ws ih => exact ih _ (Memory.wf_setWord _ _ _ hm)

theorem Memory.wf_setCoils {m : Memory} (h n : Nat) (bs : List Bool) (hm : Memory.wf m = true) :
    Memory.wf (Memory.setCoils m h n bs) = true := by
  induction bs generalizing m n with
  | nil => exact hm
  | cons b bs ih => exact ih _ (Memory.wf_setCoil _ _ _ hm)

theorem Memory.wf_setHalves {m : Memory} (h i : Nat) (bs : List Byte) (hm : Memory.wf m = true) :
    Memory.wf (Memory.setHalves m h i bs) = true := by
  induction bs generalizing m i with
  | nil => exact hm
  | cons b bs ih => exact ih _ (Memory.wf_setHalf _ _ _ hm)

theorem Memory.read_eq_zero_of_lt {m : Memory} {a : Nat} (h : ∀ c ∈ m, a < c.1) : Memory.read m a = 0 := by
  induction m with
  | nil => rfl
  | cons d rest ih =>
    obtain ⟨k, v⟩ := d
    have hk : a < k := h (k, v) (List.mem_cons_self ..)
    simp [Memory.read, Nat.ne_of_gt hk, ih fun c hc => h c (List.mem_cons_of_mem _ hc)]

/-- Canonical memories that read alike are equal data. -/
theorem Memory.ext_read {m₁ m₂ : Memory} (h₁ : Memory.wf m₁ = true) (h₂ : Memory.wf m₂ = true)
    (h : ∀ a, Memory.read m₁ a = Memory.read m₂ a) : m₁ = m₂ := by
  induction m₁ generalizing m₂ with
  | nil =>
    cases m₂ with
    | nil => rfl
    | cons d rest =>
      obtain ⟨k, v⟩ := d
      have := h k
      simp [Memory.read] at this
      exact absurd this.symm (Memory.wf_cons.1 h₂).1
  | cons c r₁ ih =>
    obtain ⟨k, v⟩ := c
    obtain ⟨hv, hr, hw⟩ := Memory.wf_cons.1 h₁
    cases m₂ with
    | nil =>
      have := h k
      simp [Memory.read] at this
      exact absurd this hv
    | cons d r₂ =>
      obtain ⟨k', v'⟩ := d
      obtain ⟨hv', hr', hw'⟩ := Memory.wf_cons.1 h₂
      have hkk : k = k' := by
        rcases Nat.lt_trichotomy k k' with hlt | he | hgt
        · have := h k
          have h0 : Memory.read r₂ k = 0 :=
            Memory.read_eq_zero_of_lt fun c hc => Nat.lt_trans hlt (hr' c hc)
          simp [Memory.read, Nat.ne_of_gt hlt, h0] at this
          exact absurd this hv
        · exact he
        · have := h k'
          have h0 : Memory.read r₁ k' = 0 :=
            Memory.read_eq_zero_of_lt fun c hc => Nat.lt_trans hgt (hr c hc)
          simp [Memory.read, Nat.ne_of_gt hgt, h0] at this
          exact absurd this.symm hv'
      subst hkk
      have hvv : v = v' := by simpa [Memory.read] using h k
      subst hvv
      congr 1
      refine ih hw hw' fun a => ?_
      by_cases ha : k = a
      · subst ha
        rw [Memory.read_eq_zero_of_lt hr, Memory.read_eq_zero_of_lt hr']
      · simpa [Memory.read, ha] using h a

/-! ### Words -/

@[simp] theorem hiByte_mkWord (a b : Byte) : hiByte (mkWord a b) = a := by
  apply BitVec.eq_of_getLsbD_eq
  intro i hi
  simp only [hiByte, mkWord, BitVec.getLsbD_append, BitVec.getLsbD_extractLsb']
  simp [hi]

@[simp] theorem loByte_mkWord (a b : Byte) : loByte (mkWord a b) = b := by
  apply BitVec.eq_of_getLsbD_eq
  intro i hi
  simp only [loByte, mkWord, BitVec.getLsbD_append, BitVec.getLsbD_extractLsb']
  simp [hi]

@[simp] theorem mkWord_hi_lo (w : Word) : mkWord (hiByte w) (loByte w) = w := by
  apply BitVec.eq_of_getLsbD_eq
  intro i hi
  simp only [mkWord, hiByte, loByte, BitVec.getLsbD_append, BitVec.getLsbD_extractLsb']
  by_cases h : i < 8
  · simp [h]
  · have h8 : i - 8 < 8 := by omega
    simp [h, h8, Nat.add_sub_cancel' (Nat.le_of_not_lt h)]

/-- The bytes of one word meet those of another only where the words are the same. -/
theorem wordAddr_inj {h h' i j : Nat} (hi : i < 65536) (hj : j < 65536) :
    wordAddr h i = wordAddr h' j ↔ h = h' ∧ i = j := by
  unfold wordAddr; omega

theorem wordAddr_ne_succ (h h' i j : Nat) : wordAddr h i ≠ wordAddr h' j + 1 := by
  unfold wordAddr; omega

/-- A write of a word leaves every byte outside the word alone. -/
theorem Memory.read_setWord_other (m : Memory) {h i x : Nat} (w : Word)
    (h0 : x ≠ wordAddr h i) (h1 : x ≠ wordAddr h i + 1) :
    Memory.read (Memory.setWord m h i w) x = Memory.read m x := by
  rw [Memory.setWord, Memory.read_write_other _ _ h1, Memory.read_write_other _ _ h0]

@[simp] theorem Memory.word_setWord_same (m : Memory) (h i : Nat) (w : Word) :
    Memory.word (Memory.setWord m h i w) h i = w := by
  simp [Memory.word, Memory.setWord, Memory.read_write_other _ _ (Nat.ne_of_lt (Nat.lt_succ_self _))]

theorem Memory.word_setWord_other (m : Memory) {h h' i j : Nat} (w : Word) (hi : i < 65536) (hj : j < 65536)
    (hne : ¬(h' = h ∧ j = i)) : Memory.word (Memory.setWord m h i w) h' j = Memory.word m h' j := by
  have h0 : wordAddr h' j ≠ wordAddr h i := fun e => hne ((wordAddr_inj hj hi).1 e)
  have h1 := wordAddr_ne_succ h' h j i
  have h2 := wordAddr_ne_succ h h' i j
  unfold Memory.word
  rw [Memory.read_setWord_other m w h0 h1, Memory.read_setWord_other m w h2.symm (by omega)]

/-- What a write of words leaves: the words written, and every other word as before. -/
theorem Memory.word_setWords (m : Memory) {h h' i j : Nat} (ws : List Word)
    (hi : i + ws.length ≤ 65536) (hj : j < 65536) :
    Memory.word (Memory.setWords m h i ws) h' j =
      if h' = h ∧ i ≤ j ∧ j < i + ws.length then ws.getD (j - i) 0 else Memory.word m h' j := by
  induction ws generalizing m i with
  | nil => rw [if_neg (by simp)]; rfl
  | cons w ws ih =>
    simp only [List.length_cons] at hi ⊢
    rw [Memory.setWords, ih _ (by omega)]
    by_cases hin : h' = h ∧ i + 1 ≤ j ∧ j < i + 1 + ws.length
    · obtain ⟨rfl, h1, h2⟩ := hin
      rw [if_pos ⟨rfl, h1, h2⟩, if_pos ⟨rfl, by omega, by omega⟩, show j - i = (j - (i + 1)) + 1 from by omega,
        List.getD_cons_succ]
    · rw [if_neg hin]
      by_cases hij : h' = h ∧ j = i
      · obtain ⟨rfl, rfl⟩ := hij
        rw [if_pos ⟨rfl, Nat.le_refl _, by omega⟩]
        simp
      · rw [Memory.word_setWord_other m w (by omega) hj hij, if_neg (by omega)]

/-- A write of words leaves every byte outside them alone. -/
theorem Memory.read_setWords_other (m : Memory) {h i x : Nat} (ws : List Word)
    (hx : ∀ k < ws.length, x ≠ wordAddr h (i + k) ∧ x ≠ wordAddr h (i + k) + 1) :
    Memory.read (Memory.setWords m h i ws) x = Memory.read m x := by
  induction ws generalizing m i with
  | nil => rfl
  | cons w ws ih =>
    rw [Memory.setWords, ih _ fun k hk => ?_]
    · have := hx 0 (by simp)
      exact Memory.read_setWord_other m w this.1 this.2
    · have := hx (k + 1) (by simpa using hk)
      rwa [show i + (k + 1) = i + 1 + k from by omega] at this

/-! ### Coils -/

theorem getLsbD_setBit (w : Word) {k j : Nat} (b : Bool) (hk : k < 16) (hj : j < 16) :
    (setBit w k b).getLsbD j = if j = k then b else w.getLsbD j := by
  unfold setBit
  cases b
  · by_cases h : j = k
    · subst h; simp [hj]
    · by_cases hlt : j < k
      · simp [hj, h, hlt]
      · have hne : j - k ≠ 0 := by omega
        simp [hj, h, hlt, hne]
  · by_cases h : j = k
    · subst h; simp [hj]
    · by_cases hlt : j < k
      · simp [hj, h, hlt]
      · have hne : j - k ≠ 0 := by omega
        simp [hj, h, hlt, hne]

/-- What a coil write leaves: the coil written, and every other coil as before (R10, R62). -/
theorem Memory.coil_setCoil (m : Memory) {h h' n j : Nat} (b : Bool) (hn : n < 1048576) (hj : j < 1048576) :
    Memory.coil (Memory.setCoil m h n b) h' j = if h' = h ∧ j = n then b else Memory.coil m h' j := by
  unfold Memory.coil Memory.setCoil
  by_cases hw : h' = h ∧ j / 16 = n / 16
  · obtain ⟨rfl, hw⟩ := hw
    rw [hw, Memory.word_setWord_same, getLsbD_setBit _ _ (Nat.mod_lt _ (by decide)) (Nat.mod_lt _ (by decide))]
    by_cases hjn : j = n
    · subst hjn; simp
    · have : j % 16 ≠ n % 16 := by omega
      simp [hjn, this]
  · rw [Memory.word_setWord_other m _ (by omega) (by omega) hw]
    rw [if_neg]; rintro ⟨rfl, rfl⟩; exact hw ⟨rfl, rfl⟩

theorem Memory.coil_setCoils (m : Memory) {h h' n j : Nat} (bs : List Bool)
    (hn : n + bs.length ≤ 1048576) (hj : j < 1048576) :
    Memory.coil (Memory.setCoils m h n bs) h' j =
      if h' = h ∧ n ≤ j ∧ j < n + bs.length then bs.getD (j - n) false else Memory.coil m h' j := by
  induction bs generalizing m n with
  | nil => rw [if_neg (by simp)]; rfl
  | cons b bs ih =>
    simp only [List.length_cons] at hn ⊢
    rw [Memory.setCoils, ih _ (by omega)]
    by_cases hin : h' = h ∧ n + 1 ≤ j ∧ j < n + 1 + bs.length
    · obtain ⟨rfl, h1, h2⟩ := hin
      rw [if_pos ⟨rfl, h1, h2⟩, if_pos ⟨rfl, by omega, by omega⟩, show j - n = (j - (n + 1)) + 1 from by omega,
        List.getD_cons_succ]
    · rw [if_neg hin, Memory.coil_setCoil m b (by omega) hj]
      by_cases hij : h' = h ∧ j = n
      · obtain ⟨rfl, rfl⟩ := hij
        rw [if_pos ⟨rfl, rfl⟩, if_pos ⟨rfl, Nat.le_refl _, by omega⟩]
        simp
      · rw [if_neg hij, if_neg (by omega)]

/-- A write of coils leaves every byte outside their words alone. -/
theorem Memory.read_setCoils_other (m : Memory) {h n x : Nat} (bs : List Bool)
    (hx : ∀ k < bs.length, x ≠ wordAddr h ((n + k) / 16) ∧ x ≠ wordAddr h ((n + k) / 16) + 1) :
    Memory.read (Memory.setCoils m h n bs) x = Memory.read m x := by
  induction bs generalizing m n with
  | nil => rfl
  | cons b bs ih =>
    rw [Memory.setCoils, ih _ fun k hk => ?_]
    · have := hx 0 (by simp)
      exact Memory.read_setWord_other m _ this.1 this.2
    · have := hx (k + 1) (by simpa using hk)
      rwa [show n + (k + 1) = n + 1 + k from by omega] at this

/-! ### Data bytes -/

/-- The half of a word that data byte `i` lies in (R69). -/
def Memory.half (m : Memory) (h i : Nat) : Byte :=
  if i % 2 = 0 then loByte (Memory.word m h (i / 2)) else hiByte (Memory.word m h (i / 2))

theorem Memory.half_setHalf (m : Memory) {h h' i j : Nat} (b : Byte) (hi : i < 131072) (hj : j < 131072) :
    Memory.half (Memory.setHalf m h i b) h' j = if h' = h ∧ j = i then b else Memory.half m h' j := by
  unfold Memory.half Memory.setHalf
  by_cases hw : h' = h ∧ j / 2 = i / 2
  · obtain ⟨rfl, hw⟩ := hw
    simp only [hw, Memory.word_setWord_same]
    by_cases hji : j = i
    · subst hji; by_cases h2 : j % 2 = 0 <;> simp [h2]
    · by_cases h2 : i % 2 = 0
      · have : j % 2 ≠ 0 := by omega
        simp [h2, this, hji]
      · have : j % 2 = 0 := by omega
        simp [h2, this, hji]
  · rw [Memory.word_setWord_other m _ (by omega) (by omega) hw]
    rw [if_neg (c := h' = h ∧ j = i)]; rintro ⟨rfl, rfl⟩; exact hw ⟨rfl, rfl⟩

/-- What a write of data bytes leaves (R156). -/
theorem Memory.half_setHalves (m : Memory) {h h' i j : Nat} (bs : List Byte)
    (hi : i + bs.length ≤ 131072) (hj : j < 131072) :
    Memory.half (Memory.setHalves m h i bs) h' j =
      if h' = h ∧ i ≤ j ∧ j < i + bs.length then bs.getD (j - i) 0 else Memory.half m h' j := by
  induction bs generalizing m i with
  | nil => rw [if_neg (by simp)]; rfl
  | cons b bs ih =>
    simp only [List.length_cons] at hi ⊢
    rw [Memory.setHalves, ih _ (by omega)]
    by_cases hin : h' = h ∧ i + 1 ≤ j ∧ j < i + 1 + bs.length
    · obtain ⟨rfl, h1, h2⟩ := hin
      rw [if_pos ⟨rfl, h1, h2⟩, if_pos ⟨rfl, by omega, by omega⟩, show j - i = (j - (i + 1)) + 1 from by omega,
        List.getD_cons_succ]
    · rw [if_neg hin, Memory.half_setHalf m b (by omega) hj]
      by_cases hij : h' = h ∧ j = i
      · obtain ⟨rfl, rfl⟩ := hij
        rw [if_pos ⟨rfl, rfl⟩, if_pos ⟨rfl, Nat.le_refl _, by omega⟩]
        simp
      · rw [if_neg hij, if_neg (by omega)]

/-- A write of data bytes leaves every byte outside their words alone. -/
theorem Memory.read_setHalves_other (m : Memory) {h i x : Nat} (bs : List Byte)
    (hx : ∀ k < bs.length, x ≠ wordAddr h ((i + k) / 2) ∧ x ≠ wordAddr h ((i + k) / 2) + 1) :
    Memory.read (Memory.setHalves m h i bs) x = Memory.read m x := by
  induction bs generalizing m i with
  | nil => rfl
  | cons b bs ih =>
    rw [Memory.setHalves, ih _ fun k hk => ?_]
    · have := hx 0 (by simp)
      exact Memory.read_setWord_other m _ this.1 this.2
    · have := hx (k + 1) (by simpa using hk)
      rwa [show i + (k + 1) = i + 1 + k from by omega] at this

/-- A coil is a bit of the data byte it lies in (R69). -/
theorem Memory.coil_eq_half (m : Memory) (h n : Nat) :
    Memory.coil m h n = (Memory.half m h (n / 8)).getLsbD (n % 8) := by
  unfold Memory.coil Memory.half hiByte loByte
  have hd : n / 8 / 2 = n / 16 := by omega
  rw [hd]
  by_cases h2 : n / 8 % 2 = 0
  · have : n % 16 = n % 8 := by omega
    simp [h2, this, Nat.mod_lt]
  · have : n % 16 = 8 + n % 8 := by omega
    simp [h2, this, Nat.mod_lt]

end Sys2Proof.Machine
end

