-- ==== Sys2Proof/Laws/Crc.lean ====
section
/-! SUPPORT. The laws of the checksum engine: the register is linear in its bytes, one byte step is a bijection, and
what `append` puts where; and the reads of a frame, where there is a byte and where there is none. -/

namespace Sys2Proof.Machine

theorem crcShift_xor (a b : Word) : crcShift (a ^^^ b) = crcShift a ^^^ crcShift b := by
  unfold crcShift
  rw [BitVec.getLsbD_xor, BitVec.ushiftRight_xor_distrib]
  cases a.getLsbD 0 <;> cases b.getLsbD 0
  · simp
  · simp; ac_rfl
  · simp; ac_rfl
  · simp
    rw [show a >>> 1 ^^^ crcPoly ^^^ (b >>> 1 ^^^ crcPoly) = a >>> 1 ^^^ b >>> 1 ^^^ (crcPoly ^^^ crcPoly) from by ac_rfl]
    simp

/-- The top bit of the register after a shift is the bit shifted out: the polynomial has it, the shift does not. -/
theorem crcShift_top (r : Word) : (crcShift r).getLsbD 15 = r.getLsbD 0 := by
  unfold crcShift crcPoly
  cases r.getLsbD 0 <;> simp

theorem crcShift_eq_zero {r : Word} (h : crcShift r = 0) : r = 0 := by
  have h0 : r.getLsbD 0 = false := by rw [← crcShift_top, h]; simp
  unfold crcShift at h
  rw [h0] at h
  apply BitVec.eq_of_getLsbD_eq
  intro i hi
  by_cases hz : i = 0
  · subst hz; simpa using h0
  · have := congrArg (fun w : Word => w.getLsbD (i - 1)) h
    simp at this
    rw [Nat.add_sub_cancel' (by omega)] at this
    simpa using this

/-- One shift loses nothing. -/
theorem crcShift_injective {a b : Word} (h : crcShift a = crcShift b) : a = b := by
  have : crcShift (a ^^^ b) = 0 := by rw [crcShift_xor, h]; simp
  exact BitVec.xor_eq_zero_iff.1 (crcShift_eq_zero this)

theorem iterate_crcShift_xor (n : Nat) (a b : Word) :
    Nat.iterate crcShift n (a ^^^ b) = Nat.iterate crcShift n a ^^^ Nat.iterate crcShift n b := by
  induction n generalizing a b with
  | zero => rfl
  | succ n ih => simp only [Function.iterate_succ_apply, crcShift_xor, ih]

theorem iterate_crcShift_injective (n : Nat) {a b : Word}
    (h : Nat.iterate crcShift n a = Nat.iterate crcShift n b) : a = b := by
  induction n generalizing a b with
  | zero => exact h
  | succ n ih => exact crcShift_injective (ih (by simpa only [Function.iterate_succ_apply] using h))

theorem crcByte_xor (r s : Word) (a b : Byte) : crcByte (r ^^^ s) (a ^^^ b) = crcByte r a ^^^ crcByte s b := by
  unfold crcByte
  rw [← iterate_crcShift_xor]
  congr 1
  rw [BitVec.setWidth_xor]
  simp only [BitVec.xor_assoc]
  congr 1
  rw [← BitVec.xor_assoc, BitVec.xor_comm s, BitVec.xor_assoc]

theorem crcByte_injective {r s : Word} {b : Byte} (h : crcByte r b = crcByte s b) : r = s := by
  have := iterate_crcShift_injective 8 h
  calc r = r ^^^ b.setWidth 16 ^^^ b.setWidth 16 := by rw [BitVec.xor_assoc]; simp
    _ = s := by rw [this, BitVec.xor_assoc]; simp

theorem foldl_crcByte_injective (l : List Byte) {r s : Word} (h : l.foldl crcByte r = l.foldl crcByte s) : r = s := by
  induction l generalizing r s with
  | nil => exact h
  | cons b l ih => exact crcByte_injective (ih h)

theorem crcByte_self (b : Byte) : crcByte (b.setWidth 16) b = 0 := by
  unfold crcByte
  rw [BitVec.xor_self]
  decide

/-! ### Reads of a frame (R10, R38) -/

/-- A byte below `len` is there. -/
theorem memRead1_of_lt {buf : List Byte} {a : Nat} (h : a < buf.length) : memRead1 buf a = some (byteAt buf a) := by
  simp [memRead1, byteAt, List.getD_eq_getElem?_getD, List.getElem?_eq_getElem h]

/-- A byte is absent exactly at and above `len`. -/
theorem memRead1_eq_none {buf : List Byte} {a : Nat} : memRead1 buf a = none ↔ buf.length ≤ a := by
  simp [memRead1]

theorem memRead2_of_lt {buf : List Byte} {a : Nat} (h : a + 1 < buf.length) :
    memRead2 buf a = some (wordAt buf a) := by
  simp only [memRead2, memRead1_of_lt h, memRead1_of_lt (Nat.lt_of_succ_lt h), wordAt]

/-! ### Finished frames -/

@[simp] theorem length_append_frame (b : List Byte) : (append b).length = b.length + 2 := by
  simp [append]

@[simp] theorem take_append_frame (b : List Byte) : (append b).take b.length = b := by
  simp [append]

theorem byteAt_append_left {l r : List Byte} {i : Nat} (h : i < l.length) :
    byteAt (l ++ r) i = byteAt l i := by
  simp [byteAt, h, List.getD_eq_getElem?_getD, List.getElem?_append_left h]

theorem byteAt_append_right {l r : List Byte} {i : Nat} (h : l.length ≤ i) :
    byteAt (l ++ r) i = byteAt r (i - l.length) := by
  simp [byteAt, List.getD_eq_getElem?_getD, List.getElem?_append_right h]

/-- The last two bytes of a finished frame are the value of `compute`, high byte first (R132). -/
@[simp] theorem wordAt_append_frame (b : List Byte) : wordAt (append b) b.length = compute b := by
  unfold wordAt append
  rw [byteAt_append_right (Nat.le_refl _), byteAt_append_right (Nat.le_succ _)]
  simp [byteAt]

/-- The bytes before the checksum are the body's. -/
theorem byteAt_append_frame {b : List Byte} {i : Nat} (h : i < b.length) : byteAt (append b) i = byteAt b i :=
  byteAt_append_left h

/-- R104: a checksum matches when the frame is its own body, finished. -/
theorem verify_iff (f : List Byte) :
    verify f = true ↔ 4 ≤ f.length ∧ compute (f.take (f.length - 2)) = wordAt f (f.length - 2) := by
  unfold verify
  by_cases h : f.length < 4
  · simp [h]
  · rw [if_neg h, memRead2_of_lt (by omega)]
    simp [Nat.le_of_not_lt h, eq_comm]

end Sys2Proof.Machine
end

