-- ==== Sys2Proof/Laws/Codec.lean ====
section
/-! SUPPORT. The laws of the codec: what packing gives, where the fields of a body lie, and the function codes. -/

namespace Sys2Proof.Machine

@[simp] theorem getLsbD_byteOfBits (f : Nat → Bool) {j : Nat} (hj : j < 8) : (byteOfBits f).getLsbD j = f j := by
  unfold byteOfBits
  simp only [BitVec.getLsbD_append]
  have : j = 0 ∨ j = 1 ∨ j = 2 ∨ j = 3 ∨ j = 4 ∨ j = 5 ∨ j = 6 ∨ j = 7 := by omega
  rcases this with rfl | rfl | rfl | rfl | rfl | rfl | rfl | rfl <;> simp

@[simp] theorem length_packBits (c : List Bool) : (packBits c).length = ceilDiv c.length 8 := by
  simp [packBits]

theorem byteAt_packBits (c : List Bool) {i : Nat} (hi : i < ceilDiv c.length 8) :
    byteAt (packBits c) i = byteOfBits fun j => c.getD (8 * i + j) false := by
  simp [byteAt, packBits, List.getD_eq_getElem?_getD, hi]

/-- Bit `j` of packed byte `i` is item `8 i + j`, and 0 past the last item (R101). -/
theorem getLsbD_packBits (c : List Bool) {i j : Nat} (hi : i < ceilDiv c.length 8) (hj : j < 8) :
    (byteAt (packBits c) i).getLsbD j = c.getD (8 * i + j) false := by
  rw [byteAt_packBits c hi, getLsbD_byteOfBits _ hj]

/-- Where the bytes hold `q` bits, every bit is an item (R142). -/
theorem unpackBits_eq {d : List Byte} {q : Nat} (h : q ≤ 8 * d.length) :
    unpackBits d q = (List.range q).map fun k => (byteAt d (k / 8)).getLsbD (k % 8) := by
  unfold unpackBits
  rw [← List.filterMap_eq_map]
  apply List.filterMap_congr
  intro k hk
  have := List.mem_range.1 hk
  simp [memRead1_of_lt (show k / 8 < d.length by omega)]

theorem length_unpackBits {d : List Byte} {q : Nat} (h : q ≤ 8 * d.length) : (unpackBits d q).length = q := by
  simp [unpackBits_eq h]

theorem getD_unpackBits {d : List Byte} {q k : Nat} (h : q ≤ 8 * d.length) (hk : k < q) :
    (unpackBits d q).getD k false = (byteAt d (k / 8)).getLsbD (k % 8) := by
  simp [unpackBits_eq h, List.getD_eq_getElem?_getD, hk]

@[simp] theorem length_field (w : Word) : (field w).length = 2 := rfl

@[simp] theorem bytesOfWords_nil : bytesOfWords [] = [] := rfl

@[simp] theorem bytesOfWords_cons (w : Word) (ws : List Word) :
    bytesOfWords (w :: ws) = hiByte w :: loByte w :: bytesOfWords ws := rfl

@[simp] theorem length_bytesOfWords (ws : List Word) : (bytesOfWords ws).length = 2 * ws.length := by
  induction ws with
  | nil => rfl
  | cons w ws ih => simp [ih]; omega

theorem length_wordsOfBytes (d : List Byte) : (wordsOfBytes d).length = d.length / 2 := by
  induction d using wordsOfBytes.induct with
  | case1 hi lo rest ih => simp [wordsOfBytes, ih]; omega
  | case2 b => simp [wordsOfBytes]
  | case3 => simp [wordsOfBytes]

/-- Word `i` of packed registers is the two bytes at `2 i`, high byte first (R102). -/
theorem getD_wordsOfBytes (d : List Byte) {i : Nat} (hi : i < d.length / 2) :
    (wordsOfBytes d).getD i 0 = wordAt d (2 * i) := by
  induction d using wordsOfBytes.induct generalizing i with
  | case1 hi lo rest ih =>
    cases i with
    | zero => simp [wordsOfBytes, wordAt, byteAt]
    | succ i =>
      simp only [wordsOfBytes, List.getD_cons_succ]
      rw [ih (by simp at hi; omega), show 2 * (i + 1) = 2 * i + 1 + 1 from by omega]
      simp [wordAt, byteAt]
  | case2 b => simp at hi
  | case3 => simp at hi

@[simp] theorem length_bodySix (id fc : Byte) (a f2 : Word) : (bodySix id fc a f2).length = 6 := rfl

@[simp] theorem length_bodyRqm (id fc : Byte) (a q : Word) (d : List Byte) :
    (bodyRqm id fc a q d).length = 7 + d.length := by
  simp [bodyRqm]; omega

@[simp] theorem length_bodyRsb (id fc : Byte) (d : List Byte) : (bodyRsb id fc d).length = 3 + d.length := by
  simp [bodyRsb]; omega

@[simp] theorem length_bodyExc (id : Byte) (fn : BitVec 7) (code : Byte) : (bodyExc id fn code).length = 3 := rfl

@[simp] theorem wordAt_field (w : Word) : mkWord (hiByte w) (loByte w) = w := mkWord_hi_lo w

/-- The fields of the formats `RQ6` and `RS6`, whatever follows them. -/
theorem fields_bodySix (id fc : Byte) (a f2 : Word) (rest : List Byte) :
    byteAt (bodySix id fc a f2 ++ rest) 0 = id ∧ byteAt (bodySix id fc a f2 ++ rest) 1 = fc ∧
    wordAt (bodySix id fc a f2 ++ rest) 2 = a ∧ wordAt (bodySix id fc a f2 ++ rest) 4 = f2 := by
  simp [bodySix, field, byteAt, wordAt]

@[simp] theorem fcOf_fcByte (fc : Fc) : fcOf (fcByte fc) = some fc := by cases fc <;> decide

theorem fcByte_of_fcOf {b : Byte} {fc : Fc} (h : fcOf b = some fc) : fcByte fc = b := by
  unfold fcOf at h
  repeat' (split at h; · cases h; subst_vars; rfl)
  cases h

/-- R107: a request of the right length has the byte count it says. -/
theorem wellFormedRequest_length {fc : Fc} {f : List Byte} (h : wellFormedRequest fc f = true) :
    8 ≤ f.length ∧ (fc = .wrCoils ∨ fc = .wrRegs → f.length = 9 + (byteAt f 6).toNat) := by
  cases fc
  case wrCoils | wrRegs =>
    simp only [wellFormedRequest, Bool.and_eq_true, decide_eq_true_eq] at h
    obtain ⟨h9, h⟩ := h
    rw [memRead1_of_lt (by omega)] at h
    exact ⟨by omega, fun _ => by simpa using h⟩
  all_goals
    simp only [wellFormedRequest, decide_eq_true_eq] at h
    exact ⟨by omega, fun hc => by rcases hc with hc | hc <;> cases hc⟩

/-- R107: a response of the right length has the byte count it says. -/
theorem wellFormedResponse_length {fc : Fc} {f : List Byte} (h : wellFormedResponse fc f = true) :
    5 ≤ f.length ∧ (fc = .rdCoils ∨ fc = .rdDisc ∨ fc = .rdHold ∨ fc = .rdInput →
      f.length = 5 + (byteAt f 2).toNat) ∧
    (fc = .wrCoil ∨ fc = .wrReg ∨ fc = .wrCoils ∨ fc = .wrRegs → f.length = 8) := by
  cases fc
  case rdCoils | rdDisc | rdHold | rdInput =>
    simp only [wellFormedResponse, Bool.and_eq_true, decide_eq_true_eq] at h
    obtain ⟨h5, h⟩ := h
    rw [memRead1_of_lt (by omega)] at h
    exact ⟨h5, fun _ => by simpa using h, fun hc => by (rcases hc with hc | hc | hc | hc <;> cases hc)⟩
  all_goals
    simp only [wellFormedResponse, decide_eq_true_eq] at h
    exact ⟨by omega, fun hc => by (rcases hc with hc | hc | hc | hc <;> cases hc), fun _ => h⟩

/-- A request of the right length decodes: every byte its fields take is there. -/
theorem requestOf_eq {fc : Fc} {f : List Byte} (h : wellFormedRequest fc f = true) :
    requestOf fc f = requestFrom fc f (byteAt f 0) (wordAt f 2) (wordAt f 4) := by
  have := (wellFormedRequest_length h).1
  simp only [requestOf, memRead1_of_lt (show 0 < f.length by omega), memRead2_of_lt (show 2 + 1 < f.length by omega),
    memRead2_of_lt (show 4 + 1 < f.length by omega)]

theorem withRequestData_eq {f : List Byte} (build : List Byte → Instr) (h : 6 < f.length) :
    withRequestData f build = .ok (build (dataBytes f 7 (byteAt f 6))) := by
  simp only [withRequestData, memRead1_of_lt h]

theorem withResponseData_eq {f : List Byte} (build : List Byte → Instr) (h : 2 < f.length) :
    withResponseData f build = .ok (build (dataBytes f 3 (byteAt f 2))) := by
  simp only [withResponseData, memRead1_of_lt h]

theorem withTwoWords_eq {f : List Byte} (build : Word → Word → Instr) (h : 5 < f.length) :
    withTwoWords f build = .ok (build (wordAt f 2) (wordAt f 4)) := by
  simp only [withTwoWords, memRead2_of_lt (show 2 + 1 < f.length by omega), memRead2_of_lt (show 4 + 1 < f.length from h)]

theorem exceptionOf_eq {b : Byte} {f : List Byte} (h : f.length = 5) :
    exceptionOf b f = .ok (.excRsp (byteAt f 0) (b.setWidth 7) (byteAt f 2)) := by
  simp only [exceptionOf, memRead1_of_lt (show 0 < f.length by omega), memRead1_of_lt (show 2 < f.length by omega)]

theorem fcByte_bit7 (fc : Fc) : (fcByte fc).getLsbD 7 = false := by cases fc <;> decide

theorem fcOf_none_of_bit7 {b : Byte} (h : b.getLsbD 7 = true) : fcOf b = none := by
  cases hf : fcOf b with
  | none => rfl
  | some fc => rw [← fcByte_of_fcOf hf, fcByte_bit7] at h; cases h

end Sys2Proof.Machine
end

