-- ==== Sys2Proof/Laws/State.lean ====
section
/-! SUPPORT. One lemma per field per update of the state, so that no later proof unfolds a record update. -/

namespace Sys2Proof.Machine

/-! ### `answer` -/

@[simp] theorem State.answer_cfg (s : State) (r : OpResult) : (s.answer r).cfg = s.cfg := rfl
@[simp] theorem State.answer_ownId (s : State) (r : OpResult) : (s.answer r).ownId = s.ownId := rfl
@[simp] theorem State.answer_phase (s : State) (r : OpResult) : (s.answer r).phase = s.phase := rfl
@[simp] theorem State.answer_lastError (s : State) (r : OpResult) : (s.answer r).lastError = s.lastError := rfl
@[simp] theorem State.answer_lastExc (s : State) (r : OpResult) : (s.answer r).lastExc = s.lastExc := rfl
@[simp] theorem State.answer_timeout (s : State) (r : OpResult) : (s.answer r).timeout = s.timeout := rfl
@[simp] theorem State.answer_buf (s : State) (r : OpResult) : (s.answer r).buf = s.buf := rfl
@[simp] theorem State.answer_tLast (s : State) (r : OpResult) : (s.answer r).tLast = s.tLast := rfl
@[simp] theorem State.answer_tSend (s : State) (r : OpResult) : (s.answer r).tSend = s.tSend := rfl
@[simp] theorem State.answer_imgRef (s : State) (r : OpResult) : (s.answer r).imgRef = s.imgRef := rfl
@[simp] theorem State.answer_inCnt (s : State) (r : OpResult) : (s.answer r).inCnt = s.inCnt := rfl
@[simp] theorem State.answer_outCnt (s : State) (r : OpResult) : (s.answer r).outCnt = s.outCnt := rfl
@[simp] theorem State.answer_errCnt (s : State) (r : OpResult) : (s.answer r).errCnt = s.errCnt := rfl
@[simp] theorem State.answer_rxq (s : State) (r : OpResult) : (s.answer r).rxq = s.rxq := rfl
@[simp] theorem State.answer_now (s : State) (r : OpResult) : (s.answer r).now = s.now := rfl
@[simp] theorem State.answer_txLog (s : State) (r : OpResult) : (s.answer r).txLog = s.txLog := rfl
@[simp] theorem State.answer_mem (s : State) (r : OpResult) : (s.answer r).mem = s.mem := rfl
@[simp] theorem State.answer_result (s : State) (r : OpResult) : (s.answer r).result = r := rfl
@[simp] theorem State.answer_schedule (s : State) (r : OpResult) : (s.answer r).schedule = s.schedule := rfl

/-! ### `emptyBuf` -/

@[simp] theorem State.emptyBuf_cfg (s : State) : (s.emptyBuf).cfg = s.cfg := rfl
@[simp] theorem State.emptyBuf_ownId (s : State) : (s.emptyBuf).ownId = s.ownId := rfl
@[simp] theorem State.emptyBuf_phase (s : State) : (s.emptyBuf).phase = s.phase := rfl
@[simp] theorem State.emptyBuf_lastError (s : State) : (s.emptyBuf).lastError = s.lastError := rfl
@[simp] theorem State.emptyBuf_lastExc (s : State) : (s.emptyBuf).lastExc = s.lastExc := rfl
@[simp] theorem State.emptyBuf_timeout (s : State) : (s.emptyBuf).timeout = s.timeout := rfl
@[simp] theorem State.emptyBuf_buf (s : State) : (s.emptyBuf).buf = [] := rfl
@[simp] theorem State.emptyBuf_tLast (s : State) : (s.emptyBuf).tLast = none := rfl
@[simp] theorem State.emptyBuf_tSend (s : State) : (s.emptyBuf).tSend = s.tSend := rfl
@[simp] theorem State.emptyBuf_imgRef (s : State) : (s.emptyBuf).imgRef = s.imgRef := rfl
@[simp] theorem State.emptyBuf_inCnt (s : State) : (s.emptyBuf).inCnt = s.inCnt := rfl
@[simp] theorem State.emptyBuf_outCnt (s : State) : (s.emptyBuf).outCnt = s.outCnt := rfl
@[simp] theorem State.emptyBuf_errCnt (s : State) : (s.emptyBuf).errCnt = s.errCnt := rfl
@[simp] theorem State.emptyBuf_rxq (s : State) : (s.emptyBuf).rxq = s.rxq := rfl
@[simp] theorem State.emptyBuf_now (s : State) : (s.emptyBuf).now = s.now := rfl
@[simp] theorem State.emptyBuf_txLog (s : State) : (s.emptyBuf).txLog = s.txLog := rfl
@[simp] theorem State.emptyBuf_mem (s : State) : (s.emptyBuf).mem = s.mem := rfl
@[simp] theorem State.emptyBuf_result (s : State) : (s.emptyBuf).result = s.result := rfl
@[simp] theorem State.emptyBuf_schedule (s : State) : (s.emptyBuf).schedule = s.schedule := rfl

/-! ### `toIdle` -/

@[simp] theorem State.toIdle_cfg (s : State) : (s.toIdle).cfg = s.cfg := rfl
@[simp] theorem State.toIdle_ownId (s : State) : (s.toIdle).ownId = s.ownId := rfl
@[simp] theorem State.toIdle_phase (s : State) : (s.toIdle).phase = .idle := rfl
@[simp] theorem State.toIdle_lastError (s : State) : (s.toIdle).lastError = s.lastError := rfl
@[simp] theorem State.toIdle_lastExc (s : State) : (s.toIdle).lastExc = s.lastExc := rfl
@[simp] theorem State.toIdle_timeout (s : State) : (s.toIdle).timeout = s.timeout := rfl
@[simp] theorem State.toIdle_buf (s : State) : (s.toIdle).buf = s.buf := rfl
@[simp] theorem State.toIdle_tLast (s : State) : (s.toIdle).tLast = s.tLast := rfl
@[simp] theorem State.toIdle_tSend (s : State) : (s.toIdle).tSend = none := rfl
@[simp] theorem State.toIdle_imgRef (s : State) : (s.toIdle).imgRef = s.imgRef := rfl
@[simp] theorem State.toIdle_inCnt (s : State) : (s.toIdle).inCnt = s.inCnt := rfl
@[simp] theorem State.toIdle_outCnt (s : State) : (s.toIdle).outCnt = s.outCnt := rfl
@[simp] theorem State.toIdle_errCnt (s : State) : (s.toIdle).errCnt = s.errCnt := rfl
@[simp] theorem State.toIdle_rxq (s : State) : (s.toIdle).rxq = s.rxq := rfl
@[simp] theorem State.toIdle_now (s : State) : (s.toIdle).now = s.now := rfl
@[simp] theorem State.toIdle_txLog (s : State) : (s.toIdle).txLog = s.txLog := rfl
@[simp] theorem State.toIdle_mem (s : State) : (s.toIdle).mem = s.mem := rfl
@[simp] theorem State.toIdle_result (s : State) : (s.toIdle).result = s.result := rfl
@[simp] theorem State.toIdle_schedule (s : State) : (s.toIdle).schedule = s.schedule := rfl

/-! ### `endTransaction` -/

@[simp] theorem State.endTransaction_cfg (s : State) : (s.endTransaction).cfg = s.cfg := by
  unfold State.endTransaction; split <;> rfl
@[simp] theorem State.endTransaction_ownId (s : State) : (s.endTransaction).ownId = s.ownId := by
  unfold State.endTransaction; split <;> rfl
@[simp] theorem State.endTransaction_phase (s : State) : (s.endTransaction).phase = if s.ownId = 0 then .idle else s.phase := by
  unfold State.endTransaction; split <;> rfl
@[simp] theorem State.endTransaction_lastError (s : State) : (s.endTransaction).lastError = s.lastError := by
  unfold State.endTransaction; split <;> rfl
@[simp] theorem State.endTransaction_lastExc (s : State) : (s.endTransaction).lastExc = s.lastExc := by
  unfold State.endTransaction; split <;> rfl
@[simp] theorem State.endTransaction_timeout (s : State) : (s.endTransaction).timeout = s.timeout := by
  unfold State.endTransaction; split <;> rfl
@[simp] theorem State.endTransaction_buf (s : State) : (s.endTransaction).buf = s.buf := by
  unfold State.endTransaction; split <;> rfl
@[simp] theorem State.endTransaction_tLast (s : State) : (s.endTransaction).tLast = s.tLast := by
  unfold State.endTransaction; split <;> rfl
@[simp] theorem State.endTransaction_tSend (s : State) : (s.endTransaction).tSend = if s.ownId = 0 then none else s.tSend := by
  unfold State.endTransaction; split <;> rfl
@[simp] theorem State.endTransaction_imgRef (s : State) : (s.endTransaction).imgRef = s.imgRef := by
  unfold State.endTransaction; split <;> rfl
@[simp] theorem State.endTransaction_inCnt (s : State) : (s.endTransaction).inCnt = s.inCnt := by
  unfold State.endTransaction; split <;> rfl
@[simp] theorem State.endTransaction_outCnt (s : State) : (s.endTransaction).outCnt = s.outCnt := by
  unfold State.endTransaction; split <;> rfl
@[simp] theorem State.endTransaction_errCnt (s : State) : (s.endTransaction).errCnt = s.errCnt := by
  unfold State.endTransaction; split <;> rfl
@[simp] theorem State.endTransaction_rxq (s : State) : (s.endTransaction).rxq = s.rxq := by
  unfold State.endTransaction; split <;> rfl
@[simp] theorem State.endTransaction_now (s : State) : (s.endTransaction).now = s.now := by
  unfold State.endTransaction; split <;> rfl
@[simp] theorem State.endTransaction_txLog (s : State) : (s.endTransaction).txLog = s.txLog := by
  unfold State.endTransaction; split <;> rfl
@[simp] theorem State.endTransaction_mem (s : State) : (s.endTransaction).mem = s.mem := by
  unfold State.endTransaction; split <;> rfl
@[simp] theorem State.endTransaction_result (s : State) : (s.endTransaction).result = s.result := by
  unfold State.endTransaction; split <;> rfl
@[simp] theorem State.endTransaction_schedule (s : State) : (s.endTransaction).schedule = s.schedule := by
  unfold State.endTransaction; split <;> rfl

/-! ### `transmit` -/

@[simp] theorem State.transmit_cfg (s : State) (f : List Byte) : (s.transmit f).cfg = s.cfg := rfl
@[simp] theorem State.transmit_ownId (s : State) (f : List Byte) : (s.transmit f).ownId = s.ownId := rfl
@[simp] theorem State.transmit_phase (s : State) (f : List Byte) : (s.transmit f).phase = s.phase := rfl
@[simp] theorem State.transmit_lastError (s : State) (f : List Byte) : (s.transmit f).lastError = s.lastError := rfl
@[simp] theorem State.transmit_lastExc (s : State) (f : List Byte) : (s.transmit f).lastExc = s.lastExc := rfl
@[simp] theorem State.transmit_timeout (s : State) (f : List Byte) : (s.transmit f).timeout = s.timeout := rfl
@[simp] theorem State.transmit_buf (s : State) (f : List Byte) : (s.transmit f).buf = [] := rfl
@[simp] theorem State.transmit_tLast (s : State) (f : List Byte) : (s.transmit f).tLast = none := rfl
@[simp] theorem State.transmit_tSend (s : State) (f : List Byte) : (s.transmit f).tSend = s.tSend := rfl
@[simp] theorem State.transmit_imgRef (s : State) (f : List Byte) : (s.transmit f).imgRef = s.imgRef := rfl
@[simp] theorem State.transmit_inCnt (s : State) (f : List Byte) : (s.transmit f).inCnt = s.inCnt := rfl
@[simp] theorem State.transmit_outCnt (s : State) (f : List Byte) : (s.transmit f).outCnt = bump s.outCnt := rfl
@[simp] theorem State.transmit_errCnt (s : State) (f : List Byte) : (s.transmit f).errCnt = s.errCnt := rfl
@[simp] theorem State.transmit_rxq (s : State) (f : List Byte) : (s.transmit f).rxq = s.rxq := rfl
@[simp] theorem State.transmit_now (s : State) (f : List Byte) : (s.transmit f).now = s.now := rfl
@[simp] theorem State.transmit_txLog (s : State) (f : List Byte) : (s.transmit f).txLog = s.txLog ++ [.de true, .write f, .flush, .de false] := rfl
@[simp] theorem State.transmit_mem (s : State) (f : List Byte) : (s.transmit f).mem = s.mem := rfl
@[simp] theorem State.transmit_result (s : State) (f : List Byte) : (s.transmit f).result = s.result := rfl
@[simp] theorem State.transmit_schedule (s : State) (f : List Byte) : (s.transmit f).schedule = s.schedule := rfl

/-! ### `consume` -/

@[simp] theorem State.consume_cfg (s : State) : (s.consume).cfg = s.cfg := rfl
@[simp] theorem State.consume_ownId (s : State) : (s.consume).ownId = s.ownId := rfl
@[simp] theorem State.consume_phase (s : State) : (s.consume).phase = s.phase := rfl
@[simp] theorem State.consume_lastError (s : State) : (s.consume).lastError = s.lastError := rfl
@[simp] theorem State.consume_lastExc (s : State) : (s.consume).lastExc = s.lastExc := rfl
@[simp] theorem State.consume_timeout (s : State) : (s.consume).timeout = s.timeout := rfl
@[simp] theorem State.consume_buf (s : State) : (s.consume).buf = [] := rfl
@[simp] theorem State.consume_tLast (s : State) : (s.consume).tLast = none := rfl
@[simp] theorem State.consume_tSend (s : State) : (s.consume).tSend = s.tSend := rfl
@[simp] theorem State.consume_imgRef (s : State) : (s.consume).imgRef = s.imgRef := rfl
@[simp] theorem State.consume_inCnt (s : State) : (s.consume).inCnt = bump s.inCnt := rfl
@[simp] theorem State.consume_outCnt (s : State) : (s.consume).outCnt = s.outCnt := rfl
@[simp] theorem State.consume_errCnt (s : State) : (s.consume).errCnt = s.errCnt := rfl
@[simp] theorem State.consume_rxq (s : State) : (s.consume).rxq = s.rxq := rfl
@[simp] theorem State.consume_now (s : State) : (s.consume).now = s.now := rfl
@[simp] theorem State.consume_txLog (s : State) : (s.consume).txLog = s.txLog := rfl
@[simp] theorem State.consume_mem (s : State) : (s.consume).mem = s.mem := rfl
@[simp] theorem State.consume_result (s : State) : (s.consume).result = s.result := rfl
@[simp] theorem State.consume_schedule (s : State) : (s.consume).schedule = s.schedule := rfl

/-! ### `takeException` -/

@[simp] theorem State.takeException_cfg (s : State) (k : ErrKind) (x : Byte) : (s.takeException k x).cfg = s.cfg := by
  simp [State.takeException]
@[simp] theorem State.takeException_ownId (s : State) (k : ErrKind) (x : Byte) : (s.takeException k x).ownId = s.ownId := by
  simp [State.takeException]
@[simp] theorem State.takeException_phase (s : State) (k : ErrKind) (x : Byte) : (s.takeException k x).phase = if s.ownId = 0 then .idle else s.phase := by
  unfold State.takeException State.endTransaction; split <;> simp_all
@[simp] theorem State.takeException_lastError (s : State) (k : ErrKind) (x : Byte) : (s.takeException k x).lastError = k := rfl
@[simp] theorem State.takeException_lastExc (s : State) (k : ErrKind) (x : Byte) : (s.takeException k x).lastExc = x := rfl
@[simp] theorem State.takeException_timeout (s : State) (k : ErrKind) (x : Byte) : (s.takeException k x).timeout = s.timeout := by
  simp [State.takeException]
@[simp] theorem State.takeException_buf (s : State) (k : ErrKind) (x : Byte) : (s.takeException k x).buf = [] := by
  simp [State.takeException]
@[simp] theorem State.takeException_tLast (s : State) (k : ErrKind) (x : Byte) : (s.takeException k x).tLast = none := by
  simp [State.takeException]
@[simp] theorem State.takeException_tSend (s : State) (k : ErrKind) (x : Byte) : (s.takeException k x).tSend = if s.ownId = 0 then none else s.tSend := by
  unfold State.takeException State.endTransaction; split <;> simp_all
@[simp] theorem State.takeException_imgRef (s : State) (k : ErrKind) (x : Byte) : (s.takeException k x).imgRef = s.imgRef := by
  simp [State.takeException]
@[simp] theorem State.takeException_inCnt (s : State) (k : ErrKind) (x : Byte) : (s.takeException k x).inCnt = s.inCnt := by
  simp [State.takeException]
@[simp] theorem State.takeException_outCnt (s : State) (k : ErrKind) (x : Byte) : (s.takeException k x).outCnt = s.outCnt := by
  simp [State.takeException]
@[simp] theorem State.takeException_errCnt (s : State) (k : ErrKind) (x : Byte) : (s.takeException k x).errCnt = bump s.errCnt := rfl
@[simp] theorem State.takeException_rxq (s : State) (k : ErrKind) (x : Byte) : (s.takeException k x).rxq = s.rxq := by
  simp [State.takeException]
@[simp] theorem State.takeException_now (s : State) (k : ErrKind) (x : Byte) : (s.takeException k x).now = s.now := by
  simp [State.takeException]
@[simp] theorem State.takeException_txLog (s : State) (k : ErrKind) (x : Byte) : (s.takeException k x).txLog = s.txLog := by
  simp [State.takeException]
@[simp] theorem State.takeException_mem (s : State) (k : ErrKind) (x : Byte) : (s.takeException k x).mem = s.mem := by
  simp [State.takeException]
@[simp] theorem State.takeException_result (s : State) (k : ErrKind) (x : Byte) : (s.takeException k x).result = pollError x k := rfl
@[simp] theorem State.takeException_schedule (s : State) (k : ErrKind) (x : Byte) : (s.takeException k x).schedule = s.schedule := by
  simp [State.takeException]

/-! ### `complete` -/

@[simp] theorem State.complete_cfg (s : State) (fc : Byte) : (s.complete fc).cfg = s.cfg := by
  simp [State.complete]
@[simp] theorem State.complete_ownId (s : State) (fc : Byte) : (s.complete fc).ownId = s.ownId := by
  simp [State.complete]
@[simp] theorem State.complete_phase (s : State) (fc : Byte) : (s.complete fc).phase = if s.ownId = 0 then .idle else s.phase := by
  unfold State.complete State.endTransaction; split <;> simp_all
@[simp] theorem State.complete_lastError (s : State) (fc : Byte) : (s.complete fc).lastError = .none := rfl
@[simp] theorem State.complete_lastExc (s : State) (fc : Byte) : (s.complete fc).lastExc = 0 := rfl
@[simp] theorem State.complete_timeout (s : State) (fc : Byte) : (s.complete fc).timeout = s.timeout := by
  simp [State.complete]
@[simp] theorem State.complete_buf (s : State) (fc : Byte) : (s.complete fc).buf = [] := by
  simp [State.complete]
@[simp] theorem State.complete_tLast (s : State) (fc : Byte) : (s.complete fc).tLast = none := by
  simp [State.complete]
@[simp] theorem State.complete_tSend (s : State) (fc : Byte) : (s.complete fc).tSend = if s.ownId = 0 then none else s.tSend := by
  unfold State.complete State.endTransaction; split <;> simp_all
@[simp] theorem State.complete_imgRef (s : State) (fc : Byte) : (s.complete fc).imgRef = s.imgRef := by
  simp [State.complete]
@[simp] theorem State.complete_inCnt (s : State) (fc : Byte) : (s.complete fc).inCnt = s.inCnt := by
  simp [State.complete]
@[simp] theorem State.complete_outCnt (s : State) (fc : Byte) : (s.complete fc).outCnt = s.outCnt := by
  simp [State.complete]
@[simp] theorem State.complete_errCnt (s : State) (fc : Byte) : (s.complete fc).errCnt = s.errCnt := by
  simp [State.complete]
@[simp] theorem State.complete_rxq (s : State) (fc : Byte) : (s.complete fc).rxq = s.rxq := by
  simp [State.complete]
@[simp] theorem State.complete_now (s : State) (fc : Byte) : (s.complete fc).now = s.now := by
  simp [State.complete]
@[simp] theorem State.complete_txLog (s : State) (fc : Byte) : (s.complete fc).txLog = s.txLog := by
  simp [State.complete]
@[simp] theorem State.complete_mem (s : State) (fc : Byte) : (s.complete fc).mem = s.mem := by
  simp [State.complete]
@[simp] theorem State.complete_result (s : State) (fc : Byte) : (s.complete fc).result = pollDone fc := rfl
@[simp] theorem State.complete_schedule (s : State) (fc : Byte) : (s.complete fc).schedule = s.schedule := by
  simp [State.complete]

/-! ### `ignore` -/

@[simp] theorem State.ignore_cfg (s : State) : (s.ignore).cfg = s.cfg := rfl
@[simp] theorem State.ignore_ownId (s : State) : (s.ignore).ownId = s.ownId := rfl
@[simp] theorem State.ignore_phase (s : State) : (s.ignore).phase = s.phase := rfl
@[simp] theorem State.ignore_lastError (s : State) : (s.ignore).lastError = s.lastError := rfl
@[simp] theorem State.ignore_lastExc (s : State) : (s.ignore).lastExc = s.lastExc := rfl
@[simp] theorem State.ignore_timeout (s : State) : (s.ignore).timeout = s.timeout := rfl
@[simp] theorem State.ignore_buf (s : State) : (s.ignore).buf = [] := rfl
@[simp] theorem State.ignore_tLast (s : State) : (s.ignore).tLast = none := rfl
@[simp] theorem State.ignore_tSend (s : State) : (s.ignore).tSend = s.tSend := rfl
@[simp] theorem State.ignore_imgRef (s : State) : (s.ignore).imgRef = s.imgRef := rfl
@[simp] theorem State.ignore_inCnt (s : State) : (s.ignore).inCnt = s.inCnt := rfl
@[simp] theorem State.ignore_outCnt (s : State) : (s.ignore).outCnt = s.outCnt := rfl
@[simp] theorem State.ignore_errCnt (s : State) : (s.ignore).errCnt = s.errCnt := rfl
@[simp] theorem State.ignore_rxq (s : State) : (s.ignore).rxq = s.rxq := rfl
@[simp] theorem State.ignore_now (s : State) : (s.ignore).now = s.now := rfl
@[simp] theorem State.ignore_txLog (s : State) : (s.ignore).txLog = s.txLog := rfl
@[simp] theorem State.ignore_mem (s : State) : (s.ignore).mem = s.mem := rfl
@[simp] theorem State.ignore_result (s : State) : (s.ignore).result = pollIgnored := rfl
@[simp] theorem State.ignore_schedule (s : State) : (s.ignore).schedule = s.schedule := rfl

/-! ### `resetEngine` -/

@[simp] theorem State.resetEngine_cfg (s : State) : (s.resetEngine).cfg = s.cfg := rfl
@[simp] theorem State.resetEngine_ownId (s : State) : (s.resetEngine).ownId = 0 := rfl
@[simp] theorem State.resetEngine_phase (s : State) : (s.resetEngine).phase = .idle := rfl
@[simp] theorem State.resetEngine_lastError (s : State) : (s.resetEngine).lastError = .none := rfl
@[simp] theorem State.resetEngine_lastExc (s : State) : (s.resetEngine).lastExc = 0 := rfl
@[simp] theorem State.resetEngine_timeout (s : State) : (s.resetEngine).timeout = s.cfg.timeoutReset := rfl
@[simp] theorem State.resetEngine_buf (s : State) : (s.resetEngine).buf = [] := rfl
@[simp] theorem State.resetEngine_tLast (s : State) : (s.resetEngine).tLast = none := rfl
@[simp] theorem State.resetEngine_tSend (s : State) : (s.resetEngine).tSend = none := rfl
@[simp] theorem State.resetEngine_imgRef (s : State) : (s.resetEngine).imgRef = none := rfl
@[simp] theorem State.resetEngine_inCnt (s : State) : (s.resetEngine).inCnt = 0 := rfl
@[simp] theorem State.resetEngine_outCnt (s : State) : (s.resetEngine).outCnt = 0 := rfl
@[simp] theorem State.resetEngine_errCnt (s : State) : (s.resetEngine).errCnt = 0 := rfl
@[simp] theorem State.resetEngine_rxq (s : State) : (s.resetEngine).rxq = s.rxq := rfl
@[simp] theorem State.resetEngine_now (s : State) : (s.resetEngine).now = s.now := rfl
@[simp] theorem State.resetEngine_txLog (s : State) : (s.resetEngine).txLog = s.txLog := rfl
@[simp] theorem State.resetEngine_mem (s : State) : (s.resetEngine).mem = s.mem := rfl
@[simp] theorem State.resetEngine_result (s : State) : (s.resetEngine).result = .none := rfl
@[simp] theorem State.resetEngine_schedule (s : State) : (s.resetEngine).schedule = s.schedule := rfl

/-! ### `arrive` -/

@[simp] theorem State.arrive_cfg (s : State) (b : Byte) : (s.arrive b).cfg = s.cfg := rfl
@[simp] theorem State.arrive_ownId (s : State) (b : Byte) : (s.arrive b).ownId = s.ownId := rfl
@[simp] theorem State.arrive_phase (s : State) (b : Byte) : (s.arrive b).phase = s.phase := rfl
@[simp] theorem State.arrive_lastError (s : State) (b : Byte) : (s.arrive b).lastError = s.lastError := rfl
@[simp] theorem State.arrive_lastExc (s : State) (b : Byte) : (s.arrive b).lastExc = s.lastExc := rfl
@[simp] theorem State.arrive_timeout (s : State) (b : Byte) : (s.arrive b).timeout = s.timeout := rfl
@[simp] theorem State.arrive_buf (s : State) (b : Byte) : (s.arrive b).buf = s.buf := rfl
@[simp] theorem State.arrive_tLast (s : State) (b : Byte) : (s.arrive b).tLast = s.tLast := rfl
@[simp] theorem State.arrive_tSend (s : State) (b : Byte) : (s.arrive b).tSend = s.tSend := rfl
@[simp] theorem State.arrive_imgRef (s : State) (b : Byte) : (s.arrive b).imgRef = s.imgRef := rfl
@[simp] theorem State.arrive_inCnt (s : State) (b : Byte) : (s.arrive b).inCnt = s.inCnt := rfl
@[simp] theorem State.arrive_outCnt (s : State) (b : Byte) : (s.arrive b).outCnt = s.outCnt := rfl
@[simp] theorem State.arrive_errCnt (s : State) (b : Byte) : (s.arrive b).errCnt = s.errCnt := rfl
@[simp] theorem State.arrive_rxq (s : State) (b : Byte) : (s.arrive b).rxq = s.rxq ++ [b] := rfl
@[simp] theorem State.arrive_now (s : State) (b : Byte) : (s.arrive b).now = s.now := rfl
@[simp] theorem State.arrive_txLog (s : State) (b : Byte) : (s.arrive b).txLog = s.txLog := rfl
@[simp] theorem State.arrive_mem (s : State) (b : Byte) : (s.arrive b).mem = s.mem := rfl
@[simp] theorem State.arrive_result (s : State) (b : Byte) : (s.arrive b).result = s.result := rfl
@[simp] theorem State.arrive_schedule (s : State) (b : Byte) : (s.arrive b).schedule = s.schedule := rfl

/-! ### `advance` -/

@[simp] theorem State.advance_cfg (s : State) (d : Time) : (s.advance d).cfg = s.cfg := rfl
@[simp] theorem State.advance_ownId (s : State) (d : Time) : (s.advance d).ownId = s.ownId := rfl
@[simp] theorem State.advance_phase (s : State) (d : Time) : (s.advance d).phase = s.phase := rfl
@[simp] theorem State.advance_lastError (s : State) (d : Time) : (s.advance d).lastError = s.lastError := rfl
@[simp] theorem State.advance_lastExc (s : State) (d : Time) : (s.advance d).lastExc = s.lastExc := rfl
@[simp] theorem State.advance_timeout (s : State) (d : Time) : (s.advance d).timeout = s.timeout := rfl
@[simp] theorem State.advance_buf (s : State) (d : Time) : (s.advance d).buf = s.buf := rfl
@[simp] theorem State.advance_tLast (s : State) (d : Time) : (s.advance d).tLast = s.tLast := rfl
@[simp] theorem State.advance_tSend (s : State) (d : Time) : (s.advance d).tSend = s.tSend := rfl
@[simp] theorem State.advance_imgRef (s : State) (d : Time) : (s.advance d).imgRef = s.imgRef := rfl
@[simp] theorem State.advance_inCnt (s : State) (d : Time) : (s.advance d).inCnt = s.inCnt := rfl
@[simp] theorem State.advance_outCnt (s : State) (d : Time) : (s.advance d).outCnt = s.outCnt := rfl
@[simp] theorem State.advance_errCnt (s : State) (d : Time) : (s.advance d).errCnt = s.errCnt := rfl
@[simp] theorem State.advance_rxq (s : State) (d : Time) : (s.advance d).rxq = s.rxq := rfl
@[simp] theorem State.advance_now (s : State) (d : Time) : (s.advance d).now = s.now + d := rfl
@[simp] theorem State.advance_txLog (s : State) (d : Time) : (s.advance d).txLog = s.txLog := rfl
@[simp] theorem State.advance_mem (s : State) (d : Time) : (s.advance d).mem = s.mem := rfl
@[simp] theorem State.advance_result (s : State) (d : Time) : (s.advance d).result = s.result := rfl
@[simp] theorem State.advance_schedule (s : State) (d : Time) : (s.advance d).schedule = s.schedule := rfl

/-! ### `hostWrite` -/

@[simp] theorem State.hostWrite_cfg (s : State) (h : Nat) (i v : Word) : (s.hostWrite h i v).cfg = s.cfg := rfl
@[simp] theorem State.hostWrite_ownId (s : State) (h : Nat) (i v : Word) : (s.hostWrite h i v).ownId = s.ownId := rfl
@[simp] theorem State.hostWrite_phase (s : State) (h : Nat) (i v : Word) : (s.hostWrite h i v).phase = s.phase := rfl
@[simp] theorem State.hostWrite_lastError (s : State) (h : Nat) (i v : Word) : (s.hostWrite h i v).lastError = s.lastError := rfl
@[simp] theorem State.hostWrite_lastExc (s : State) (h : Nat) (i v : Word) : (s.hostWrite h i v).lastExc = s.lastExc := rfl
@[simp] theorem State.hostWrite_timeout (s : State) (h : Nat) (i v : Word) : (s.hostWrite h i v).timeout = s.timeout := rfl
@[simp] theorem State.hostWrite_buf (s : State) (h : Nat) (i v : Word) : (s.hostWrite h i v).buf = s.buf := rfl
@[simp] theorem State.hostWrite_tLast (s : State) (h : Nat) (i v : Word) : (s.hostWrite h i v).tLast = s.tLast := rfl
@[simp] theorem State.hostWrite_tSend (s : State) (h : Nat) (i v : Word) : (s.hostWrite h i v).tSend = s.tSend := rfl
@[simp] theorem State.hostWrite_imgRef (s : State) (h : Nat) (i v : Word) : (s.hostWrite h i v).imgRef = s.imgRef := rfl
@[simp] theorem State.hostWrite_inCnt (s : State) (h : Nat) (i v : Word) : (s.hostWrite h i v).inCnt = s.inCnt := rfl
@[simp] theorem State.hostWrite_outCnt (s : State) (h : Nat) (i v : Word) : (s.hostWrite h i v).outCnt = s.outCnt := rfl
@[simp] theorem State.hostWrite_errCnt (s : State) (h : Nat) (i v : Word) : (s.hostWrite h i v).errCnt = s.errCnt := rfl
@[simp] theorem State.hostWrite_rxq (s : State) (h : Nat) (i v : Word) : (s.hostWrite h i v).rxq = s.rxq := rfl
@[simp] theorem State.hostWrite_now (s : State) (h : Nat) (i v : Word) : (s.hostWrite h i v).now = s.now := rfl
@[simp] theorem State.hostWrite_txLog (s : State) (h : Nat) (i v : Word) : (s.hostWrite h i v).txLog = s.txLog := rfl
@[simp] theorem State.hostWrite_mem (s : State) (h : Nat) (i v : Word) : (s.hostWrite h i v).mem = Memory.setWord s.mem h i.toNat v := rfl
@[simp] theorem State.hostWrite_result (s : State) (h : Nat) (i v : Word) : (s.hostWrite h i v).result = s.result := rfl
@[simp] theorem State.hostWrite_schedule (s : State) (h : Nat) (i v : Word) : (s.hostWrite h i v).schedule = s.schedule := rfl

/-! ### `pop` -/

@[simp] theorem State.pop_cfg (s : State) (r : List Event) : (s.pop r).cfg = s.cfg := rfl
@[simp] theorem State.pop_ownId (s : State) (r : List Event) : (s.pop r).ownId = s.ownId := rfl
@[simp] theorem State.pop_phase (s : State) (r : List Event) : (s.pop r).phase = s.phase := rfl
@[simp] theorem State.pop_lastError (s : State) (r : List Event) : (s.pop r).lastError = s.lastError := rfl
@[simp] theorem State.pop_lastExc (s : State) (r : List Event) : (s.pop r).lastExc = s.lastExc := rfl
@[simp] theorem State.pop_timeout (s : State) (r : List Event) : (s.pop r).timeout = s.timeout := rfl
@[simp] theorem State.pop_buf (s : State) (r : List Event) : (s.pop r).buf = s.buf := rfl
@[simp] theorem State.pop_tLast (s : State) (r : List Event) : (s.pop r).tLast = s.tLast := rfl
@[simp] theorem State.pop_tSend (s : State) (r : List Event) : (s.pop r).tSend = s.tSend := rfl
@[simp] theorem State.pop_imgRef (s : State) (r : List Event) : (s.pop r).imgRef = s.imgRef := rfl
@[simp] theorem State.pop_inCnt (s : State) (r : List Event) : (s.pop r).inCnt = s.inCnt := rfl
@[simp] theorem State.pop_outCnt (s : State) (r : List Event) : (s.pop r).outCnt = s.outCnt := rfl
@[simp] theorem State.pop_errCnt (s : State) (r : List Event) : (s.pop r).errCnt = s.errCnt := rfl
@[simp] theorem State.pop_rxq (s : State) (r : List Event) : (s.pop r).rxq = s.rxq := rfl
@[simp] theorem State.pop_now (s : State) (r : List Event) : (s.pop r).now = s.now := rfl
@[simp] theorem State.pop_txLog (s : State) (r : List Event) : (s.pop r).txLog = s.txLog := rfl
@[simp] theorem State.pop_mem (s : State) (r : List Event) : (s.pop r).mem = s.mem := rfl
@[simp] theorem State.pop_result (s : State) (r : List Event) : (s.pop r).result = s.result := rfl
@[simp] theorem State.pop_schedule (s : State) (r : List Event) : (s.pop r).schedule = r := rfl

end Sys2Proof.Machine
end

