-- ==== Sys2Proof/Laws/Ops.lean ====
section
/-! SUPPORT. One lemma for each shared operation: what it can do. -/

namespace Sys2Proof.Machine

/-! ### The current image -/

theorem State.withImage_of_cap {α : Type} {s : State} {r : ImgRef} (hr : s.imgRef = some r) {count need : Nat}
    (hn : need ≤ r.cap.val) (nothing : α) (use : Nat → α) :
    s.withImage count need nothing use = .ok (if count = 0 then nothing else use r.handle) := by
  unfold State.withImage
  by_cases h : count = 0 <;> simp [h, hr, hn]

theorem State.withImage_ok {α : Type} {s : State} {count need : Nat} {nothing x : α} {use : Nat → α}
    (h : s.withImage count need nothing use = .ok x) :
    x = nothing ∨ ∃ r, s.imgRef = some r ∧ need ≤ r.cap.val ∧ x = use r.handle := by
  unfold State.withImage at h
  split at h
  · cases h; exact .inl rfl
  · split at h
    · cases h
    · rename_i r hr
      split at h
      · cases h; exact .inr ⟨r, hr, ‹_›, rfl⟩
      · cases h

theorem State.withImage_error {α : Type} {s : State} {count need : Nat} {nothing : α} {use : Nat → α} {f : Fault}
    (h : s.withImage count need nothing use = .error f) :
    f = .imageBound ∧ count ≠ 0 ∧ ∀ r, s.imgRef = some r → r.cap.val < need := by
  unfold State.withImage at h
  split at h
  · cases h
  · rename_i hc
    split at h
    · rename_i hr
      cases h
      exact ⟨rfl, hc, fun r hr' => by rw [hr] at hr'; cases hr'⟩
    · rename_i r hr
      split at h
      · cases h
      · rename_i hn
        cases h
        exact ⟨rfl, hc, fun r' hr' => by rw [hr] at hr'; cases hr'; omega⟩

/-- The memory `m` differs from that of `s` only in the words of the current image, and is canonical if that is. -/
def State.ImageOnly (s : State) (m : Memory) : Prop :=
  (Memory.wf s.mem = true → Memory.wf m = true) ∧
  ∀ a, (∀ r, s.imgRef = some r → ∀ i < r.cap.val, a ≠ wordAddr r.handle i ∧ a ≠ wordAddr r.handle i + 1) →
    Memory.read m a = Memory.read s.mem a

theorem State.imageOnly_refl (s : State) : s.ImageOnly s.mem := ⟨id, fun _ _ => rfl⟩

theorem State.storeWords_ok {s t : State} {a : Nat} {ws : List Word} (h : s.storeWords a ws = .ok t) :
    ∃ m, t = { s with mem := m } ∧ s.ImageOnly m := by
  rcases State.withImage_ok h with rfl | ⟨r, hr, hn, rfl⟩
  · exact ⟨t.mem, rfl, t.imageOnly_refl⟩
  · exact ⟨_, rfl, Memory.wf_setWords _ _ _, fun x hx =>
      Memory.read_setWords_other _ _ fun k hk => hx r hr _ (by omega)⟩

theorem State.storeCoils_ok {s t : State} {a : Nat} {bs : List Bool} (h : s.storeCoils a bs = .ok t) :
    ∃ m, t = { s with mem := m } ∧ s.ImageOnly m := by
  rcases State.withImage_ok h with rfl | ⟨r, hr, hn, rfl⟩
  · exact ⟨t.mem, rfl, t.imageOnly_refl⟩
  · exact ⟨_, rfl, Memory.wf_setCoils _ _ _, fun x hx =>
      Memory.read_setCoils_other _ _ fun k hk => hx r hr _ (by omega)⟩

theorem State.storeBytes_ok {s t : State} {d : List Byte} (h : s.storeBytes d = .ok t) :
    ∃ m, t = { s with mem := m } ∧ s.ImageOnly m := by
  rcases State.withImage_ok h with rfl | ⟨r, hr, hn, rfl⟩
  · exact ⟨t.mem, rfl, t.imageOnly_refl⟩
  · refine ⟨_, rfl, Memory.wf_setHalves _ _ _, fun x hx =>
      Memory.read_setHalves_other _ _ fun k hk => hx r hr _ ?_⟩
    unfold ceilDiv at hn; omega

/-! What the accesses give where the image is large enough. -/

theorem State.loadWords_of_cap {s : State} {r : ImgRef} (hr : s.imgRef = some r) {a n : Nat} (h : a + n ≤ r.cap.val) :
    s.loadWords a n = .ok ((List.range n).map fun k => Memory.word s.mem r.handle (a + k)) := by
  rw [State.loadWords, State.withImage_of_cap hr h]
  split
  · rename_i hn; subst hn; rfl
  · rfl

theorem State.loadCoils_of_cap {s : State} {r : ImgRef} (hr : s.imgRef = some r) {a n : Nat}
    (h : n ≠ 0 → (a + n - 1) / 16 < r.cap.val) :
    s.loadCoils a n = .ok ((List.range n).map fun k => Memory.coil s.mem r.handle (a + k)) := by
  by_cases hn : n = 0
  · subst hn; simp [State.loadCoils, State.withImage]
  · rw [State.loadCoils, State.withImage_of_cap hr (h hn), if_neg hn]

theorem State.storeWords_of_cap {s : State} {r : ImgRef} (hr : s.imgRef = some r) {a : Nat} {ws : List Word}
    (h : a + ws.length ≤ r.cap.val) :
    s.storeWords a ws = .ok { s with mem := Memory.setWords s.mem r.handle a ws } := by
  rw [State.storeWords, State.withImage_of_cap hr h]
  cases ws <;> simp [Memory.setWords]

theorem State.storeCoils_of_cap {s : State} {r : ImgRef} (hr : s.imgRef = some r) {a : Nat} {bs : List Bool}
    (h : bs ≠ [] → (a + bs.length - 1) / 16 < r.cap.val) :
    s.storeCoils a bs = .ok { s with mem := Memory.setCoils s.mem r.handle a bs } := by
  cases bs with
  | nil => simp [State.storeCoils, State.withImage, Memory.setCoils]
  | cons b bs => rw [State.storeCoils, State.withImage_of_cap hr (h (by simp)), if_neg (by simp)]

theorem State.storeBytes_of_cap {s : State} {r : ImgRef} (hr : s.imgRef = some r) {d : List Byte}
    (h : ceilDiv d.length 2 ≤ r.cap.val) :
    s.storeBytes d = .ok { s with mem := Memory.setHalves s.mem r.handle 0 d } := by
  rw [State.storeBytes, State.withImage_of_cap hr h]
  cases d <;> simp [Memory.setHalves]

theorem State.withImage_too_small {α : Type} {s : State} {r : ImgRef} (hr : s.imgRef = some r) {count need : Nat}
    (hc : count ≠ 0) (h : r.cap.val < need) (nothing : α) (use : Nat → α) :
    s.withImage count need nothing use = .error .imageBound := by
  unfold State.withImage
  simp [hc, hr, h]

theorem State.cap_of_imgRef {s : State} {r : ImgRef} (hr : s.imgRef = some r) : s.cap = r.cap.val := by
  simp [State.cap, hr]

/-! ### Endings -/

theorem State.endTransaction_slave {s : State} (h : s.ownId ≠ 0) : s.endTransaction = s := if_neg h

theorem State.endTransaction_master {s : State} (h : s.ownId = 0) : s.endTransaction = s.toIdle := if_pos h

theorem State.takeException_slave {s : State} (h : s.ownId ≠ 0) (k : ErrKind) :
    s.takeException k 0 = s.afterSlaveFailure k := by
  unfold State.takeException
  rw [State.endTransaction_slave (s := s.emptyBuf) h]
  rfl

theorem State.takeException_master {s : State} (h : s.ownId = 0) (k : ErrKind) (x : Byte) :
    s.takeException k x = s.afterMasterFailure k x := by
  unfold State.takeException
  rw [State.endTransaction_master (s := s.emptyBuf) h]
  rfl

theorem State.complete_master {s : State} (h : s.ownId = 0) (fc : Byte) : s.complete fc = s.afterAnswer fc := by
  unfold State.complete
  rw [State.endTransaction_master (s := s.emptyBuf) h]
  rfl

theorem State.transmit_complete {s : State} (h : s.ownId ≠ 0) (body : List Byte) (fc : Byte) :
    (s.transmit (append body)).complete fc = s.afterResponse fc body := by
  unfold State.complete
  rw [State.endTransaction_slave (s := (s.transmit (append body)).emptyBuf) h]
  rfl

/-- Bit 7 set, the other bits kept (R96): the two ways of writing it agree. -/
theorem exc_byte (b : Byte) : ((1#1 ++ b.setWidth 7 : BitVec (1 + 7)) : Byte) = b ||| 0x80 := by
  revert b; decide

theorem State.refuseRequest_eq {s : State} (h : s.ownId ≠ 0) (rfc : Byte) (e : ExcKind) :
    s.refuseRequest rfc e = s.afterRefusal rfc (errOfExc e) (wireCode e) := by
  unfold State.refuseRequest State.takeException
  rw [State.endTransaction_slave (s := (s.transmit (encodeFrame (.excRsp s.ownId (rfc.setWidth 7) (wireCode e)))).emptyBuf) h]
  unfold State.afterRefusal
  rw [← exc_byte]
  rfl

/-! ### The reading loop -/

theorem rxLoop_fits {cap : Nat} {q buf : List Byte} (h : buf.length + q.length ≤ cap) :
    rxLoop cap q buf = (false, buf ++ q, []) := by
  induction q generalizing buf with
  | nil => simp [rxLoop]
  | cons b q ih =>
    simp only [List.length_cons] at h
    rw [rxLoop, if_neg (by omega), ih (by simp; omega)]
    simp

theorem rxLoop_overflows {cap : Nat} {q buf : List Byte} (hb : buf.length ≤ cap) (h : cap < buf.length + q.length) :
    rxLoop cap q buf = (true, [], q.drop (cap - buf.length + 1)) := by
  induction q generalizing buf with
  | nil => simp at h; omega
  | cons b q ih =>
    simp only [List.length_cons] at h
    by_cases he : buf.length = cap
    · rw [rxLoop, if_pos he]; simp [he]
    · rw [rxLoop, if_neg he, ih (by simp; omega) (by simp; omega)]
      simp [show cap - buf.length = cap - (buf.length + 1) + 1 from by omega]

/-- What one `rx_step` does that reads (R171). -/
theorem State.rxStep_reads {s : State} (hq : s.rxq ≠ []) (hb : s.buf.length ≤ s.cfg.frameCap) :
    s.rxStep = .ok (
      if s.buf.length + s.rxq.length ≤ s.cfg.frameCap then
        (.incomplete, { s with buf := s.buf ++ s.rxq, tLast := some s.now, rxq := [] })
      else (.overflow, { s.emptyBuf with rxq := s.rxq.drop (s.cfg.frameCap - s.buf.length + 1) })) := by
  unfold State.rxStep
  rw [if_neg hq]
  unfold State.rxRead
  by_cases h : s.buf.length + s.rxq.length ≤ s.cfg.frameCap
  · rw [rxLoop_fits h, if_pos h]
  · rw [rxLoop_overflows hb (by omega), if_neg h]

/-- What one `rx_step` does that reads nothing (R174, R175). -/
theorem State.rxStep_silent {s : State} (hq : s.rxq = []) :
    s.rxStep =
      if s.buf = [] then .ok (.incomplete, s)
      else match s.tLast with
        | none => .error .absentRead
        | some t => .ok (if s.cfg.tIdle ≤ s.elapsed t then .complete else .incomplete, s) := by
  unfold State.rxStep State.rxSilence
  rw [if_pos hq]
  by_cases h : s.buf = []
  · simp [h]
  · rw [if_neg h, if_neg h]
    cases s.tLast <;> rfl

theorem State.rxStep_completes {s : State} {t : Time} (h : s.Completes t) : s.rxStep = .ok (.complete, s) := by
  obtain ⟨hq, hb, ht, he⟩ := h
  rw [State.rxStep_silent hq, if_neg hb, ht]
  simp [he]

/-! ### Serving and accepting -/

/-- The four endings of a request at a slave (R253, R255, R256). -/
theorem State.serve_next {s t : State} {id : Byte} {fc : Fc} {a f2 : Word} {bc : Nat}
    {handler : State → Except Fault (Instr × State)} (h : s.serve id fc a f2 bc handler = .next t) :
    s.ownId ≠ 0 ∧
    ((id ≠ s.ownId ∧ t = s.ignore) ∨
     (id = s.ownId ∧ ∃ e, fieldDefect s.cfg.frameCap s.cap fc a f2 bc = some e ∧ t = s.refuseRequest (fcByte fc) e) ∨
     (id = s.ownId ∧ fieldDefect s.cfg.frameCap s.cap fc a f2 bc = none ∧
       ∃ rsp s', handler s = .ok (rsp, s') ∧ t = (s'.transmit (encodeFrame rsp)).complete (fcByte fc))) := by
  unfold State.serve at h
  split at h
  · cases h
  · rename_i h0
    refine ⟨h0, ?_⟩
    split at h
    · rename_i hid; cases h; exact .inl ⟨hid, rfl⟩
    · rename_i hid
      have hid : id = s.ownId := by simpa using hid
      split at h
      · rename_i e he; cases h; exact .inr (.inl ⟨hid, e, he, rfl⟩)
      · rename_i hn
        split at h
        · cases h
        · rename_i rsp s' hh; cases h; exact .inr (.inr ⟨hid, hn, rsp, s', hh, rfl⟩)

theorem State.serve_ok {s s' : State} {fc : Fc} {a f2 : Word} {bc : Nat} {rsp : Instr}
    {handler : State → Except Fault (Instr × State)} (h0 : s.ownId ≠ 0)
    (hd : fieldDefect s.cfg.frameCap s.cap fc a f2 bc = none) (hh : handler s = .ok (rsp, s')) :
    s.serve s.ownId fc a f2 bc handler = .next ((s'.transmit (encodeFrame rsp)).complete (fcByte fc)) := by
  unfold State.serve
  rw [if_neg h0, if_neg (fun h => h rfl), hd]
  simp only [hh]

theorem State.serve_defect {s : State} {fc : Fc} {a f2 : Word} {bc : Nat} {e : ExcKind}
    {handler : State → Except Fault (Instr × State)} (h0 : s.ownId ≠ 0)
    (hd : fieldDefect s.cfg.frameCap s.cap fc a f2 bc = some e) :
    s.serve s.ownId fc a f2 bc handler = .next (s.refuseRequest (fcByte fc) e) := by
  unfold State.serve
  rw [if_neg h0, if_neg (fun h => h rfl), hd]

theorem State.accept_next {s t : State} {fc : Fc} {decoder : State → Except Fault State}
    (h : s.accept fc decoder = .next t) :
    s.ownId = 0 ∧ s.phase = .waiting ∧ ∃ s', decoder s = .ok s' ∧ t = s'.complete (fcByte fc) := by
  unfold State.accept at h
  split at h
  · rename_i hw
    split at h
    · cases h
    · rename_i s' hs; cases h; exact ⟨hw.1, hw.2, s', hs, rfl⟩
  · cases h

/-- A request in order has a quantity in order and its highest word below the capacity (R194, R196). -/
theorem fieldDefect_none {frameCap cap : Nat} {fc : Fc} {a f2 : Word} {bc : Nat} :
    fieldDefect frameCap cap fc a f2 bc = none ↔
      quantityOk frameCap fc f2.toNat bc = true ∧ topIndex fc a.toNat f2.toNat < cap := by
  unfold fieldDefect
  by_cases hq : quantityOk frameCap fc f2.toNat bc = true
  · by_cases ht : cap ≤ topIndex fc a.toNat f2.toNat
    · simp [hq, ht]
    · simp [hq, ht]; omega
  · simp [hq]

theorem fieldDefect_kind {frameCap cap : Nat} {fc : Fc} {a f2 : Word} {bc : Nat} {e : ExcKind}
    (h : fieldDefect frameCap cap fc a f2 bc = some e) : e = .illegalQuantity ∨ e = .illegalAddressRange := by
  unfold fieldDefect at h
  split at h
  · split at h
    · cases h; exact .inr rfl
    · cases h
  · cases h; exact .inl rfl

end Sys2Proof.Machine
end

