-- ==== Sys2Proof/Laws/PerInstr.lean ====
section
/-! SUPPORT. Statements about every instruction as syntax, one lemma for each constructor. The family `RowMatches`: the
opcode table's row of an instruction admits the instruction's code (R105, R115). -/

namespace Sys2Proof.Machine

/-- The masks of the table act on bytes of their own. -/
theorem and_bytes {a b c d : Nat} (hb : b < 256) (hd : d < 256) :
    (a * 256 + b) &&& (c * 256 + d) = (a &&& c) * 256 + (b &&& d) := by
  have hbd : b &&& d < 2 ^ 8 := Nat.lt_of_le_of_lt Nat.and_le_left hb
  have e (x y : Nat) : x * 256 + y = 2 ^ 8 * x + y := by omega
  rw [e, e, e]
  apply Nat.eq_of_testBit_eq
  intro j
  rw [Nat.testBit_and, Nat.testBit_two_pow_mul_add _ (show b < 2 ^ 8 from hb),
    Nat.testBit_two_pow_mul_add _ (show d < 2 ^ 8 from hd), Nat.testBit_two_pow_mul_add _ hbd]
  split <;> simp

/-- The key of a finished frame (R105). -/
theorem tableKey_frame (d : Dir) (id fc : Byte) (rest : List Byte) :
    tableKey (.frame d (append (id :: fc :: rest))) =
      some (false, (match d with | .request => 0 | .response => 1) * 65536 + id.toNat * 256 + fc.toNat) := rfl

theorem and_idMask (x : Byte) : x.toNat &&& 256 = 0 ∧ (256 + x.toNat) &&& 256 = 256 := by
  revert x; decide

theorem and_fcMask (x : Byte) : x.toNat &&& 255 = x.toNat := by
  revert x; decide

/-- A request's key under the mask of the normal frames is its function code. -/
theorem requestKey (id fc : Byte) : (0 * 65536 + id.toNat * 256 + fc.toNat) &&& 0x100FF = fc.toNat := by
  have := and_bytes (a := id.toNat) (c := 256) (d := 255) fc.isLt (by decide)
  rw [and_fcMask, (and_idMask id).1] at this
  simpa using this

/-- A response's key under that mask is its function code and the direction bit. -/
theorem responseKey (id fc : Byte) : (1 * 65536 + id.toNat * 256 + fc.toNat) &&& 0x100FF = 0x10000 + fc.toNat := by
  have := and_bytes (a := 256 + id.toNat) (c := 256) (d := 255) fc.isLt (by decide)
  rw [and_fcMask, (and_idMask id).2] at this
  rw [show 1 * 65536 + id.toNat * 256 + fc.toNat = (256 + id.toNat) * 256 + fc.toNat from by omega]
  simpa using this

theorem exceptionKey (id : Byte) (fn : BitVec 7) :
    (1 * 65536 + id.toNat * 256 + ((1#1 ++ fn : BitVec (1 + 7)) : Byte).toNat) &&& 0x10080 = 0x10080 := by
  have h := responseKey id (1#1 ++ fn)
  rw [show (0x10080 : Nat) = 0x100FF &&& 0x10080 from by decide, ← Nat.and_assoc, h]
  clear h; revert fn; decide

end Sys2Proof.Machine

namespace Sys2Proof.Laws.RowMatches

open Sys2Proof.Machine

/-- The row of `i` in the opcode table admits the code of `i`. -/
def Statement (i : Instr) : Prop := (opcodeTable[i.rowIndex]?).any (fun r => r.admits (encode i)) = true

theorem ofRequest (id fc : Byte) (rest : List Byte) (k : Nat)
    (hr : opcodeTable[k]? = some ⟨false, fc.toNat, 0x100FF⟩) :
    (opcodeTable[k]?).any (fun r => r.admits (.frame .request (append (id :: fc :: rest)))) = true := by
  rw [hr]
  simp only [Option.any_some, Row.admits, tableKey_frame]
  have := requestKey id fc
  simp at this ⊢
  exact this

theorem ofResponse (id fc : Byte) (rest : List Byte) (k : Nat)
    (hr : opcodeTable[k]? = some ⟨false, 0x10000 + fc.toNat, 0x100FF⟩) :
    (opcodeTable[k]?).any (fun r => r.admits (.frame .response (append (id :: fc :: rest)))) = true := by
  rw [hr]
  simp only [Option.any_some, Row.admits, tableKey_frame]
  have := responseKey id fc
  simp at this ⊢
  exact this

theorem rdCoilsReq (id : Byte) (a q : Word) : Statement (.rdCoilsReq id a q) := ofRequest id 0x01 _ 0 rfl
theorem rdDiscReq (id : Byte) (a q : Word) : Statement (.rdDiscReq id a q) := ofRequest id 0x02 _ 1 rfl
theorem rdHoldReq (id : Byte) (a q : Word) : Statement (.rdHoldReq id a q) := ofRequest id 0x03 _ 2 rfl
theorem rdInputReq (id : Byte) (a q : Word) : Statement (.rdInputReq id a q) := ofRequest id 0x04 _ 3 rfl
theorem wrCoilReq (id : Byte) (a v : Word) : Statement (.wrCoilReq id a v) := ofRequest id 0x05 _ 4 rfl
theorem wrRegReq (id : Byte) (a v : Word) : Statement (.wrRegReq id a v) := ofRequest id 0x06 _ 5 rfl
theorem wrCoilsReq (id : Byte) (a q : Word) (d : List Byte) : Statement (.wrCoilsReq id a q d) :=
  ofRequest id 0x0F _ 6 rfl
theorem wrRegsReq (id : Byte) (a q : Word) (d : List Byte) : Statement (.wrRegsReq id a q d) :=
  ofRequest id 0x10 _ 7 rfl
theorem rdCoilsRsp (id : Byte) (d : List Byte) : Statement (.rdCoilsRsp id d) := ofResponse id 0x01 _ 8 rfl
theorem rdDiscRsp (id : Byte) (d : List Byte) : Statement (.rdDiscRsp id d) := ofResponse id 0x02 _ 9 rfl
theorem rdHoldRsp (id : Byte) (d : List Byte) : Statement (.rdHoldRsp id d) := ofResponse id 0x03 _ 10 rfl
theorem rdInputRsp (id : Byte) (d : List Byte) : Statement (.rdInputRsp id d) := ofResponse id 0x04 _ 11 rfl
theorem wrCoilRsp (id : Byte) (a v : Word) : Statement (.wrCoilRsp id a v) := ofResponse id 0x05 _ 12 rfl
theorem wrRegRsp (id : Byte) (a v : Word) : Statement (.wrRegRsp id a v) := ofResponse id 0x06 _ 13 rfl
theorem wrCoilsRsp (id : Byte) (a q : Word) : Statement (.wrCoilsRsp id a q) := ofResponse id 0x0F _ 14 rfl
theorem wrRegsRsp (id : Byte) (a q : Word) : Statement (.wrRegsRsp id a q) := ofResponse id 0x10 _ 15 rfl

theorem excRsp (id : Byte) (fn : BitVec 7) (code : Byte) : Statement (.excRsp id fn code) := by
  have h := exceptionKey id fn
  simp only [Statement, encode, encodeFrame, encodeBody, bodyExc, Instr.rowIndex]
  rw [show opcodeTable[16]? = some ⟨false, 0x10080, 0x10080⟩ from rfl]
  simp only [Option.any_some, Row.admits, tableKey_frame]
  simp only [beq_self_eq_true, Bool.true_and, beq_iff_eq]
  exact h

theorem start : Statement .start := rfl
theorem setTmo (ms : Word) : Statement (.setTmo ms) := by
  simp [Statement, encode, Row.admits, tableKey, opcodeTable, Instr.rowIndex]
theorem setId (id : Byte) : Statement (.setId id) := by
  simp [Statement, encode, Row.admits, tableKey, opcodeTable, Instr.rowIndex]
theorem query (t : Telegram) : Statement (.query t) := by
  simp [Statement, encode, telegramCommand, Row.admits, tableKey, opcodeTable, Instr.rowIndex]
theorem poll : Statement .poll := rfl
theorem pollr (r : ImgRef) : Statement (.pollr r) := by
  simp [Statement, encode, Row.admits, tableKey, opcodeTable, Instr.rowIndex]
theorem getState : Statement .getState := rfl
theorem getErr : Statement .getErr := rfl
theorem getIn : Statement .getIn := rfl
theorem getOut : Statement .getOut := rfl
theorem getErrCnt : Statement .getErrCnt := rfl

end Sys2Proof.Laws.RowMatches
end

