-- ==== Sys2Proof/Laws/Runs.lean ====
section
/-! SUPPORT. What an operation can end in, said once: the endings of a frame, of a poll, of every instruction and of a
step. The rules about the whole machine follow from these by cases. -/

namespace Sys2Proof.Machine

/-- The endings of a frame at `u`, the state whose buffer has been taken. -/
inductive FrameEnd (u : State) : State → Prop where
  /-- R253. -/
  | ignored (slave : u.ownId ≠ 0) : FrameEnd u u.ignore
  /-- R254. -/
  | dropped (slave : u.ownId ≠ 0) : FrameEnd u (u.takeException .noReply 0)
  /-- R255. -/
  | refused (slave : u.ownId ≠ 0) (rfc : Byte) (e : ExcKind) (he : e ≠ .executionFailure) :
      FrameEnd u (u.refuseRequest rfc e)
  /-- R256. -/
  | served (slave : u.ownId ≠ 0) (m : Memory) (hm : u.ImageOnly m) (body : List Byte) (fc : Byte)
      (hb : 2 ≤ body.length) (hf : 9 ≤ u.cfg.frameCap → body.length + 2 ≤ u.cfg.frameCap)
      (hw : m = u.mem ∨ fc ∈ [0x05#8, 0x06#8, 0x0F#8, 0x10#8]) (hid : byteAt body 0 = u.ownId) :
      FrameEnd u ((State.transmit { u with mem := m } (append body)).complete fc)
  /-- R239, R240. -/
  | failed (master : u.ownId = 0) (waiting : u.phase = .waiting) (k : ErrKind) (x : Byte)
      (hk : k = .noReply ∧ x = 0 ∨ k = .illegalFunction ∧ x = 0 ∨ k = .remoteException) :
      FrameEnd u (u.takeException k x)
  /-- R241. -/
  | accepted (master : u.ownId = 0) (waiting : u.phase = .waiting) (m : Memory) (hm : u.ImageOnly m) (fc : Byte)
      (hr : m = u.mem ∨ fc ∈ [0x01#8, 0x02#8, 0x03#8, 0x04#8]) : FrameEnd u (State.complete { u with mem := m } fc)

/-- The endings of a poll at `s`. -/
inductive PollEnd (s : State) : State → Prop where
  /-- R235. -/
  | idle (master : s.ownId = 0) (idle : s.phase = .idle) : PollEnd s (s.answer pollNone)
  /-- R236, R242. -/
  | timedOut (master : s.ownId = 0) (waiting : s.phase = .waiting) : PollEnd s (s.takeException .noReply 0)
  /-- R174, R175: nothing was read, and nothing completed. -/
  | silent (active : s.ownId ≠ 0 ∨ s.phase = .waiting) : PollEnd s (s.answer pollNone)
  /-- R171, R173. -/
  | read (active : s.ownId ≠ 0 ∨ s.phase = .waiting) (hq : s.rxq ≠ [])
      (hb : s.buf.length + s.rxq.length ≤ s.cfg.frameCap) :
      PollEnd s (State.answer { s with buf := s.buf ++ s.rxq, tLast := some s.now, rxq := [] } pollNone)
  /-- R176, R238, R251. -/
  | overflow (active : s.ownId ≠ 0 ∨ s.phase = .waiting) (q : List Byte) :
      PollEnd s (State.takeException { s.emptyBuf with rxq := q } .bufferOverflow 0)
  /-- R237, R252. -/
  | frame (t : State) (hb : s.buf ≠ []) (hq : s.rxq = []) (h : FrameEnd s.consume t) : PollEnd s t

/-- The endings of a host operation at `s`. -/
inductive OpEnd (s : State) : Instr → State → Prop where
  | poll (t : State) (h : PollEnd s t) : OpEnd s .poll t
  | pollr (r : ImgRef) (t : State) (h : PollEnd { s with imgRef := some r } t) : OpEnd s (.pollr r) t
  | gotState : OpEnd s .getState (s.answer (.state (phaseCode s.phase)))
  | gotErr : OpEnd s .getErr (s.answer (.word (errWord s.lastExc s.lastError)))
  | gotIn : OpEnd s .getIn (s.answer (.word s.inCnt))
  | gotOut : OpEnd s .getOut (s.answer (.word s.outCnt))
  | gotErrCnt : OpEnd s .getErrCnt (s.answer (.word s.errCnt))
  | started : OpEnd s .start { s.emptyBuf.toIdle with
      lastError := .none, lastExc := 0, inCnt := 0, outCnt := 0, errCnt := 0, result := .unit }
  | timeoutSet (ms : Word) : OpEnd s (.setTmo ms) { s with timeout := ms, result := .unit }
  | idRejected (id : Byte) (h : id = 0 ∨ 247 < id.toNat) : OpEnd s (.setId id) (s.answer (.setId .rejected))
  | idSet (id : Byte) (h0 : id ≠ 0) (h1 : id.toNat ≤ 247) :
      OpEnd s (.setId id) { s.emptyBuf.toIdle with ownId := id, result := .setId .accepted }
  | queryRefused (tel : Telegram) (r : QueryResult) (hr : r ≠ .ok) : OpEnd s (.query tel) (s.answer (.query r))
  | queried (tel : Telegram) (master : s.ownId = 0) (idle : s.phase = .idle) (body : List Byte)
      (hb : 2 ≤ body.length) (hf : body.length + 2 ≤ s.cfg.frameCap) :
      OpEnd s (.query tel) { State.transmit { s with imgRef := some tel.img } (append body) with
        phase := .waiting, tSend := some s.now, result := .query .ok }

/-! ### Frames -/

theorem quantityOk_coils {cap q bc : Nat} {fc : Fc} (hfc : fc = .rdCoils ∨ fc = .rdDisc)
    (h : quantityOk cap fc q bc = true) : 1 ≤ q ∧ ceilDiv q 8 ≤ 255 ∧ 3 + ceilDiv q 8 + 2 ≤ cap := by
  rcases hfc with rfl | rfl <;>
    (simp only [quantityOk, Bool.and_eq_true, decide_eq_true_eq] at h; unfold dmax at h; unfold ceilDiv; omega)

theorem quantityOk_words {cap q bc : Nat} {fc : Fc} (hfc : fc = .rdHold ∨ fc = .rdInput)
    (h : quantityOk cap fc q bc = true) : 1 ≤ q ∧ 2 * q ≤ 255 ∧ 3 + 2 * q + 2 ≤ cap := by
  rcases hfc with rfl | rfl <;>
    (simp only [quantityOk, Bool.and_eq_true, decide_eq_true_eq] at h; unfold dmax at h; omega)

/-- A served request is an ending of its frame, given what its handler gives back. -/
theorem FrameEnd.of_serve {s t : State} {id : Byte} {fc : Fc} {a f2 : Word} {bc : Nat}
    {handler : State → Except Fault (Instr × State)} (h : s.serve id fc a f2 bc handler = .next t)
    (hh : ∀ rsp s', fieldDefect s.cfg.frameCap s.cap fc a f2 bc = none → handler s = .ok (rsp, s') →
      ∃ m, s' = { s with mem := m } ∧ s.ImageOnly m ∧ 2 ≤ (encodeBody rsp).length ∧
        (9 ≤ s.cfg.frameCap → (encodeBody rsp).length + 2 ≤ s.cfg.frameCap) ∧
        (m = s.mem ∨ fcByte fc ∈ [0x05#8, 0x06#8, 0x0F#8, 0x10#8]) ∧ byteAt (encodeBody rsp) 0 = s.ownId) :
    FrameEnd s t := by
  obtain ⟨h0, ⟨-, rfl⟩ | ⟨-, e, he, rfl⟩ | ⟨-, hd, rsp, s', hr, rfl⟩⟩ := State.serve_next h
  · exact .ignored h0
  · refine .refused h0 _ e ?_
    rcases fieldDefect_kind he with rfl | rfl <;> decide
  · obtain ⟨m, rfl, hm, hl, hf, hw, hid⟩ := hh rsp s' hd hr
    exact .served h0 m hm _ _ hl hf hw hid

theorem FrameEnd.of_accept {s t : State} {fc : Fc} {decoder : State → Except Fault State}
    (h : s.accept fc decoder = .next t)
    (hh : ∀ s', decoder s = .ok s' → ∃ m, s' = { s with mem := m } ∧ s.ImageOnly m ∧
      (m = s.mem ∨ fcByte fc ∈ [0x01#8, 0x02#8, 0x03#8, 0x04#8])) : FrameEnd s t := by
  obtain ⟨h0, hw, s', hs, rfl⟩ := State.accept_next h
  obtain ⟨m, rfl, hm, hr⟩ := hh s' hs
  exact .accepted h0 hw m hm _ hr

theorem State.loadCoils_length {s : State} {a n : Nat} {bits : List Bool} (h : s.loadCoils a n = .ok bits) :
    bits.length = n := by
  unfold State.loadCoils State.withImage at h
  split at h
  · cases h; simp [*]
  · split at h
    · cases h
    · split at h
      · cases h; simp
      · cases h

theorem State.loadWords_length {s : State} {a n : Nat} {ws : List Word} (h : s.loadWords a n = .ok ws) :
    ws.length = n := by
  unfold State.loadWords State.withImage at h
  split at h
  · cases h; simp [*]
  · split at h
    · cases h
    · split at h
      · cases h; simp
      · cases h

/-- Every instruction that is a frame ends as a frame. -/
theorem dispatchFrame_ends {i : Instr} {s t : State} (h : dispatchFrame i s = .next t) : FrameEnd s t := by
  cases i <;> simp only [dispatchFrame] at h
  case rdCoilsReq id a q =>
    refine .of_serve h fun rsp s' hd hr => ?_
    have hq := quantityOk_coils (.inl rfl) (fieldDefect_none.1 hd).1
    unfold State.readCoils at hr
    split at hr
    · cases hr
    · rename_i bits hb
      cases hr
      have := State.loadCoils_length hb
      exact ⟨_, rfl, s.imageOnly_refl, by simp [encodeBody]; omega, fun _ => by simp [encodeBody, this]; omega,
        .inl rfl, rfl⟩
  case rdDiscReq id a q =>
    refine .of_serve h fun rsp s' hd hr => ?_
    have hq := quantityOk_coils (.inr rfl) (fieldDefect_none.1 hd).1
    unfold State.readCoils at hr
    split at hr
    · cases hr
    · rename_i bits hb
      cases hr
      have := State.loadCoils_length hb
      exact ⟨_, rfl, s.imageOnly_refl, by simp [encodeBody]; omega, fun _ => by simp [encodeBody, this]; omega,
        .inl rfl, rfl⟩
  case rdHoldReq id a q =>
    refine .of_serve h fun rsp s' hd hr => ?_
    have hq := quantityOk_words (.inl rfl) (fieldDefect_none.1 hd).1
    unfold State.readWords at hr
    split at hr
    · cases hr
    · rename_i bits hb
      cases hr
      have := State.loadWords_length hb
      exact ⟨_, rfl, s.imageOnly_refl, by simp [encodeBody]; omega, fun _ => by simp [encodeBody, this]; omega,
        .inl rfl, rfl⟩
  case rdInputReq id a q =>
    refine .of_serve h fun rsp s' hd hr => ?_
    have hq := quantityOk_words (.inr rfl) (fieldDefect_none.1 hd).1
    unfold State.readWords at hr
    split at hr
    · cases hr
    · rename_i bits hb
      cases hr
      have := State.loadWords_length hb
      exact ⟨_, rfl, s.imageOnly_refl, by simp [encodeBody]; omega, fun _ => by simp [encodeBody, this]; omega,
        .inl rfl, rfl⟩
  case wrCoilReq id a v =>
    refine .of_serve h fun rsp s' hd hr => ?_
    unfold State.writeCoil at hr
    split at hr
    · cases hr
    · rename_i u hu
      cases hr
      obtain ⟨m, rfl, hm⟩ := State.storeCoils_ok hu
      exact ⟨m, rfl, hm, by simp [encodeBody], fun h => by simp [encodeBody]; omega,
        .inr (by decide), rfl⟩
  case wrRegReq id a v =>
    refine .of_serve h fun rsp s' hd hr => ?_
    unfold State.writeReg at hr
    split at hr
    · cases hr
    · rename_i u hu
      cases hr
      obtain ⟨m, rfl, hm⟩ := State.storeWords_ok hu
      exact ⟨m, rfl, hm, by simp [encodeBody], fun h => by simp [encodeBody]; omega,
        .inr (by decide), rfl⟩
  case wrCoilsReq id a q d =>
    refine .of_serve h fun rsp s' hd hr => ?_
    unfold State.writeCoils at hr
    split at hr
    · cases hr
    · rename_i u hu
      cases hr
      obtain ⟨m, rfl, hm⟩ := State.storeCoils_ok hu
      exact ⟨m, rfl, hm, by simp [encodeBody], fun h => by simp [encodeBody]; omega,
        .inr (by decide), rfl⟩
  case wrRegsReq id a q d =>
    refine .of_serve h fun rsp s' hd hr => ?_
    unfold State.writeRegs at hr
    split at hr
    · cases hr
    · rename_i u hu
      cases hr
      obtain ⟨m, rfl, hm⟩ := State.storeWords_ok hu
      exact ⟨m, rfl, hm, by simp [encodeBody], fun h => by simp [encodeBody]; omega,
        .inr (by decide), rfl⟩
  case rdCoilsRsp id d =>
    refine .of_accept h fun _ hs => ?_
    obtain ⟨m, h, hm⟩ := State.storeBytes_ok hs; exact ⟨m, h, hm, .inr (by decide)⟩
  case rdDiscRsp id d =>
    refine .of_accept h fun _ hs => ?_
    obtain ⟨m, h, hm⟩ := State.storeBytes_ok hs; exact ⟨m, h, hm, .inr (by decide)⟩
  case rdHoldRsp id d =>
    refine .of_accept h fun _ hs => ?_
    obtain ⟨m, h, hm⟩ := State.storeWords_ok hs; exact ⟨m, h, hm, .inr (by decide)⟩
  case rdInputRsp id d =>
    refine .of_accept h fun _ hs => ?_
    obtain ⟨m, h, hm⟩ := State.storeWords_ok hs; exact ⟨m, h, hm, .inr (by decide)⟩
  case wrCoilRsp =>
    refine .of_accept h fun _ hs => ?_
    cases hs; exact ⟨_, rfl, s.imageOnly_refl, .inl rfl⟩
  case wrRegRsp =>
    refine .of_accept h fun _ hs => ?_
    cases hs; exact ⟨_, rfl, s.imageOnly_refl, .inl rfl⟩
  case wrCoilsRsp =>
    refine .of_accept h fun _ hs => ?_
    cases hs; exact ⟨_, rfl, s.imageOnly_refl, .inl rfl⟩
  case wrRegsRsp =>
    refine .of_accept h fun _ hs => ?_
    cases hs; exact ⟨_, rfl, s.imageOnly_refl, .inl rfl⟩
  case excRsp id fn code =>
    unfold execExcRsp at h
    split at h
    · rename_i hw; cases h; exact .failed hw.1 hw.2 _ _ (.inr (.inr rfl))
    · cases h
  all_goals cases h

/-- A request is served as the rules of the slave say, by a handler of its own. -/
theorem dispatchFrame_request {i : Instr} {id : Byte} {fc : Fc} {a f2 : Word} {bc : Nat}
    (h : i.requestFields = some (id, fc, a, f2, bc)) :
    ∃ handler, ∀ s, dispatchFrame i s = s.serve id fc a f2 bc handler ∧ exec i s = s.serve id fc a f2 bc handler := by
  cases i <;> simp only [Instr.requestFields, Option.some.injEq, Prod.mk.injEq, reduceCtorEq] at h
  all_goals
    obtain ⟨rfl, rfl, rfl, rfl, rfl⟩ := h
    exact ⟨_, fun s => ⟨rfl, rfl⟩⟩

/-- A frame that decodes as a request. -/
theorem decodeRequest_ok {f : List Byte} {i : Instr} :
    decodeRequest f = .ok i ↔ ∃ fc, verify f = true ∧ fcOf (byteAt f 1) = some fc ∧ wellFormedRequest fc f = true ∧
      requestFrom fc f (byteAt f 0) (wordAt f 2) (wordAt f 4) = .ok i := by
  unfold decodeRequest
  by_cases hv : verify f = true
  · have h4 := ((verify_iff f).1 hv).1
    rw [if_pos hv, memRead1_of_lt (by omega)]
    cases hfc : fcOf (byteAt f 1) with
    | none => simp [hfc]
    | some fc =>
      by_cases hw : wellFormedRequest fc f = true
      · simp [hfc, hw, hv, requestOf_eq hw]
      · simp [hfc, hw]
  · simp [hv]

/-- A frame taken as a request decodes to a request, with the fields the validator reads. -/
theorem decodeRequest_fields {f : List Byte} {i : Instr} (h : decodeRequest f = .ok i) :
    ∃ fc bc, verify f = true ∧ fcOf (byteAt f 1) = some fc ∧ wellFormedRequest fc f = true ∧
      i.requestFields = some (byteAt f 0, fc, wordAt f 2, wordAt f 4, bc) ∧ requestCount fc f = some bc := by
  obtain ⟨fc, hv, hfc, hw, hi⟩ := decodeRequest_ok.1 h
  obtain ⟨h8, hl⟩ := wellFormedRequest_length hw
  have hd : fc = .wrCoils ∨ fc = .wrRegs → (dataBytes f 7 (byteAt f 6)).length = (byteAt f 6).toNat := by
    intro hc
    have := hl hc
    simp [dataBytes]; omega
  have hm : memRead1 f 6 = some (byteAt f 6) := memRead1_of_lt (by omega)
  cases fc
  case wrCoils | wrRegs =>
    simp only [requestFrom, withRequestData_eq _ (show 6 < f.length by omega)] at hi
    cases hi
    exact ⟨_, _, hv, hfc, hw, rfl, by simp [requestCount, hm, hd]⟩
  all_goals cases hi; exact ⟨_, _, hv, hfc, hw, rfl, rfl⟩

/-! ### No frame is read past its end (R38) -/

theorem requestFrom_ok {fc : Fc} {f : List Byte} (h : 8 ≤ f.length) (id : Byte) (a w : Word) :
    ∃ i, requestFrom fc f id a w = .ok i := by
  cases fc
  case wrCoils | wrRegs => exact ⟨_, withRequestData_eq _ (by omega)⟩
  all_goals exact ⟨_, rfl⟩

theorem responseOf_ok {fc : Fc} {f : List Byte} (h : wellFormedResponse fc f = true) :
    ∃ i, responseOf fc f = .ok i := by
  obtain ⟨h5, -, h8⟩ := wellFormedResponse_length h
  simp only [responseOf, memRead1_of_lt (show 0 < f.length by omega)]
  cases fc
  case rdCoils | rdDisc | rdHold | rdInput => exact ⟨_, withResponseData_eq _ (by omega)⟩
  all_goals exact ⟨_, withTwoWords_eq _ (by have := h8 (by simp); omega)⟩

/-- The validator reads only bytes the frame has, and accepts only frames that decode as requests. -/
theorem validateRequest_cases (cap n : Nat) (f : List Byte) :
    (∃ v, validateRequest cap n f = .ok v ∧ v ≠ .ok ∧ (∀ e, v = .illegal e → e ≠ .executionFailure ∧ 1 < f.length)) ∨
    (validateRequest cap n f = .ok .ok ∧ ∃ i, decodeFrame .request f = .ok i) := by
  unfold validateRequest
  by_cases hv : verify f = true
  · have h4 := ((verify_iff f).1 hv).1
    rw [if_pos hv, memRead1_of_lt (by omega)]
    cases hfc : fcOf (byteAt f 1) with
    | none =>
      refine .inl ⟨.illegal .illegalFunction, by simp only [hfc], by decide, fun e he => ?_⟩
      cases he; exact ⟨by decide, by omega⟩
    | some fc =>
      by_cases hw : wellFormedRequest fc f = true
      · obtain ⟨h8, hl⟩ := wellFormedRequest_length hw
        have hc : ∃ bc, requestCount fc f = some bc := by
          cases fc <;> simp [requestCount, memRead1_of_lt (show 6 < f.length by omega)]
        obtain ⟨bc, hc⟩ := hc
        simp only [hfc, hw, if_true, validateFields, memRead2_of_lt (show 2 + 1 < f.length by omega),
          memRead2_of_lt (show 4 + 1 < f.length by omega), hc]
        cases hd : fieldDefect cap n fc (wordAt f 2) (wordAt f 4) bc with
        | some e =>
          refine .inl ⟨_, rfl, by simp, fun e' he => ?_⟩
          cases he
          exact ⟨by rcases fieldDefect_kind hd with rfl | rfl <;> decide, by omega⟩
        | none =>
          obtain ⟨i, hi⟩ := requestFrom_ok (fc := fc) h8 (byteAt f 0) (wordAt f 2) (wordAt f 4)
          exact .inr ⟨rfl, i, decodeRequest_ok.2 ⟨fc, hv, hfc, hw, hi⟩⟩
      · exact .inl ⟨.noReply, by simp only [hfc, if_neg hw], by decide, fun e he => by cases he⟩
  · exact .inl ⟨_, if_neg hv, by decide, fun e he => by cases he⟩

/-- The same of an answer. -/
theorem validateAnswer_cases (f : List Byte) :
    validateAnswer f = .ok .noReply ∨ validateAnswer f = .ok .illegalFunction ∨
    ((validateAnswer f = .ok .ok ∨ ∃ c, validateAnswer f = .ok (.remoteException c)) ∧
      ∃ i, decodeFrame .response f = .ok i) := by
  unfold validateAnswer decodeFrame decodeResponse
  by_cases hv : verify f = true
  · have h4 := ((verify_iff f).1 hv).1
    simp only [if_pos hv, memRead1_of_lt (show 1 < f.length by omega)]
    by_cases hb : (byteAt f 1).getLsbD 7 = true
    · simp only [if_pos hb]
      by_cases hl : f.length = 5
      · refine .inr (.inr ⟨.inr ⟨byteAt f 2, ?_⟩, ?_⟩)
        · simp only [if_pos hl, validateException, memRead1_of_lt (show 2 < f.length by omega)]
        · simp only [if_pos hl, exceptionOf_eq hl]; exact ⟨_, rfl⟩
      · exact .inl (if_neg hl)
    · simp only [if_neg hb]
      cases hfc : fcOf (byteAt f 1) with
      | none => exact .inr (.inl rfl)
      | some fc =>
        by_cases hw : wellFormedResponse fc f = true
        · refine .inr (.inr ⟨.inl (by simp only [if_pos hw]), ?_⟩)
          simp only [if_pos hw]
          exact responseOf_ok hw
        · exact .inl (by simp only [if_neg hw])
  · exact .inl (if_neg hv)

theorem runFrame_of_ok {d : Dir} {f : List Byte} {i : Instr} (h : decodeFrame d f = .ok i) (s : State) :
    runFrame d f s = dispatchFrame i s := by
  simp only [runFrame, h]

/-- The verdict on a frame that decodes as a request is that on its fields (R193 to R197). -/
theorem validateRequest_of_decodes {cap n : Nat} {f : List Byte} {i : Instr} {id : Byte} {fc : Fc} {a w : Word}
    {bc : Nat} (hd : decodeRequest f = .ok i) (hf : i.requestFields = some (id, fc, a, w, bc)) :
    validateRequest cap n f = .ok (match fieldDefect cap n fc a w bc with | some e => .illegal e | none => .ok) ∧
      memRead1 f 0 = some id ∧ memRead1 f 1 = some (fcByte fc) := by
  obtain ⟨fc', bc', hv, hfc, hw, hf', hc⟩ := decodeRequest_fields hd
  obtain ⟨rfl, rfl, rfl, rfl, rfl⟩ : id = byteAt f 0 ∧ fc = fc' ∧ a = wordAt f 2 ∧ w = wordAt f 4 ∧ bc = bc' := by
    rw [hf'] at hf; simpa [eq_comm] using hf
  have h8 := (wellFormedRequest_length hw).1
  have h1 := memRead1_of_lt (show 1 < f.length by omega)
  refine ⟨?_, memRead1_of_lt (by omega), by rw [h1, fcByte_of_fcOf hfc]⟩
  simp only [validateRequest, hv, if_true, h1, hfc, hw, validateFields, hc,
    memRead2_of_lt (show 2 + 1 < f.length by omega), memRead2_of_lt (show 4 + 1 < f.length by omega)]
  cases fieldDefect cap n fc (wordAt f 2) (wordAt f 4) bc <;> rfl

/-- A slave that has received a request runs it (R252, R205). -/
theorem State.slaveFrame_runs {s : State} {i : Instr} (h0 : s.ownId ≠ 0) (hd : decodeRequest s.buf = .ok i) :
    s.slaveFrame = exec i s.consume := by
  obtain ⟨fc, bc, -, -, -, hf, -⟩ := decodeRequest_fields hd
  obtain ⟨handler, hh⟩ := dispatchFrame_request hf
  obtain ⟨hv, hid, hfc⟩ := validateRequest_of_decodes (cap := s.consume.cfg.frameCap) (n := s.consume.cap) hd hf
  have h0' : s.consume.ownId ≠ 0 := h0
  simp only [State.slaveFrame, withByte, hid, hfc, hv]
  by_cases he : byteAt s.buf 0 = s.consume.ownId
  · rw [if_neg (fun h => h he), (hh _).2, he]
    cases hx : fieldDefect s.consume.cfg.frameCap s.consume.cap fc (wordAt s.buf 2) (wordAt s.buf 4) bc with
    | none => simp only [runFrame_of_ok (d := .request) hd, (hh _).1, he]
    | some e => simp only [State.serve_defect h0' hx]
  · rw [if_pos he, (hh _).2]
    unfold State.serve
    rw [if_neg h0', if_pos he]

theorem runFrame_ends {d : Dir} {f : List Byte} {s t : State} (h : runFrame d f s = .next t) : FrameEnd s t := by
  unfold runFrame at h
  split at h
  · cases h
  all_goals first | cases h | exact dispatchFrame_ends h

theorem State.slaveFrame_ends {s t : State} (h0 : s.ownId ≠ 0) (h : s.slaveFrame = .next t) :
    FrameEnd s.consume t := by
  have h0' : s.consume.ownId ≠ 0 := h0
  unfold State.slaveFrame withByte at h
  simp only at h
  split at h
  · cases h
  · split at h
    · cases h; exact .ignored h0'
    · rcases validateRequest_cases s.consume.cfg.frameCap s.consume.cap s.buf with ⟨v, hv, hk, he⟩ | ⟨hv, -⟩
      · rw [hv] at h
        cases v with
        | ok => exact absurd rfl hk
        | noReply => cases h; exact .dropped h0'
        | illegal e =>
          obtain ⟨hne, hl⟩ := he e rfl
          simp only [memRead1_of_lt hl] at h
          cases h; exact .refused h0' _ e hne
      · rw [hv] at h; exact runFrame_ends h

theorem State.masterFrame_ends {s t : State} (h0 : s.ownId = 0) (hw : s.phase = .waiting)
    (h : s.masterFrame = .next t) : FrameEnd s.consume t := by
  have h0' : s.consume.ownId = 0 := h0
  have hw' : s.consume.phase = .waiting := hw
  unfold State.masterFrame at h
  simp only at h
  split at h
  · cases h
  · cases h; exact .failed h0' hw' _ _ (.inl ⟨rfl, rfl⟩)
  · cases h; exact .failed h0' hw' _ _ (.inr (.inl ⟨rfl, rfl⟩))
  · exact runFrame_ends h
  · exact runFrame_ends h

/-! ### Polls -/

theorem State.receive_ends {s t : State} {frame : State → Host.Outcome State Fault Refusal}
    (ha : s.ownId ≠ 0 ∨ s.phase = .waiting) (hb : s.buf.length ≤ s.cfg.frameCap)
    (hf : ∀ t, frame s = .next t → FrameEnd s.consume t) (h : s.receive frame = .next t) : PollEnd s t := by
  unfold State.receive at h
  by_cases hq : s.rxq = []
  · rw [State.rxStep_silent hq] at h
    by_cases hbuf : s.buf = []
    · rw [if_pos hbuf] at h; cases h; exact .silent ha
    · rw [if_neg hbuf] at h
      cases ht : s.tLast with
      | none => rw [ht] at h; cases h
      | some u =>
        rw [ht] at h
        by_cases he : s.cfg.tIdle ≤ s.elapsed u
        · simp only [if_pos he] at h; exact .frame t hbuf hq (hf t h)
        · simp only [if_neg he] at h; cases h; exact .silent ha
  · rw [State.rxStep_reads hq hb] at h
    by_cases hl : s.buf.length + s.rxq.length ≤ s.cfg.frameCap
    · simp only [if_pos hl] at h; cases h; exact .read ha hq hl
    · simp only [if_neg hl] at h; cases h; exact .overflow ha _

theorem State.pollBody_ends {s t : State} (hb : s.buf.length ≤ s.cfg.frameCap) (h : s.pollBody = .next t) :
    PollEnd s t := by
  unfold State.pollBody at h
  by_cases h0 : s.ownId = 0
  · rw [if_pos h0] at h
    cases hp : s.phase with
    | idle => rw [hp] at h; cases h; exact .idle h0 hp
    | waiting =>
      rw [hp] at h
      simp only [State.masterPollWaiting] at h
      split at h
      · cases h
      · split at h
        · cases h; exact .timedOut h0 hp
        · exact State.receive_ends (.inr hp) hb (fun _ => State.masterFrame_ends h0 hp) h
  · rw [if_neg h0] at h
    exact State.receive_ends (.inl h0) hb (fun _ => State.slaveFrame_ends h0) h

/-! ### Queries -/

/-- The body of a telegram's request, and what it fits in. -/
theorem State.requestFor_body {s : State} {fc : Fc} {t : Telegram} {i : Instr} {cap : Nat}
    (h : s.requestFor fc t = .ok i) (hf : requestFits cap fc t.qty.toNat = true) :
    2 ≤ (encodeBody i).length ∧ (encodeBody i).length + 2 ≤ cap := by
  simp only [requestFits, Bool.and_eq_true, decide_eq_true_eq] at hf
  cases fc
  case rdCoils => cases h; simpa [encodeBody, requestLength] using hf.2
  case rdDisc => cases h; simpa [encodeBody, requestLength] using hf.2
  case rdHold => cases h; simpa [encodeBody, requestLength] using hf.2
  case rdInput => cases h; simpa [encodeBody, requestLength] using hf.2
  case wrCoil =>
    simp only [State.requestFor] at h
    cases hs : s.sourceWord with
    | error f => rw [hs] at h; cases h
    | ok w => rw [hs] at h; cases h; simpa [encodeBody, requestLength] using hf.2
  case wrReg =>
    simp only [State.requestFor] at h
    cases hs : s.sourceWord with
    | error f => rw [hs] at h; cases h
    | ok w => rw [hs] at h; cases h; simpa [encodeBody, requestLength] using hf.2
  case wrCoils =>
    simp only [State.requestFor] at h
    cases hs : s.loadCoils 0 t.qty.toNat with
    | error f => rw [hs] at h; cases h
    | ok bits =>
      rw [hs] at h; cases h
      have := State.loadCoils_length hs
      simp only [requestLength, requestByteCount] at hf
      simp [encodeBody, this]; omega
  case wrRegs =>
    simp only [State.requestFor] at h
    cases hs : s.loadWords 0 t.qty.toNat with
    | error f => rw [hs] at h; cases h
    | ok ws =>
      rw [hs] at h; cases h
      have := State.loadWords_length hs
      simp only [requestLength, requestByteCount] at hf
      simp [encodeBody, this]; omega

theorem execQuery_ends {tel : Telegram} {s t : State} (h : execQuery tel s = .next t) : OpEnd s (.query tel) t := by
  unfold execQuery at h
  split at h
  · cases h; exact .queryRefused _ _ (by decide)
  · rename_i h0
    split at h
    · cases h; exact .queryRefused _ _ (by decide)
    · rename_i hp
      split at h
      · cases h; exact .queryRefused _ _ (by decide)
      · split at h
        · cases h
        · split at h
          · rename_i hfit
            unfold State.sendQuery at h
            simp only at h
            split at h
            · cases h
            · rename_i i hi
              cases h
              have := State.requestFor_body hi hfit
              exact .queried _ (by simpa using h0) (by simpa using hp) _ this.1 this.2
          · cases h

/-! ### Instructions and steps -/

/-- A command decodes to a host operation, never to a frame. -/
theorem decodeCommand_op {c : Command} {i : Instr} (h : decodeCommand c = .ok i) :
    i ∈ [Instr.start, .setTmo c.arg, .setId c.id, .query (commandTelegram c), .poll, .pollr c.img,
      .getState, .getErr, .getIn, .getOut, .getErrCnt] := by
  unfold decodeCommand at h
  repeat' (split at h; · cases h; simp)
  cases h

/-- What a host operation can end in, from a state whose buffer is not over-full (R31). -/
theorem exec_ends {c : Command} {i : Instr} {s t : State} (hc : decodeCommand c = .ok i)
    (hb : s.buf.length ≤ s.cfg.frameCap) (h : exec i s = .next t) : OpEnd s i t := by
  have hm := decodeCommand_op hc
  simp only [List.mem_cons, List.not_mem_nil, or_false] at hm
  rcases hm with rfl | rfl | rfl | rfl | rfl | rfl | rfl | rfl | rfl | rfl | rfl
  · cases h; exact .started
  · cases h; exact .timeoutSet _
  · simp only [exec, execSetId] at h
    split at h
    · rename_i hi; cases h; exact .idRejected _ hi
    · rename_i hi
      cases h
      exact .idSet _ (fun e => hi (.inl e)) (Nat.le_of_not_lt fun e => hi (.inr e))
  · exact execQuery_ends h
  · exact .poll _ (State.pollBody_ends hb h)
  · exact .pollr _ _ (State.pollBody_ends (s := { s with imgRef := some c.img }) hb h)
  · cases h; exact .gotState
  · cases h; exact .gotErr
  · cases h; exact .gotIn
  · cases h; exact .gotOut
  · cases h; exact .gotErrCnt

/-- What a step can do. -/
theorem step_cases {s t : State} (h : step s = .next t) :
    (s.schedule = [] ∧ t = s) ∨
    ∃ e rest, s.schedule = e :: rest ∧
      ((∃ c i, e = .op c ∧ decodeCommand c = .ok i ∧ exec i (s.pop rest) = .next t) ∨
       (∃ b, e = .rxByte b ∧ t = (s.pop rest).arrive b) ∨
       (∃ d, e = .tick d ∧ t = (s.pop rest).advance d) ∨
       (∃ k i v, e = .imageWrite k i v ∧ t = (s.pop rest).hostWrite k i v) ∨
       (e = .rst ∧ t = (s.pop rest).resetEngine)) := by
  unfold step at h
  split at h
  · cases h; exact .inl ⟨‹_›, rfl⟩
  · rename_i c rest hs
    refine .inr ⟨_, rest, hs, .inl ?_⟩
    split at h
    · cases h
    · rename_i i hi
      refine ⟨c, i, rfl, ?_, h⟩
      unfold fetchCommand at hi
      split at hi
      · cases hi
      · rename_i j hj; cases hi; exact hj
  · rename_i b rest hs; cases h; exact .inr ⟨_, rest, hs, .inr (.inl ⟨b, rfl, rfl⟩)⟩
  · rename_i d rest hs; cases h; exact .inr ⟨_, rest, hs, .inr (.inr (.inl ⟨d, rfl, rfl⟩))⟩
  · rename_i k i v rest hs; cases h; exact .inr ⟨_, rest, hs, .inr (.inr (.inr (.inl ⟨k, i, v, rfl, rfl⟩)))⟩
  · rename_i rest hs; cases h; exact .inr ⟨_, rest, hs, .inr (.inr (.inr (.inr ⟨rfl, rfl⟩)))⟩

end Sys2Proof.Machine
end

