-- ==== Sys2Proof/Tests/Slice0.lean ====
section
/-! SUPPORT. The model's own tests. Expected values come from the spec's worked examples (the rule stands at each test),
or are counted by hand from its tables; and for every obligation with hypotheses, states and operands that meet them. -/

namespace Sys2Proof.Tests

-- One theorem after another: each waits for the kernel, and a thread for each waiting one is more than the limits allow.
set_option Elab.async false

open Sys2Proof Sys2Proof.Machine

/-! ## Well-formedness: each check refuses -/

theorem test_wf_byte_count_bound :
    Instr.wf 1000 (.wrCoilsReq 1 0 0 (List.replicate 255 0)) = true ∧
    Instr.wf 1000 (.wrCoilsReq 1 0 0 (List.replicate 256 0)) = false ∧
    Instr.wf 1000 (.rdHoldRsp 1 (List.replicate 256 0)) = false := by decide +kernel

theorem test_wf_frame_fits :
    Instr.wf 64 (.wrRegsReq 1 0 0 (List.replicate 55 0)) = true ∧
    Instr.wf 64 (.wrRegsReq 1 0 0 (List.replicate 56 0)) = false ∧
    Instr.wf 64 (.rdDiscRsp 1 (List.replicate 59 0)) = true ∧
    Instr.wf 64 (.rdDiscRsp 1 (List.replicate 60 0)) = false := by decide +kernel

theorem test_wf_fixed_formats :
    Instr.wf 8 (.wrCoilReq 1 0 0) = true ∧ Instr.wf 7 (.wrCoilReq 1 0 0) = false ∧
    Instr.wf 7 (.wrRegsRsp 1 0 0) = false ∧ Instr.wf 5 (.excRsp 1 3 2) = true ∧ Instr.wf 4 (.excRsp 1 3 2) = false := by
  decide +kernel

/-! ## Decoding: every constructor, from the bytes the spec writes out -/

/-- R143 to R148. -/
theorem test_decode_fixed_requests :
    decodeFrame .request [0x11, 0x01, 0x00, 0x13, 0x00, 0x25, 0x0E, 0x84] = .ok (.rdCoilsReq 0x11 0x0013 0x0025) ∧
    decodeFrame .request [0x11, 0x02, 0x00, 0xC4, 0x00, 0x16, 0xBA, 0xA9] = .ok (.rdDiscReq 0x11 0x00C4 0x0016) ∧
    decodeFrame .request [0x11, 0x03, 0x00, 0x6B, 0x00, 0x03, 0x76, 0x87] = .ok (.rdHoldReq 0x11 0x006B 3) ∧
    decodeFrame .request [0x11, 0x04, 0x00, 0x08, 0x00, 0x01, 0xB2, 0x98] = .ok (.rdInputReq 0x11 8 1) ∧
    decodeFrame .request [0x11, 0x05, 0x00, 0xAC, 0xFF, 0x00, 0x4E, 0x8B] = .ok (.wrCoilReq 0x11 0x00AC 0xFF00) ∧
    decodeFrame .request [0x11, 0x06, 0x00, 0x01, 0x00, 0x03, 0x9A, 0x9B] = .ok (.wrRegReq 0x11 1 3) := by
  decide +kernel

/-- R149, R150. -/
theorem test_decode_multiple_requests :
    decodeFrame .request [0x11, 0x0F, 0x00, 0x13, 0x00, 0x0A, 0x02, 0xCD, 0x01, 0xBF, 0x0B] =
      .ok (.wrCoilsReq 0x11 0x0013 10 [0xCD, 0x01]) ∧
    decodeFrame .request [0x11, 0x10, 0x00, 0x01, 0x00, 0x02, 0x04, 0x00, 0x0A, 0x01, 0x02, 0xC6, 0xF0] =
      .ok (.wrRegsReq 0x11 1 2 [0x00, 0x0A, 0x01, 0x02]) := by decide +kernel

/-- R206 to R209. -/
theorem test_decode_data_responses :
    decodeFrame .response [0x11, 0x01, 0x02, 0xCD, 0x01, 0xED, 0x6F] = .ok (.rdCoilsRsp 0x11 [0xCD, 0x01]) ∧
    decodeFrame .response [0x11, 0x02, 0x02, 0xCD, 0x01, 0xED, 0x2B] = .ok (.rdDiscRsp 0x11 [0xCD, 0x01]) ∧
    decodeFrame .response [0x11, 0x03, 0x04, 0xBF, 0xFF, 0x00, 0x39, 0x3E, 0x04] =
      .ok (.rdHoldRsp 0x11 [0xBF, 0xFF, 0x00, 0x39]) ∧
    decodeFrame .response [0x11, 0x04, 0x02, 0xA5, 0xA5, 0xC3, 0xD8] = .ok (.rdInputRsp 0x11 [0xA5, 0xA5]) := by
  decide +kernel

/-- R158, R165 to R167, R239. -/
theorem test_decode_fixed_responses :
    decodeFrame .response [0x11, 0x05, 0x00, 0xAC, 0xFF, 0x00, 0x4E, 0x8B] = .ok (.wrCoilRsp 0x11 0x00AC 0xFF00) ∧
    decodeFrame .response [0x11, 0x06, 0x00, 0x01, 0x00, 0x03, 0x9A, 0x9B] = .ok (.wrRegRsp 0x11 1 3) ∧
    decodeFrame .response [0x11, 0x0F, 0x00, 0x13, 0x00, 0x0A, 0x26, 0x99] = .ok (.wrCoilsRsp 0x11 0x0013 10) ∧
    decodeFrame .response [0x11, 0x10, 0x00, 0x01, 0x00, 0x02, 0x12, 0x98] = .ok (.wrRegsRsp 0x11 1 2) ∧
    decodeFrame .response [0x05, 0x83, 0x02, 0x81, 0x30] = .ok (.excRsp 5 3 2) := by decide +kernel

/-- R115. -/
theorem test_decode_commands :
    decodeCommand { op := 0x0 } = .ok .start ∧ decodeCommand { op := 0x1, arg := 100 } = .ok (.setTmo 100) ∧
    decodeCommand { op := 0x2, id := 5 } = .ok (.setId 5) ∧
    decodeCommand { op := 0x3, id := 5, fc := 3, addr := 10, arg := 4, img := ⟨7, 16⟩ } =
      .ok (.query ⟨5, 3, 10, 4, ⟨7, 16⟩⟩) ∧
    decodeCommand { op := 0x4 } = .ok .poll ∧ decodeCommand { op := 0x5, img := ⟨7, 16⟩ } = .ok (.pollr ⟨7, 16⟩) ∧
    decodeCommand { op := 0x8 } = .ok .getState ∧ decodeCommand { op := 0x9 } = .ok .getErr ∧
    decodeCommand { op := 0xA } = .ok .getIn ∧ decodeCommand { op := 0xB } = .ok .getOut ∧
    decodeCommand { op := 0xC } = .ok .getErrCnt := by decide +kernel

/-- R107, R108, R134, R254, R274: what is rejected, by name. -/
theorem test_decode_rejects :
    decodeFrame .request [0x05, 0x07, 0x43, 0x22] = .error .unsupportedFunction ∧
    decodeFrame .request [0x05, 0x83, 0x02, 0x81, 0x30] = .error .unsupportedFunction ∧
    decodeFrame .request [0x05, 0x03, 0x00, 0x00, 0x00, 0x01, 0x85, 0x8F] = .error .checksum ∧
    decodeFrame .request [0x05, 0x03, 0x00] = .error .checksum ∧ decodeFrame .request [0xFF, 0xFF] = .error .checksum ∧
    decodeFrame .request [0x05, 0x10, 0x00, 0x00, 0x00, 0x02, 0x04, 0x01, 0x02, 0x03, 0xC5, 0x86] = .error .length ∧
    decodeCommand { op := 0x6 } = .error .reservedCommand ∧ decodeCommand { op := 0x7 } = .error .reservedCommand ∧
    decodeCommand { op := 0xD } = .error .reservedCommand ∧ decodeCommand { op := 0xE } = .error .reservedCommand ∧
    decodeCommand { op := 0xF } = .error .reservedCommand := by decide +kernel

/-- Words numbered as the table numbers them: 17 bits `dir`, `buf[0]`, `buf[1]`, in three bytes, and a 4-bit code in one. -/
theorem test_decode_table_words :
    decodeTableWord 24 0x00501 = some (.rdCoilsReq 5 0 0) ∧ decodeTableWord 24 0x00510 = some (.wrRegsReq 5 0 0 []) ∧
    decodeTableWord 24 0x10501 = some (.rdCoilsRsp 5 []) ∧ decodeTableWord 24 0x10583 = some (.excRsp 5 3 0) ∧
    decodeTableWord 24 0x00507 = none ∧ decodeTableWord 8 0x3 = some (.query ⟨0, 0, 0, 0, ⟨0, 0⟩⟩) ∧
    decodeTableWord 8 0x6 = none := by decide +kernel

/-- No two rows of the table meet: where both masks look, two patterns of one space differ. -/
theorem test_rows_disjoint :
    opcodeTable.Pairwise (fun a b => a.host ≠ b.host ∨ a.pattern &&& (a.mask &&& b.mask) ≠ b.pattern &&& (a.mask &&& b.mask)) := by
  decide +kernel

/-! ## Small states -/

/-- A slave with id 17 and the image of the worked examples of R206 to R213: handle 7, four words. -/
def slave (ws : List Word) : State :=
  { State.reset with ownId := 0x11, imgRef := some ⟨7, 4⟩, mem := Memory.setWords [] 7 0 ws }

/-- A master that waits for an answer since time 0, with a time-out of 100 and an image of four words. -/
def waitingMaster (ws : List Word) : State :=
  { State.reset with
    phase := .waiting, tSend := some 0, timeout := 100, imgRef := some ⟨7, 4⟩, mem := Memory.setWords [] 7 0 ws }

/-- A frame in the buffer, its last byte read at time 1; the time is `now`. -/
def holding (s : State) (f : List Byte) (now : Time) : State := { s with buf := f, tLast := some 1, now := now }

/-- What an outcome shows of its next state. -/
def shows {α : Type} (o : Host.Outcome State Fault Refusal) (f : State → α) : Option α :=
  match o with
  | .next t => some (f t)
  | .fault _ => none
  | .refused _ => none

/-- A finished frame as the transport is handed it (R42). -/
def handed (f : List Byte) : List TxEvent := [.de true, .write f, .flush, .de false]

def exampleImage : List Word := [0xBFFF, 0x0039, 0xA5A5, 0x0000]

/-! ## Requests at a slave -/

/-- R206. -/
theorem test_exec_rdCoilsReq : shows (exec (.rdCoilsReq 0x11 13 10) (slave exampleImage)) (·.txLog) =
    some (handed [0x11, 0x01, 0x02, 0xCD, 0x01, 0xED, 0x6F]) := by decide +kernel

/-- R207. -/
theorem test_exec_rdDiscReq : shows (exec (.rdDiscReq 0x11 13 10) (slave exampleImage)) (·.txLog) =
    some (handed [0x11, 0x02, 0x02, 0xCD, 0x01, 0xED, 0x2B]) := by decide +kernel

/-- R208. -/
theorem test_exec_rdHoldReq : shows (exec (.rdHoldReq 0x11 0 2) (slave exampleImage)) (·.txLog) =
    some (handed [0x11, 0x03, 0x04, 0xBF, 0xFF, 0x00, 0x39, 0x3E, 0x04]) := by decide +kernel

/-- R209. -/
theorem test_exec_rdInputReq : shows (exec (.rdInputReq 0x11 2 1) (slave exampleImage)) (·.txLog) =
    some (handed [0x11, 0x04, 0x02, 0xA5, 0xA5, 0xC3, 0xD8]) := by decide +kernel

/-- R210: 0x00FF is OFF. -/
theorem test_exec_wrCoilReq_off : shows (exec (.wrCoilReq 0x11 1 0x00FF) (slave exampleImage))
    (fun t => (Memory.word t.mem 7 0, t.txLog)) =
      some (0xBFFD, handed [0x11, 0x05, 0x00, 0x01, 0x00, 0xFF, 0xDE, 0xDA]) := by decide +kernel

/-- R103, R210: 0xFF01 is ON. -/
theorem test_exec_wrCoilReq_on : shows (exec (.wrCoilReq 0x11 0 0xFF01) (slave []))
    (fun t => (Memory.word t.mem 7 0, t.txLog)) =
      some (0x0001, handed [0x11, 0x05, 0x00, 0x00, 0xFF, 0x01, 0x4F, 0x6A]) := by decide +kernel

/-- R211. -/
theorem test_exec_wrRegReq : shows (exec (.wrRegReq 0x11 3 0x1234) (slave exampleImage))
    (fun t => (Memory.word t.mem 7 3, t.txLog)) =
      some (0x1234, handed [0x11, 0x06, 0x00, 0x03, 0x12, 0x34, 0x76, 0x2D]) := by decide +kernel

/-- R212. -/
theorem test_exec_wrCoilsReq :
    shows (exec (.wrCoilsReq 0x11 13 10 [0xCD, 0x01]) (slave [0xFFFF, 0x0000, 0xA5A5, 0x0000]))
      (fun t => (Memory.word t.mem 7 0, Memory.word t.mem 7 1, t.txLog)) =
      some (0xBFFF, 0x0039, handed [0x11, 0x0F, 0x00, 0x0D, 0x00, 0x0A, 0x46, 0x9F]) := by decide +kernel

/-- R213. -/
theorem test_exec_wrRegsReq :
    shows (exec (.wrRegsReq 0x11 1 2 [0xDE, 0xAD, 0xBE, 0xEF]) (slave [0xBFFD, 0x0039, 0xA5A5, 0x1234]))
      (fun t => (Memory.word t.mem 7 1, Memory.word t.mem 7 2, t.txLog)) =
      some (0xDEAD, 0xBEEF, handed [0x11, 0x10, 0x00, 0x01, 0x00, 0x02, 0x12, 0x98]) := by decide +kernel

/-! ## Responses at a master -/

/-- R156: an odd byte count leaves the high half of the last word. -/
theorem test_exec_rdCoilsRsp : shows (exec (.rdCoilsRsp 5 [0xCD, 0x6B, 0x05]) (waitingMaster [0xFFFF, 0xFFFF]))
    (fun t => (Memory.word t.mem 7 0, Memory.word t.mem 7 1, t.phase)) = some (0x6BCD, 0xFF05, .idle) := by
  decide +kernel

/-- R163. -/
theorem test_exec_rdDiscRsp : shows (exec (.rdDiscRsp 5 [0x05]) (waitingMaster [])) (fun t => Memory.word t.mem 7 0) =
    some 0x0005 := by decide +kernel

/-- R157, the end-to-end scenario: four registers. -/
theorem test_exec_rdHoldRsp : shows (exec (.rdHoldRsp 5 [0, 10, 0, 11, 0, 12, 0, 13]) (waitingMaster []))
    (fun t => (List.range 4).map fun i => Memory.word t.mem 7 i) = some [10, 11, 12, 13] := by decide +kernel

/-- R164. -/
theorem test_exec_rdInputRsp : shows (exec (.rdInputRsp 5 [0x12, 0x34]) (waitingMaster []))
    (fun t => Memory.word t.mem 7 0) = some 0x1234 := by decide +kernel

/-- R158, R165 to R167: the result says which function was acknowledged. -/
theorem test_exec_acknowledgements :
    shows (exec (.wrCoilRsp 0x11 0xAC 0xFF00) (waitingMaster [])) (·.result) = some (.poll ⟨.done, 5, 0⟩) ∧
    shows (exec (.wrRegRsp 0x11 1 3) (waitingMaster [])) (·.result) = some (.poll ⟨.done, 6, 0⟩) ∧
    shows (exec (.wrCoilsRsp 0x11 0x13 10) (waitingMaster [])) (·.result) = some (.poll ⟨.done, 15, 0⟩) ∧
    shows (exec (.wrRegsRsp 0x11 1 2) (waitingMaster [])) (·.result) = some (.poll ⟨.done, 16, 0⟩) := by
  decide +kernel

/-- R239. -/
theorem test_exec_excRsp : shows (exec (.excRsp 5 3 2) (waitingMaster []))
    (fun t => (t.result, t.errCnt, t.phase)) = some (.poll ⟨.error, 0, 0x0280⟩, 1, .idle) := by decide +kernel

/-! ## Host operations -/

/-- R231. -/
theorem test_exec_query_read : shows (exec (.query ⟨5, 3, 10, 4, ⟨7, 16⟩⟩) State.reset)
    (fun t => (t.txLog, t.phase, t.outCnt)) =
      some (handed [0x05, 0x03, 0x00, 0x0A, 0x00, 0x04, 0x65, 0x8F], .waiting, 1) := by decide +kernel

/-- R149. -/
theorem test_exec_query_write : shows
    (exec (.query ⟨0x11, 0x0F, 0x0013, 10, ⟨7, 16⟩⟩) { State.reset with mem := Memory.setWords [] 7 0 [0x01CD] }) (·.txLog) =
      some (handed [0x11, 0x0F, 0x00, 0x13, 0x00, 0x0A, 0x02, 0xCD, 0x01, 0xBF, 0x0B]) := by decide +kernel

/-- R256, `T_IDLE` = 5: complete at time 6, not at time 5. -/
theorem test_exec_poll_boundary :
    shows (exec .poll (holding (slave exampleImage) [0x11, 0x04, 0x00, 0x02, 0x00, 0x01, 0x92, 0x9A] 5)) (·.result) =
      some (.poll ⟨.none, 0, 0⟩) ∧
    shows (exec .poll (holding (slave exampleImage) [0x11, 0x04, 0x00, 0x02, 0x00, 0x01, 0x92, 0x9A] 6))
      (fun t => (t.result, t.txLog, t.inCnt, t.outCnt)) =
      some (.poll ⟨.done, 4, 0⟩, handed [0x11, 0x04, 0x02, 0xA5, 0xA5, 0xC3, 0xD8], 1, 1) := by decide +kernel

/-- R242: no time-out at 100 units, time-out at 101. -/
theorem test_exec_poll_timeout :
    shows (exec .poll { waitingMaster [] with now := 100 }) (fun t => (t.result, t.phase)) =
      some (.poll ⟨.none, 0, 0⟩, .waiting) ∧
    shows (exec .poll { waitingMaster [] with now := 101 }) (fun t => (t.result, t.phase, t.errCnt)) =
      some (.poll ⟨.error, 0, 0x00FF⟩, .idle, 1) := by decide +kernel

/-- R255: the range property with 14 words. -/
theorem test_exec_pollr_range :
    shows (exec (.pollr ⟨7, 14⟩)
      (holding { State.reset with ownId := 5 } [0x05, 0x03, 0x00, 0x0D, 0x00, 0x02, 0x54, 0x4C] 6))
      (fun t => (t.result, t.txLog, t.errCnt)) =
      some (.poll ⟨.error, 0, 0x0002⟩, handed [0x05, 0x83, 0x02, 0x81, 0x30], 1) := by decide +kernel

/-- R268: 247 is accepted, 248 is not. -/
theorem test_exec_setId :
    shows (exec (.setId 247) State.reset) (fun t => (t.ownId, t.result)) = some (247, .setId .accepted) ∧
    shows (exec (.setId 248) State.reset) (fun t => (t.ownId, t.result)) = some (0, .setId .rejected) := by
  decide +kernel

/-- R266, R267. -/
theorem test_exec_start_setTmo :
    shows (exec .start { waitingMaster [] with errCnt := 3 }) (fun t => (t.phase, t.errCnt, t.timeout)) =
      some (.idle, 0, 100) ∧
    shows (exec (.setTmo 65535) State.reset) (·.timeout) = some 65535 := by decide +kernel

/-- R276 to R280. -/
theorem test_exec_accessors :
    shows (exec .getState (waitingMaster [])) (·.result) = some (.state 1) ∧
    shows (exec .getErr { State.reset with lastExc := 2, lastError := .remoteException }) (·.result) =
      some (.word 0x0280) ∧
    shows (exec .getIn { State.reset with inCnt := 2 }) (·.result) = some (.word 2) ∧
    shows (exec .getOut { State.reset with outCnt := 1 }) (·.result) = some (.word 1) ∧
    shows (exec .getErrCnt { State.reset with errCnt := 9 }) (·.result) = some (.word 9) := by decide +kernel

/-- R29: a counter wraps. -/
theorem test_counter_wraps : bump 65535 = 0 := by decide +kernel

/-- R195, conflict of 16-bit wrap: the highest index is not computed modulo 2^16. -/
theorem test_range_does_not_wrap :
    fieldDefect 256 65536 .rdHold 0xFFFF 2 0 = some .illegalAddressRange ∧
    fieldDefect 256 65536 .rdCoils 0xFFFF 2 0 = none := by decide +kernel

/-- R176, R251: the 65th byte of 70 overflows a buffer of 64, and 5 bytes stay in the queue. -/
theorem test_overflow_leaves_the_rest :
    shows (exec .poll { slave [] with cfg := ⟨64, 5, 0⟩, rxq := List.replicate 70 0x11 })
      (fun t => (t.result, t.rxq.length, t.buf, t.inCnt)) =
      some (.poll ⟨.error, 0, 0x00FD⟩, 5, [], 0) := by decide +kernel

/-- The host's staging of a table word runs that instruction as the first one after reset. -/
theorem test_first_step_runs_table_words :
    shows (step (State.reset.withFetchWord 24 0x00501)) (fun t => (t.inCnt, t.errCnt, t.outCnt)) = some (1, 1, 1) ∧
    shows (step (State.reset.withFetchWord 24 0x10583)) (fun t => (t.inCnt, t.result)) =
      some (1, .poll ⟨.error, 0, 0x0080⟩) ∧
    shows (step (State.reset.withFetchWord 8 0xC)) (·.result) = some (.word 0) := by decide +kernel

/-! ## Witnesses: states and operands that meet the hypotheses of the obligations, clause by clause -/

theorem of_shows {o : Host.Outcome State Fault Refusal} (h : (shows o fun _ => ()).isSome = true) : ∃ t, o = .next t := by
  cases o with
  | next t => exact ⟨t, rfl⟩
  | fault f => cases h
  | refused r => cases h

/-- How an outcome stops. -/
def stops (o : Host.Outcome State Fault Refusal) : Option (Fault ⊕ Refusal) :=
  match o with
  | .next _ => none
  | .fault f => some (.inl f)
  | .refused r => some (.inr r)

theorem of_stops_fault {o : Host.Outcome State Fault Refusal} {f : Fault} (h : stops o = some (.inl f)) :
    o = .fault f := by
  cases o <;> simp_all [stops]

theorem of_stops_refusal {o : Host.Outcome State Fault Refusal} {r : Refusal} (h : stops o = some (.inr r)) :
    o = .refused r := by
  cases o <;> simp_all [stops]

theorem test_witness_DecodingInvertsEncoding :
    (∃ cap i, Instr.wf cap i = true ∧ cap = 264 ∧ i = .wrRegsReq 0xFF 0xFFFF 0xFFFF (List.replicate 255 0xFF)) ∧
    (∃ cap i, Instr.wf cap i = true ∧ cap = 5 ∧ i = .excRsp 0xFF 0x7F 0xFF) :=
  ⟨⟨_, _, by decide +kernel, rfl, rfl⟩, ⟨_, _, by decide +kernel, rfl, rfl⟩⟩

theorem test_witness_EncodingInvertsDecodingOfFrames :
    ∃ (cap : Nat) (d : Dir) (f : List Byte) (i : Instr), f.length ≤ cap ∧ decodeFrame d f = .ok i :=
  ⟨5, .response, [0x05, 0x83, 0x02, 0x81, 0x30], .excRsp 5 3 2, by decide +kernel⟩

theorem test_witness_DecodedCodesMatchExactlyTheirRow :
    ∃ (c : Code) (i : Instr), decode c = .ok i := ⟨.host { op := 0xC }, .getErrCnt, by decide +kernel⟩

theorem test_witness_ChecksumMatchesAndDetectsEveryBitFlip :
    (∃ b : List Byte, 2 ≤ b.length) ∧ (∃ b : List Byte, b.length = 1) ∧
    (∃ (b : List Byte) (p : Nat), 1 ≤ b.length ∧ p < 8 * (b.length + 2) ∧ p = 23) ∧
    (∃ (b : List Byte) (p : Nat), 1 ≤ b.length ∧ p < 8 * (b.length + 2) ∧ p = 0) :=
  ⟨⟨[0, 0], by decide⟩, ⟨[0], by decide⟩, ⟨[0], 23, by decide⟩, ⟨[0], 0, by decide⟩⟩

theorem test_witness_ResidueOfAFinishedFrameIsZero : ∃ f : List Byte, 4 ≤ f.length := ⟨[0, 0, 0, 0], by decide⟩

theorem test_witness_CoilsPackAndUnpack :
    (∃ (c : List Bool) (k : Nat), k < c.length) ∧
    (∃ (c : List Bool) (k : Nat), c.length ≤ k ∧ k < 8 * ceilDiv c.length 8) ∧
    (∃ (d : List Byte) (q k : Nat), q ≤ 8 * d.length ∧ k < q) :=
  ⟨⟨[true], 0, by decide⟩, ⟨[true], 7, by decide⟩, ⟨[0xFF], 8, 7, by decide⟩⟩

theorem test_witness_RegistersPackHighByteFirst : ∃ (r : List Word) (i : Nat), i < r.length := ⟨[0x1234], 0, by decide⟩

/-- R171: exactly full, one byte too many, empty, complete at the threshold, and one unit before it. -/
theorem test_witness_DetectorStepReadsOrDecidesBySilence :
    (∃ s : State, s.rxq ≠ [] ∧ s.buf.length + s.rxq.length ≤ s.cfg.frameCap) ∧
    (∃ s : State, s.buf.length ≤ s.cfg.frameCap ∧ s.cfg.frameCap < s.buf.length + s.rxq.length) ∧
    (∃ s : State, s.rxq = [] ∧ s.buf = []) ∧
    (∃ (s : State) (t : Time), s.rxq = [] ∧ s.buf ≠ [] ∧ s.tLast = some t ∧ s.cfg.tIdle ≤ (s.now - t).toNat) ∧
    (∃ (s : State) (t : Time), s.rxq = [] ∧ s.buf ≠ [] ∧ s.tLast = some t ∧ (s.now - t).toNat < s.cfg.tIdle) :=
  ⟨⟨{ State.reset with rxq := List.replicate 256 0 }, by decide +kernel⟩,
    ⟨{ State.reset with buf := List.replicate 256 0, rxq := [0] }, by decide +kernel⟩,
    ⟨State.reset, by decide +kernel⟩, ⟨holding State.reset [0] 6, 1, by decide +kernel⟩,
    ⟨holding State.reset [0] 5, 1, by decide +kernel⟩⟩

/-- U10: the first byte past a frame, and what no run reaches: a buffer without its time stamp, `WAITING` without one,
and an answer with no image. -/
theorem test_witness_AbsentValuesReadAsFaults :
    (∃ s : State, s.buf.length ≤ 1 ∧ s.buf = [5]) ∧ (∃ s : State, s.buf = []) ∧
    (∃ f : List Byte, f.length < 6 ∧ f.length = 5) ∧
    (∃ s : State, s.ownId ≠ 0 ∧ s.rxq = [] ∧ s.buf ≠ [] ∧ s.tLast = none) ∧
    (∃ s : State, s.ownId = 0 ∧ s.phase = .waiting ∧ s.tSend = none ∧ s.imgRef = none) :=
  ⟨⟨holding State.reset [5] 6, by decide +kernel⟩, ⟨State.reset, by decide +kernel⟩,
    ⟨[0, 0, 0, 0, 0], by decide⟩, ⟨{ slave [] with buf := [5] }, by decide +kernel⟩,
    ⟨{ State.reset with phase := .waiting }, by decide +kernel⟩⟩

theorem test_witness_StepRunsTheHostOperation : ∃ (c : Command) (i : Instr), decodeCommand c = .ok i :=
  ⟨{ op := 0x0 }, .start, by decide +kernel⟩

theorem test_witness_StepRunsTheReceivedRequest :
    ∃ (s : State) (t : Time) (i : Instr), s.ownId ≠ 0 ∧ s.Completes t ∧ decodeFrame .request s.buf = .ok i :=
  ⟨holding (slave exampleImage) [0x11, 0x04, 0x00, 0x02, 0x00, 0x01, 0x92, 0x9A] 6, 1, .rdInputReq 0x11 2 1,
    by decide +kernel⟩

theorem test_witness_StepRunsTheReceivedAnswer :
    ∃ (s : State) (sent t : Time) (i : Instr), s.ownId = 0 ∧ s.phase = .waiting ∧ s.tSend = some sent ∧
      (s.now - sent).toNat ≤ s.timeout.toNat ∧ s.Completes t ∧ decodeFrame .response s.buf = .ok i :=
  ⟨holding (waitingMaster []) [0x05, 0x83, 0x02, 0x81, 0x30] 100, 0, 1, .excRsp 5 3 2, by decide +kernel⟩

/-- One coil, and 2008 of them. -/
theorem test_witness_SlaveAnswersReadsOfCoils :
    (∃ (s : State) (r : ImgRef) (addr qty : Word), s.ownId ≠ 0 ∧ s.imgRef = some r ∧ 1 ≤ qty.toNat ∧
      qty.toNat ≤ 8 * min 255 (s.cfg.frameCap - 5) ∧ (addr.toNat + qty.toNat - 1) / 16 < r.cap.val ∧ qty = 1) ∧
    (∃ (s : State) (r : ImgRef) (addr qty : Word), s.ownId ≠ 0 ∧ s.imgRef = some r ∧ 1 ≤ qty.toNat ∧
      qty.toNat ≤ 8 * min 255 (s.cfg.frameCap - 5) ∧ (addr.toNat + qty.toNat - 1) / 16 < r.cap.val ∧ qty = 2008) :=
  ⟨⟨slave [], ⟨7, 4⟩, 63, 1, by decide +kernel⟩,
    ⟨{ slave [] with imgRef := some ⟨7, 65536⟩ }, ⟨7, 65536⟩, 65535, 2008, by decide +kernel⟩⟩

/-- One register, and 125 of them. -/
theorem test_witness_SlaveAnswersReadsOfRegisters :
    (∃ (s : State) (r : ImgRef) (addr qty : Word), s.ownId ≠ 0 ∧ s.imgRef = some r ∧ 1 ≤ qty.toNat ∧
      qty.toNat ≤ min 255 (s.cfg.frameCap - 5) / 2 ∧ addr.toNat + qty.toNat - 1 < r.cap.val ∧ qty = 1) ∧
    (∃ (s : State) (r : ImgRef) (addr qty : Word), s.ownId ≠ 0 ∧ s.imgRef = some r ∧ 1 ≤ qty.toNat ∧
      qty.toNat ≤ min 255 (s.cfg.frameCap - 5) / 2 ∧ addr.toNat + qty.toNat - 1 < r.cap.val ∧ qty = 125) :=
  ⟨⟨slave [], ⟨7, 4⟩, 3, 1, by decide +kernel⟩,
    ⟨{ slave [] with imgRef := some ⟨7, 65536⟩ }, ⟨7, 65536⟩, 65411, 125, by decide +kernel⟩⟩

theorem test_witness_SlaveWritesOneCoil :
    ∃ (s : State) (r : ImgRef) (addr : Word), s.ownId ≠ 0 ∧ s.imgRef = some r ∧ addr.toNat / 16 < r.cap.val :=
  ⟨slave [], ⟨7, 4⟩, 63, by decide +kernel⟩

theorem test_witness_SlaveWritesOneRegister :
    ∃ (s : State) (r : ImgRef) (addr : Word), s.ownId ≠ 0 ∧ s.imgRef = some r ∧ addr.toNat < r.cap.val :=
  ⟨slave [], ⟨7, 4⟩, 3, by decide +kernel⟩

theorem test_witness_SlaveWritesManyCoils :
    ∃ (s : State) (r : ImgRef) (addr qty : Word) (data : List Byte), s.ownId ≠ 0 ∧ s.imgRef = some r ∧
      1 ≤ qty.toNat ∧ data.length = ceilDiv qty.toNat 8 ∧ (addr.toNat + qty.toNat - 1) / 16 < r.cap.val :=
  ⟨slave [], ⟨7, 4⟩, 63, 1, [0xFF], by decide +kernel⟩

theorem test_witness_SlaveWritesManyRegisters :
    ∃ (s : State) (r : ImgRef) (addr qty : Word) (data : List Byte), s.ownId ≠ 0 ∧ s.imgRef = some r ∧
      1 ≤ qty.toNat ∧ data.length = 2 * qty.toNat ∧ addr.toNat + qty.toNat - 1 < r.cap.val :=
  ⟨slave [], ⟨7, 4⟩, 3, 1, [0xAB, 0xCD], by decide +kernel⟩

/-- Every family of R194: zero items, one item too many, a byte count that contradicts. -/
theorem test_witness_SlaveRefusesIllegalQuantities :
    ∃ s : State, s.ownId ≠ 0 ∧
      (Instr.rdCoilsReq s.ownId 0 0).requestFields = some (s.ownId, .rdCoils, 0, 0, 0) ∧
      (Instr.rdDiscReq s.ownId 0 2009).requestFields = some (s.ownId, .rdDisc, 0, 2009, 0) ∧
      8 * min 255 (s.cfg.frameCap - 5) < (2009 : Word).toNat ∧
      (Instr.rdHoldReq s.ownId 0 126).requestFields = some (s.ownId, .rdHold, 0, 126, 0) ∧
      min 255 (s.cfg.frameCap - 5) / 2 < (126 : Word).toNat ∧
      (Instr.rdInputReq s.ownId 0 0).requestFields = some (s.ownId, .rdInput, 0, 0, 0) ∧
      (Instr.wrCoilsReq s.ownId 0 9 [0]).requestFields = some (s.ownId, .wrCoils, 0, 9, 1) ∧
      1 ≠ ceilDiv (9 : Word).toNat 8 ∧
      (Instr.wrRegsReq s.ownId 0 1 [0]).requestFields = some (s.ownId, .wrRegs, 0, 1, 1) ∧
      1 ≠ 2 * (1 : Word).toNat :=
  ⟨slave [], by decide +kernel, rfl, rfl, by decide +kernel, rfl, by decide +kernel, rfl, rfl, by decide +kernel, rfl,
    by decide +kernel⟩

/-- Every format of R195 at the first address out of range of four words, and a slave without an image. -/
theorem test_witness_SlaveRefusesAddressesOutOfRange :
    (∃ s : State, s.ownId ≠ 0 ∧ s.imgRef = some ⟨7, 4⟩ ∧
      (Instr.rdCoilsReq s.ownId 63 2).requestFields = some (s.ownId, .rdCoils, 63, 2, 0) ∧
      4 ≤ ((63 : Word).toNat + (2 : Word).toNat - 1) / 16 ∧
      (Instr.rdHoldReq s.ownId 3 2).requestFields = some (s.ownId, .rdHold, 3, 2, 0) ∧
      4 ≤ (3 : Word).toNat + (2 : Word).toNat - 1 ∧
      (Instr.wrCoilReq s.ownId 64 0).requestFields = some (s.ownId, .wrCoil, 64, 0, 0) ∧ 4 ≤ (64 : Word).toNat / 16 ∧
      (Instr.wrRegReq s.ownId 4 0).requestFields = some (s.ownId, .wrReg, 4, 0, 0) ∧ 4 ≤ (4 : Word).toNat ∧
      (Instr.wrCoilsReq s.ownId 64 1 [0]).requestFields = some (s.ownId, .wrCoils, 64, 1, 1) ∧
      1 = ceilDiv (1 : Word).toNat 8 ∧
      (Instr.wrRegsReq s.ownId 4 1 [0, 0]).requestFields = some (s.ownId, .wrRegs, 4, 1, 2)) ∧
    (∃ s : State, s.ownId ≠ 0 ∧ s.imgRef = none) :=
  ⟨⟨slave [], by decide +kernel, rfl, rfl, by decide +kernel, rfl, by decide +kernel, rfl, by decide +kernel, rfl,
      by decide +kernel, rfl, by decide +kernel, rfl⟩,
    ⟨{ State.reset with ownId := 247 }, by decide +kernel⟩⟩

theorem test_witness_SlaveDiscardsForeignFrames :
    (∃ (s : State) (t : Time), s.ownId ≠ 0 ∧ s.Completes t ∧ byteAt s.buf 0 ≠ s.ownId ∧ s.buf.length = 1) ∧
    (∃ (s : State) (i : Instr) (id : Byte), s.ownId ≠ 0 ∧ i.requestFields = some (id, .wrReg, 0, 1, 0) ∧ id ≠ s.ownId) :=
  ⟨⟨holding (slave []) [0x00] 6, 1, by decide +kernel⟩, ⟨slave [], .wrRegReq 0 0 1, 0, by decide +kernel⟩⟩

/-- R254: a bad checksum, three bytes, a request one byte short, data one byte short. -/
theorem test_witness_SlaveDropsBadFrames :
    (∃ (s : State) (t : Time), s.ownId ≠ 0 ∧ s.Completes t ∧ byteAt s.buf 0 = s.ownId ∧ verify s.buf = false ∧
      s.buf.length = 3) ∧
    (∃ (s : State) (t : Time), s.ownId ≠ 0 ∧ s.Completes t ∧ byteAt s.buf 0 = s.ownId ∧ verify s.buf = true ∧
      byteAt s.buf 1 ∈ [0x01#8, 0x02#8, 0x03#8, 0x04#8, 0x05#8, 0x06#8] ∧ s.buf.length ≠ 8) ∧
    (∃ (s : State) (t : Time), s.ownId ≠ 0 ∧ s.Completes t ∧ byteAt s.buf 0 = s.ownId ∧ verify s.buf = true ∧
      byteAt s.buf 1 ∈ [0x0F#8, 0x10#8] ∧ (s.buf.length < 9 ∨ s.buf.length ≠ 9 + (byteAt s.buf 6).toNat)) :=
  ⟨⟨holding (slave []) [0x11, 0x03, 0x00] 6, 1, by decide +kernel⟩,
    ⟨holding (slave []) (append [0x11, 0x03, 0x00, 0x00, 0x00]) 6, 1, by decide +kernel⟩,
    ⟨holding { slave [] with ownId := 5 }
      [0x05, 0x10, 0x00, 0x00, 0x00, 0x02, 0x04, 0x01, 0x02, 0x03, 0xC5, 0x86] 6, 1, by decide +kernel⟩⟩

theorem test_witness_SlaveRefusesUnsupportedFunctions :
    ∃ (s : State) (t : Time), s.ownId ≠ 0 ∧ s.Completes t ∧ byteAt s.buf 0 = s.ownId ∧ verify s.buf = true ∧
      byteAt s.buf 1 ∉ [0x01#8, 0x02#8, 0x03#8, 0x04#8, 0x05#8, 0x06#8, 0x0F#8, 0x10#8] :=
  ⟨holding { slave [] with ownId := 5 } [0x05, 0x07, 0x43, 0x22] 6, 1, by decide +kernel⟩

theorem test_witness_OverflowIsRecordedInEitherRole :
    (∃ s : State, s.buf.length ≤ s.cfg.frameCap ∧ s.cfg.frameCap < s.buf.length + s.rxq.length ∧ s.ownId ≠ 0) ∧
    (∃ (s : State) (sent : Time), s.buf.length ≤ s.cfg.frameCap ∧ s.cfg.frameCap < s.buf.length + s.rxq.length ∧
      s.ownId = 0 ∧ s.phase = .waiting ∧ s.tSend = some sent ∧ (s.now - sent).toNat ≤ s.timeout.toNat) :=
  ⟨⟨{ slave [] with buf := List.replicate 256 0, rxq := [1] }, by decide +kernel⟩,
    ⟨{ waitingMaster [] with rxq := List.replicate 257 0, now := 100 }, 0, by decide +kernel⟩⟩

theorem test_witness_PollsWithoutAFrameReportNothing :
    (∃ s : State, s.ownId ≠ 0 ∧ s.rxq = [] ∧ s.buf = []) ∧
    (∃ (s : State) (sent t : Time), s.phase = .waiting ∧ s.tSend = some sent ∧
      (s.now - sent).toNat ≤ s.timeout.toNat ∧ s.rxq = [] ∧ s.tLast = some t ∧ (s.now - t).toNat < s.cfg.tIdle) ∧
    (∃ s : State, s.ownId ≠ 0 ∧ s.rxq ≠ [] ∧ s.buf.length + s.rxq.length ≤ s.cfg.frameCap) :=
  ⟨⟨slave [], by decide +kernel⟩, ⟨holding (waitingMaster []) [5] 5, 0, 1, by decide +kernel⟩,
    ⟨{ slave [] with rxq := List.replicate 256 0 }, by decide +kernel⟩⟩

theorem test_witness_IdleMasterPollDoesNothing : ∃ s : State, s.ownId = 0 ∧ s.phase = .idle :=
  ⟨State.reset, by decide +kernel⟩

theorem test_witness_PollWithRegistersAttachesThenPolls :
    ∃ (s t : State) (r : ImgRef), s.Inv ∧ exec (.pollr r) s = .next t := by
  obtain ⟨t, h⟩ := of_shows (o := exec (.pollr ⟨7, 4⟩) State.reset) (by decide +kernel)
  exact ⟨State.reset, t, _, by decide +kernel, h⟩

/-- R242: the window of 100 units is over at 101; an answer at 100 ends the transaction in time. -/
theorem test_witness_TimeOutIsStrictAndComesFirst :
    (∃ (s : State) (sent : Time), s.ownId = 0 ∧ s.phase = .waiting ∧ s.tSend = some sent ∧
      s.timeout.toNat < (s.now - sent).toNat ∧ s.now = 101) ∧
    (∃ (s : State) (sent : Time) (t : State), s.ownId = 0 ∧ s.phase = .waiting ∧ s.tSend = some sent ∧
      (s.now - sent).toNat ≤ s.timeout.toNat ∧ exec .poll s = .next t ∧ t.phase = .idle) := by
  refine ⟨⟨{ waitingMaster [] with now := 101 }, 0, by decide +kernel⟩, ?_⟩
  have h : shows (exec .poll (holding (waitingMaster []) [0x05, 0x83, 0x02, 0x81, 0x30] 100)) (·.phase) = some .idle := by
    decide +kernel
  obtain ⟨t, ht⟩ := of_shows (o := exec .poll (holding (waitingMaster []) [0x05, 0x83, 0x02, 0x81, 0x30] 100))
    (by decide +kernel)
  refine ⟨_, 0, t, by decide +kernel, by decide +kernel, by decide +kernel, by decide +kernel, ht, ?_⟩
  rw [ht] at h
  exact Option.some.inj h

theorem test_witness_MasterDecodesCoils :
    ∃ (s : State) (r : ImgRef) (data : List Byte), s.ownId = 0 ∧ s.phase = .waiting ∧ s.imgRef = some r ∧
      ceilDiv data.length 2 ≤ r.cap.val ∧ data.length = 7 :=
  ⟨waitingMaster [], ⟨7, 4⟩, List.replicate 7 0xFF, by decide +kernel⟩

theorem test_witness_MasterDecodesRegisters :
    ∃ (s : State) (r : ImgRef) (data : List Byte), s.ownId = 0 ∧ s.phase = .waiting ∧ s.imgRef = some r ∧
      data.length / 2 ≤ r.cap.val ∧ data.length = 9 :=
  ⟨waitingMaster [], ⟨7, 4⟩, List.replicate 9 0xFF, by decide +kernel⟩

theorem test_witness_master_in_waiting : ∃ s : State, s.ownId = 0 ∧ s.phase = .waiting :=
  ⟨waitingMaster [], by decide +kernel⟩

/-- R240: bad checksum, long exception frame, wrong lengths of the two formats, unsupported function. -/
theorem test_witness_MasterEndsTheTransactionOnBadAnswers :
    (∃ (s : State) (sent t : Time), s.ownId = 0 ∧ s.phase = .waiting ∧ s.tSend = some sent ∧
      (s.now - sent).toNat ≤ s.timeout.toNat ∧ s.Completes t ∧ verify s.buf = false) ∧
    (∃ (s : State) (sent t : Time), s.ownId = 0 ∧ s.phase = .waiting ∧ s.tSend = some sent ∧
      (s.now - sent).toNat ≤ s.timeout.toNat ∧ s.Completes t ∧ verify s.buf = true ∧
      128 ≤ (byteAt s.buf 1).toNat ∧ s.buf.length ≠ 5) ∧
    (∃ (s : State) (sent t : Time), s.ownId = 0 ∧ s.phase = .waiting ∧ s.tSend = some sent ∧
      (s.now - sent).toNat ≤ s.timeout.toNat ∧ s.Completes t ∧ verify s.buf = true ∧
      byteAt s.buf 1 ∈ [0x01#8, 0x02#8, 0x03#8, 0x04#8] ∧ s.buf.length ≠ 5 + (byteAt s.buf 2).toNat) ∧
    (∃ (s : State) (sent t : Time), s.ownId = 0 ∧ s.phase = .waiting ∧ s.tSend = some sent ∧
      (s.now - sent).toNat ≤ s.timeout.toNat ∧ s.Completes t ∧ verify s.buf = true ∧
      byteAt s.buf 1 ∈ [0x05#8, 0x06#8, 0x0F#8, 0x10#8] ∧ s.buf.length ≠ 8) ∧
    (∃ (s : State) (sent t : Time), s.ownId = 0 ∧ s.phase = .waiting ∧ s.tSend = some sent ∧
      (s.now - sent).toNat ≤ s.timeout.toNat ∧ s.Completes t ∧ verify s.buf = true ∧
      (byteAt s.buf 1).toNat < 128 ∧
      byteAt s.buf 1 ∉ [0x01#8, 0x02#8, 0x03#8, 0x04#8, 0x05#8, 0x06#8, 0x0F#8, 0x10#8]) :=
  ⟨⟨holding (waitingMaster []) [0x05, 0x03, 0x02, 0x00, 0x01, 0xFF, 0xFF] 6, 0, 1, by decide +kernel⟩,
    ⟨holding (waitingMaster []) (append [0x05, 0x83]) 6, 0, 1, by decide +kernel⟩,
    ⟨holding (waitingMaster []) (append [0x05, 0x03, 0x02]) 6, 0, 1, by decide +kernel⟩,
    ⟨holding (waitingMaster []) (append [0x05, 0x06]) 6, 0, 1, by decide +kernel⟩,
    ⟨holding (waitingMaster []) (append [0x05, 0x41]) 6, 0, 1, by decide +kernel⟩⟩

/-- R159: one word too few, for each kind of access. -/
theorem test_witness_MasterImageBoundIsAFault :
    (∃ (s : State) (r : ImgRef) (data : List Byte), s.ownId = 0 ∧ s.phase = .waiting ∧ s.imgRef = some r ∧
      r.cap.val < ceilDiv data.length 2 ∧ data.length = 9) ∧
    (∃ (s : State) (r : ImgRef) (data : List Byte), s.ownId = 0 ∧ s.phase = .waiting ∧ s.imgRef = some r ∧
      r.cap.val < data.length / 2 ∧ data.length = 10) ∧
    (∃ (s : State) (t : Telegram), s.ownId = 0 ∧ s.phase = .idle ∧ 1 ≤ t.tid.toNat ∧ t.tid.toNat ≤ 247 ∧
      9 ≤ s.cfg.frameCap ∧ t.fc = 0x05 ∧ t.img.cap.val < 1) ∧
    (∃ (s : State) (t : Telegram), s.ownId = 0 ∧ s.phase = .idle ∧ 1 ≤ t.tid.toNat ∧ t.tid.toNat ≤ 247 ∧
      9 ≤ s.cfg.frameCap ∧ t.fc = 0x0F ∧ ceilDiv t.qty.toNat 8 ≤ min 255 (s.cfg.frameCap - 9) ∧
      t.img.cap.val < ceilDiv t.qty.toNat 16) ∧
    (∃ (s : State) (t : Telegram), s.ownId = 0 ∧ s.phase = .idle ∧ 1 ≤ t.tid.toNat ∧ t.tid.toNat ≤ 247 ∧
      9 ≤ s.cfg.frameCap ∧ t.fc = 0x10 ∧ 2 * t.qty.toNat ≤ min 255 (s.cfg.frameCap - 9) ∧
      t.img.cap.val < t.qty.toNat) :=
  ⟨⟨waitingMaster [], ⟨7, 4⟩, List.replicate 9 0, by decide +kernel⟩,
    ⟨waitingMaster [], ⟨7, 4⟩, List.replicate 10 0, by decide +kernel⟩,
    ⟨State.reset, ⟨1, 0x05, 0, 0, ⟨7, 0⟩⟩, by decide +kernel⟩,
    ⟨State.reset, ⟨1, 0x0F, 0, 17, ⟨7, 1⟩⟩, by decide +kernel⟩,
    ⟨State.reset, ⟨1, 0x10, 0, 123, ⟨7, 122⟩⟩, by decide +kernel⟩⟩

theorem test_witness_QueryRefusalsChangeNothing :
    (∃ s : State, s.ownId ≠ 0) ∧ (∃ s : State, s.ownId = 0 ∧ s.phase ≠ .idle) ∧
    (∃ (s : State) (t : Telegram), s.ownId = 0 ∧ s.phase = .idle ∧ (t.tid = 0 ∨ 247 < t.tid.toNat) ∧ t.tid = 248) :=
  ⟨⟨slave [], by decide +kernel⟩, ⟨waitingMaster [], by decide +kernel⟩,
    ⟨State.reset, ⟨248, 3, 0, 1, ⟨7, 4⟩⟩, by decide +kernel⟩⟩

theorem test_witness_QuerySendsReadRequests :
    (∃ (s : State) (t : Telegram), s.ownId = 0 ∧ s.phase = .idle ∧ 1 ≤ t.tid.toNat ∧ t.tid.toNat ≤ 247 ∧
      8 ≤ s.cfg.frameCap ∧ t.fc = 0x01 ∧ t.tid = 247) ∧
    (∃ (s : State) (t : Telegram), s.ownId = 0 ∧ s.phase = .idle ∧ 1 ≤ t.tid.toNat ∧ t.tid.toNat ≤ 247 ∧
      8 ≤ s.cfg.frameCap ∧ t.fc = 0x04 ∧ t.tid = 1) :=
  ⟨⟨State.reset, ⟨247, 1, 0xFFFF, 0xFFFF, ⟨7, 0⟩⟩, by decide +kernel⟩,
    ⟨State.reset, ⟨1, 4, 0, 0, ⟨7, 0⟩⟩, by decide +kernel⟩⟩

theorem test_witness_QuerySendsSingleWrites :
    ∃ (s : State) (t : Telegram), s.ownId = 0 ∧ s.phase = .idle ∧ 1 ≤ t.tid.toNat ∧ t.tid.toNat ≤ 247 ∧
      8 ≤ s.cfg.frameCap ∧ 1 ≤ t.img.cap.val ∧ t.fc = 0x05 :=
  ⟨State.reset, ⟨1, 5, 0, 0, ⟨7, 1⟩⟩, by decide +kernel⟩

/-- The largest requests that fit 256 bytes: 1976 coils, 123 registers; and none at all. -/
theorem test_witness_QuerySendsMultipleWrites :
    (∃ (s : State) (t : Telegram), s.ownId = 0 ∧ s.phase = .idle ∧ 1 ≤ t.tid.toNat ∧ t.tid.toNat ≤ 247 ∧
      9 ≤ s.cfg.frameCap ∧ t.fc = 0x0F ∧ ceilDiv t.qty.toNat 8 ≤ min 255 (s.cfg.frameCap - 9) ∧
      ceilDiv t.qty.toNat 16 ≤ t.img.cap.val ∧ t.qty = 1976) ∧
    (∃ (s : State) (t : Telegram), s.ownId = 0 ∧ s.phase = .idle ∧ 1 ≤ t.tid.toNat ∧ t.tid.toNat ≤ 247 ∧
      9 ≤ s.cfg.frameCap ∧ t.fc = 0x10 ∧ 2 * t.qty.toNat ≤ min 255 (s.cfg.frameCap - 9) ∧
      t.qty.toNat ≤ t.img.cap.val ∧ t.qty = 0) :=
  ⟨⟨State.reset, ⟨1, 0x0F, 0, 1976, ⟨7, 124⟩⟩, by decide +kernel⟩,
    ⟨State.reset, ⟨1, 0x10, 0, 0, ⟨7, 0⟩⟩, by decide +kernel⟩⟩

theorem test_witness_QueryWithoutMeaningIsRefused :
    (∃ (s : State) (t : Telegram), s.ownId = 0 ∧ s.phase = .idle ∧ 1 ≤ t.tid.toNat ∧ t.tid.toNat ≤ 247 ∧
      9 ≤ s.cfg.frameCap ∧ t.fc ∉ [0x01#8, 0x02#8, 0x03#8, 0x04#8, 0x05#8, 0x06#8, 0x0F#8, 0x10#8]) ∧
    (∃ (s : State) (t : Telegram), s.ownId = 0 ∧ s.phase = .idle ∧ 1 ≤ t.tid.toNat ∧ t.tid.toNat ≤ 247 ∧
      9 ≤ s.cfg.frameCap ∧ t.fc = 0x0F ∧ min 255 (s.cfg.frameCap - 9) < ceilDiv t.qty.toNat 8 ∧ t.qty = 1977) ∧
    (∃ (s : State) (t : Telegram), s.ownId = 0 ∧ s.phase = .idle ∧ 1 ≤ t.tid.toNat ∧ t.tid.toNat ≤ 247 ∧
      9 ≤ s.cfg.frameCap ∧ t.fc = 0x10 ∧ min 255 (s.cfg.frameCap - 9) < 2 * t.qty.toNat ∧ t.qty = 124) :=
  ⟨⟨State.reset, ⟨1, 0x07, 0, 0, ⟨7, 4⟩⟩, by decide +kernel⟩,
    ⟨State.reset, ⟨1, 0x0F, 0, 1977, ⟨7, 200⟩⟩, by decide +kernel⟩,
    ⟨State.reset, ⟨1, 0x10, 0, 124, ⟨7, 200⟩⟩, by decide +kernel⟩⟩

theorem test_witness_SetIdMakesASlaveOrChangesNothing :
    (∃ id : Byte, (id = 0 ∨ 247 < id.toNat) ∧ id = 248) ∧ (∃ id : Byte, 1 ≤ id.toNat ∧ id.toNat ≤ 247 ∧ id = 247) :=
  ⟨⟨248, by decide⟩, ⟨247, by decide⟩⟩

/-- The invariant holds at reset and at the states of the tests above. -/
theorem reset_inv : State.reset.Inv := by decide +kernel

theorem test_inv_of_test_states : (slave exampleImage).Inv ∧ (waitingMaster exampleImage).Inv ∧
    (holding (slave exampleImage) [0x11] 6).Inv ∧ (holding (waitingMaster []) [0x11] 6).Inv :=
  ⟨by decide +kernel, by decide +kernel, by decide +kernel, by decide +kernel⟩

theorem test_witness_EveryStepKeepsTheInvariant : ∃ s t : State, s.Inv ∧ step s = .next t ∧ s.schedule ≠ [] := by
  obtain ⟨t, h⟩ := of_shows (o := step { waitingMaster [] with schedule := [.op { op := 0x4 }], now := 101 })
    (by decide +kernel)
  exact ⟨_, t, by decide +kernel, h, by decide +kernel⟩

theorem test_witness_ResetHasTheInvariant : ∃ p : Config.Params, p.wf = true ∧ p.frameCap = 9 ∧ p.tIdle = 1 :=
  ⟨⟨9, 1, 0xFFFF⟩, by decide +kernel⟩

/-- A master's image too small, a reserved command, and a telegram of U1. -/
theorem test_witness_OnlyTheSpecsOwnStopsAreReached :
    (∃ s : State, s.Inv ∧ step s = .fault .imageBound) ∧ (∃ s : State, s.Inv ∧ step s = .refused .reservedCommand) ∧
    (∃ s : State, s.Inv ∧ step s = .refused .telegramUnsupported) :=
  ⟨⟨{ State.reset with schedule := [.op { op := 0x3, id := 1, fc := 0x06 }] }, by decide +kernel,
      of_stops_fault (by decide +kernel)⟩,
    ⟨{ State.reset with schedule := [.op { op := 0xF }] }, by decide +kernel, of_stops_refusal (by decide +kernel)⟩,
    ⟨{ State.reset with schedule := [.op { op := 0x3, id := 1, fc := 0x07 }] }, by decide +kernel,
      of_stops_refusal (by decide +kernel)⟩⟩

theorem test_witness_StateFollowsTheTransitionTable :
    ∃ (s t : State) (e : Event) (rest : List Event), s.Inv ∧ s.schedule = e :: rest ∧ step s = .next t := by
  obtain ⟨t, h⟩ := of_shows (o := step { State.reset with schedule := [.op { op := 0x3, id := 1, fc := 0x03 }] })
    (by decide +kernel)
  exact ⟨_, t, _, _, by decide +kernel, rfl, h⟩

theorem test_witness_OwnIdChangesOnlyBySetIdAndReset :
    ∃ s t : State, s.Inv ∧ step s = .next t ∧ t.ownId ≠ s.ownId :=
  ⟨{ slave [] with schedule := [.rst] }, _, by decide +kernel, rfl, by decide +kernel⟩

theorem test_witness_ImagesChangeOnlyBelowTheCapacity :
    ∃ (s t : State) (a : Nat), s.Inv ∧ step s = .next t ∧ Memory.read t.mem a ≠ Memory.read s.mem a := by
  have h : shows (step { holding (slave []) [0x11, 0x06, 0x00, 0x03, 0x12, 0x34, 0x76, 0x2D] 6 with
      schedule := [.op { op := 0x4 }] }) (fun t => Memory.read t.mem (wordAddr 7 3)) = some 0x34 := by decide +kernel
  obtain ⟨t, ht⟩ := of_shows (o := step { holding (slave []) [0x11, 0x06, 0x00, 0x03, 0x12, 0x34, 0x76, 0x2D] 6 with
      schedule := [.op { op := 0x4 }] }) (by decide +kernel)
  refine ⟨_, t, wordAddr 7 3, by decide +kernel, ht, ?_⟩
  rw [ht] at h
  rw [show Memory.read t.mem (wordAddr 7 3) = 0x34 from Option.some.inj h]
  decide +kernel

theorem test_witness_polls_end : ∃ s t : State, s.Inv ∧ exec .poll s = .next t := by
  obtain ⟨t, h⟩ := of_shows (o := exec .poll { waitingMaster [] with now := 101 }) (by decide +kernel)
  exact ⟨_, t, by decide +kernel, h⟩

/-- R161: master and slave of both round trips, one item each at the end of the images. -/
theorem test_witness_WritesReachTheSlave :
    ∃ (m u : State) (t : Telegram) (r : ImgRef), m.ownId = 0 ∧ m.phase = .idle ∧ 1 ≤ t.tid.toNat ∧
      t.tid.toNat ≤ 247 ∧ 9 ≤ m.cfg.frameCap ∧ 1 ≤ t.qty.toNat ∧ u.ownId = t.tid ∧ u.imgRef = some r ∧ t.fc = 0x10 ∧
      2 * t.qty.toNat ≤ min 255 (m.cfg.frameCap - 9) ∧ t.qty.toNat ≤ t.img.cap.val ∧
      t.addr.toNat + t.qty.toNat - 1 < r.cap.val :=
  ⟨State.reset, slave [], ⟨0x11, 0x10, 3, 1, ⟨9, 1⟩⟩, ⟨7, 4⟩, by decide +kernel⟩

theorem test_witness_WritesReachTheSlave_coils :
    ∃ (m u : State) (t : Telegram) (r : ImgRef), m.ownId = 0 ∧ m.phase = .idle ∧ 1 ≤ t.tid.toNat ∧
      t.tid.toNat ≤ 247 ∧ 9 ≤ m.cfg.frameCap ∧ 1 ≤ t.qty.toNat ∧ u.ownId = t.tid ∧ u.imgRef = some r ∧ t.fc = 0x0F ∧
      ceilDiv t.qty.toNat 8 ≤ min 255 (m.cfg.frameCap - 9) ∧ ceilDiv t.qty.toNat 16 ≤ t.img.cap.val ∧
      (t.addr.toNat + t.qty.toNat - 1) / 16 < r.cap.val :=
  ⟨State.reset, slave [], ⟨0x11, 0x0F, 47, 17, ⟨9, 2⟩⟩, ⟨7, 4⟩, by decide +kernel⟩

theorem test_witness_ReadsReachTheMaster :
    ∃ (u m : State) (addr qty : Word) (r x : ImgRef), u.ownId ≠ 0 ∧ u.imgRef = some r ∧ m.ownId = 0 ∧
      m.phase = .waiting ∧ m.imgRef = some x ∧ 1 ≤ qty.toNat ∧ qty.toNat ≤ 8 * min 255 (u.cfg.frameCap - 5) ∧
      (addr.toNat + qty.toNat - 1) / 16 < r.cap.val ∧ ceilDiv (ceilDiv qty.toNat 8) 2 ≤ x.cap.val ∧
      qty.toNat ≤ min 255 (u.cfg.frameCap - 5) / 2 ∧ addr.toNat + qty.toNat - 1 < r.cap.val ∧
      qty.toNat ≤ x.cap.val :=
  ⟨slave exampleImage, waitingMaster [], 0, 4, ⟨7, 4⟩, ⟨7, 4⟩, by decide +kernel⟩

end Sys2Proof.Tests
end

/-! ## The moves of the environment, and the state after reset -/

namespace Sys2Proof.Machine

/-! What a step does with each move that is no command of the host's (R13). -/

theorem step_rxByte (s : State) (b : Byte) (rest : List Event) :
    step { s with schedule := .rxByte b :: rest } = .next ((s.pop rest).arrive b) := rfl

theorem step_tick (s : State) (d : Time) (rest : List Event) :
    step { s with schedule := .tick d :: rest } = .next ((s.pop rest).advance d) := rfl

theorem step_imageWrite (s : State) (h : Nat) (i v : Word) (rest : List Event) :
    step { s with schedule := .imageWrite h i v :: rest } = .next ((s.pop rest).hostWrite h i v) := rfl

theorem step_nil (s : State) : step { s with schedule := [] } = .next { s with schedule := [] } := rfl

/-- R44: a write of one word changes the two bytes of that word alone. -/
theorem Memory.sameOutside_setWord (m : Memory) (h i : Nat) (w : Word) :
    Memory.SameOutside m (Memory.setWord m h i w) h i 1 := by
  intro a ha
  obtain ⟨h0, h1⟩ := ha 0 Nat.one_pos
  exact Memory.read_setWord_other m w h0 h1

/-- Settles O15: an arriving byte, a tick and an empty schedule by the step's own equations; a write of the host by
what a write of one word leaves of memory. -/
theorem environmentMovesChangeOnlyTheirOwn : Obligations.EnvironmentMovesChangeOnlyTheirOwn := by
  intro s rest
  refine ⟨fun b => step_rxByte s b rest, fun d => step_tick s d rest, fun h i v => ?_, step_nil s⟩
  exact ⟨Memory.setWord s.mem h i.toNat v, step_imageWrite s h i v rest, Memory.word_setWord_same _ _ _ _,
    Memory.sameOutside_setWord _ _ _ _⟩

/-- Of the invariant's parts only the first speaks of the parameters; the reset values of R320 meet the others. -/
theorem State.inv_resetWith {p : Config.Params} (hp : p.wf = true) : (State.resetWith p).Inv := by
  refine ⟨hp, ?ownId, ?slaveIdle, ?length, ?tLast, ?tSend, ?idleMaster, ?lastError, ?lastExc, ?mem⟩
  case length => exact Nat.zero_le p.frameCap
  all_goals simp [State.resetWith, Memory.wf]

/-- R7: the reference parameters are ones the rules allow. -/
theorem reference_wf : Config.reference.wf = true := by decide

/-- Settles O49: the values of reset meet the invariant for all parameters the rules allow, the reference ones among them. -/
theorem resetHasTheInvariant : Obligations.ResetHasTheInvariant :=
  ⟨fun _ hp => State.inv_resetWith hp, State.inv_resetWith reference_wf⟩

end Sys2Proof.Machine

/-! ## Every step: the invariant, the role, the images, what is sent, and where a step stops -/

namespace Sys2Proof.Machine

/-! ### The endings of a step -/

/-- The endings of a step at `s`, one for each kind of move (R13). -/
inductive StepEnd (s : State) : State → Prop where
  | unscheduled (hs : s.schedule = []) : StepEnd s s
  | op (c : Command) (i : Instr) (rest : List Event) (t : State) (hs : s.schedule = .op c :: rest)
      (hd : decodeCommand c = .ok i) (h : OpEnd (s.pop rest) i t) : StepEnd s t
  | rxByte (b : Byte) (rest : List Event) (hs : s.schedule = .rxByte b :: rest) : StepEnd s ((s.pop rest).arrive b)
  | tick (d : Time) (rest : List Event) (hs : s.schedule = .tick d :: rest) : StepEnd s ((s.pop rest).advance d)
  | imageWrite (k : Nat) (i v : Word) (rest : List Event) (hs : s.schedule = .imageWrite k i v :: rest) :
      StepEnd s ((s.pop rest).hostWrite k i v)
  | rst (rest : List Event) (hs : s.schedule = .rst :: rest) : StepEnd s (s.pop rest).resetEngine

/-- A step from a state whose buffer is not over-full (R31) is one of the endings. -/
theorem step_ends {s t : State} (hb : s.buf.length ≤ s.cfg.frameCap) (h : step s = .next t) : StepEnd s t := by
  obtain ⟨hs, rfl⟩ | ⟨e, rest, hs, hcase⟩ := step_cases h
  · exact .unscheduled hs
  · rcases hcase with ⟨c, i, rfl, hd, hx⟩ | ⟨b, rfl, rfl⟩ | ⟨d, rfl, rfl⟩ | ⟨k, i, v, rfl, rfl⟩ | ⟨rfl, rfl⟩
    · exact .op c i rest t hs hd (exec_ends hd (s := s.pop rest) hb hx)
    · exact .rxByte b rest hs
    · exact .tick d rest hs
    · exact .imageWrite k i v rest hs
    · exact .rst rest hs

/-! ### The invariant -/

section
variable {s : State}

theorem State.Inv.emptyBuf (h : s.Inv) : s.emptyBuf.Inv := by
  obtain ⟨hcfg, hid, hslave, -, -, hsend, -, herr, hexc, hmem⟩ := h
  exact ⟨hcfg, hid, hslave, Nat.zero_le _, by simp, hsend, fun _ _ => rfl, herr, hexc, hmem⟩

/-- An engine may only go to `IDLE` once its buffer is empty (R246 a). -/
theorem State.Inv.toIdle (h : s.Inv) (hb : s.buf = []) : s.toIdle.Inv := by
  obtain ⟨hcfg, hid, -, hlen, hlast, -, -, herr, hexc, hmem⟩ := h
  exact ⟨hcfg, hid, fun _ => rfl, hlen, hlast, by simp, fun _ _ => hb, herr, hexc, hmem⟩

theorem State.Inv.endTransaction (h : s.Inv) (hb : s.buf = []) : s.endTransaction.Inv := by
  by_cases h0 : s.ownId = 0
  · rw [State.endTransaction_master h0]; exact h.toIdle hb
  · rwa [State.endTransaction_slave h0]

theorem State.Inv.record (h : s.Inv) {k : ErrKind} {x : Byte} (hk : k ≠ .executionFailure)
    (hx : x ≠ 0 → k = .remoteException) : State.Inv { s with lastError := k, lastExc := x } := by
  obtain ⟨hcfg, hid, hslave, hlen, hlast, hsend, hidle, -, -, hmem⟩ := h
  exact ⟨hcfg, hid, hslave, hlen, hlast, hsend, hidle, hk, hx, hmem⟩

/-- R256, R266: the record of an earlier failure is cleared. -/
theorem State.Inv.clearRecord (h : s.Inv) : State.Inv { s with lastError := .none, lastExc := 0 } :=
  h.record (by decide) fun hx => absurd rfl hx

theorem State.Inv.withMem (h : s.Inv) {m : Memory} (hm : Memory.wf m = true) : State.Inv { s with mem := m } := by
  obtain ⟨hcfg, hid, hslave, hlen, hlast, hsend, hidle, herr, hexc, -⟩ := h
  exact ⟨hcfg, hid, hslave, hlen, hlast, hsend, hidle, herr, hexc, hm⟩

/-- Only the current image is written, and memory stays canonical. -/
theorem State.Inv.withImageOnly (h : s.Inv) {m : Memory} (hm : s.ImageOnly m) : State.Inv { s with mem := m } := by
  have ⟨_, _, _, _, _, _, _, _, _, hmem⟩ := h
  exact h.withMem (hm.1 hmem)

theorem State.Inv.answer (h : s.Inv) (r : OpResult) : (s.answer r).Inv := h

theorem State.Inv.pop (h : s.Inv) (rest : List Event) : (s.pop rest).Inv := h

theorem State.Inv.attach (h : s.Inv) (r : Option ImgRef) : State.Inv { s with imgRef := r } := h

theorem State.Inv.consume (h : s.Inv) : s.consume.Inv := h.emptyBuf

theorem State.Inv.ignore (h : s.Inv) : s.ignore.Inv := h.emptyBuf

theorem State.Inv.transmit (h : s.Inv) (f : List Byte) : (s.transmit f).Inv := h.emptyBuf

theorem State.Inv.takeException (h : s.Inv) {k : ErrKind} {x : Byte} (hk : k ≠ .executionFailure)
    (hx : x ≠ 0 → k = .remoteException) : (s.takeException k x).Inv :=
  (h.emptyBuf.endTransaction rfl).record hk hx

/-- R296: a failure found by the engine itself is recorded without a code of a peer. -/
theorem State.Inv.takeOwnException (h : s.Inv) {k : ErrKind} (hk : k ≠ .executionFailure) :
    (s.takeException k 0).Inv :=
  h.takeException hk fun hx => absurd rfl hx

theorem State.Inv.complete (h : s.Inv) (fc : Byte) : (s.complete fc).Inv :=
  (h.emptyBuf.endTransaction rfl).clearRecord

theorem State.Inv.refuseRequest (h : s.Inv) (rfc : Byte) {e : ExcKind} (he : e ≠ .executionFailure) :
    (s.refuseRequest rfc e).Inv := by
  refine (h.transmit _).takeOwnException ?_
  cases e
  case executionFailure => exact absurd rfl he
  all_goals decide

/-- R171, R173: bytes that fit are appended and stamped, by an engine that is not an idle master. -/
theorem State.Inv.read (h : s.Inv) (ha : s.ownId ≠ 0 ∨ s.phase = .waiting) (hq : s.rxq ≠ [])
    (hb : s.buf.length + s.rxq.length ≤ s.cfg.frameCap) :
    State.Inv { s with buf := s.buf ++ s.rxq, tLast := some s.now, rxq := [] } := by
  obtain ⟨hcfg, hid, hslave, -, -, hsend, -, herr, hexc, hmem⟩ := h
  refine ⟨hcfg, hid, hslave, by simpa using hb, by simp [hq], hsend, fun h0 hp => ?_, herr, hexc, hmem⟩
  rcases ha with h1 | hw
  · exact absurd h0 h1
  · exact absurd (hp.symm.trans hw) (by decide)

/-- R268: an id of 1 to 247 for an engine in `IDLE` makes a slave of it. -/
theorem State.Inv.setId (h : s.Inv) (hp : s.phase = .idle) {id : Byte} (h0 : id ≠ 0) (h1 : id.toNat ≤ 247) :
    State.Inv { s with ownId := id } := by
  obtain ⟨hcfg, -, -, hlen, hlast, hsend, -, herr, hexc, hmem⟩ := h
  exact ⟨hcfg, h1, fun _ => hp, hlen, hlast, hsend, fun h => absurd h h0, herr, hexc, hmem⟩

/-- R233: a master that sends a query waits, and holds the time of the sending. -/
theorem State.Inv.toWaiting (h : s.Inv) (h0 : s.ownId = 0) (t : Time) :
    State.Inv { s with phase := .waiting, tSend := some t } := by
  obtain ⟨hcfg, hid, -, hlen, hlast, -, -, herr, hexc, hmem⟩ := h
  exact ⟨hcfg, hid, fun h => absurd h0 h, hlen, hlast, by simp, by simp, herr, hexc, hmem⟩

theorem State.Inv.resetEngine (h : s.Inv) : s.resetEngine.Inv := by
  have ⟨hcfg, _, _, _, _, _, _, _, _, hmem⟩ := h
  exact (State.inv_resetWith hcfg).withMem hmem

theorem State.Inv.hostWrite (h : s.Inv) (k : Nat) (i v : Word) : (s.hostWrite k i v).Inv := by
  have ⟨_, _, _, _, _, _, _, _, _, hmem⟩ := h
  exact h.withMem (Memory.wf_setWord k i.toNat v hmem)

theorem State.Inv.length_le (h : s.Inv) : s.buf.length ≤ s.cfg.frameCap := by
  obtain ⟨-, -, -, hlen, -⟩ := h
  exact hlen

/-- R7: the buffer of every instance holds 9 bytes or more. -/
theorem State.Inv.nine_le_frameCap (h : s.Inv) : 9 ≤ s.cfg.frameCap := by
  obtain ⟨hcfg, -⟩ := h
  simp only [Config.Params.wf, Bool.and_eq_true, decide_eq_true_eq] at hcfg
  exact hcfg.1

end

theorem FrameEnd.inv {u t : State} (h : FrameEnd u t) (hu : u.Inv) : t.Inv := by
  cases h with
  | ignored => exact hu.ignore
  | dropped => exact hu.takeOwnException (by decide)
  | refused _ rfc e he => exact hu.refuseRequest rfc he
  | served _ m hm body fc => exact ((hu.withImageOnly hm).transmit _).complete fc
  | failed _ _ k x hk =>
    rcases hk with ⟨rfl, rfl⟩ | ⟨rfl, rfl⟩ | rfl
    · exact hu.takeOwnException (by decide)
    · exact hu.takeOwnException (by decide)
    · exact hu.takeException (by decide) fun _ => rfl
  | accepted _ _ m hm fc => exact (hu.withImageOnly hm).complete fc

theorem PollEnd.inv {s t : State} (h : PollEnd s t) (hs : s.Inv) : t.Inv := by
  cases h with
  | idle | silent => exact hs.answer _
  | timedOut => exact hs.takeOwnException (by decide)
  | read ha hq hb => exact (hs.read ha hq hb).answer _
  | overflow _ q => exact State.Inv.takeOwnException (s := { s.emptyBuf with rxq := q }) hs.emptyBuf (by decide)
  | frame _ _ _ hf => exact hf.inv hs.consume

theorem OpEnd.inv {s t : State} {i : Instr} (h : OpEnd s i t) (hs : s.Inv) : t.Inv := by
  cases h with
  | poll _ hp => exact hp.inv hs
  | pollr r _ hp => exact hp.inv (hs.attach (some r))
  | gotState | gotErr | gotIn | gotOut | gotErrCnt | idRejected | queryRefused => exact hs.answer _
  | started => exact (hs.emptyBuf.toIdle rfl).clearRecord
  | timeoutSet => exact hs
  | idSet id h0 h1 => exact (hs.emptyBuf.toIdle rfl).setId rfl h0 h1
  | queried tel master _ body => exact ((hs.attach (some tel.img)).transmit (append body)).toWaiting master s.now

theorem StepEnd.inv {s t : State} (h : StepEnd s t) (hs : s.Inv) : t.Inv := by
  cases h with
  | unscheduled | rxByte | tick => exact hs
  | op c i rest _ _ _ ho => exact ho.inv (hs.pop rest)
  | imageWrite k i v rest => exact (hs.pop rest).hostWrite k i v
  | rst rest => exact (hs.pop rest).resetEngine

/-- Settles O48: every ending of a step is built of updates that keep the invariant. -/
theorem everyStepKeepsTheInvariant : Obligations.EveryStepKeepsTheInvariant :=
  fun _ _ hs h => (step_ends hs.length_le h).inv hs

/-! ### The role -/

theorem FrameEnd.ownId_eq {u t : State} (h : FrameEnd u t) : t.ownId = u.ownId := by
  cases h <;> simp [State.refuseRequest]

theorem PollEnd.ownId_eq {s t : State} (h : PollEnd s t) : t.ownId = s.ownId := by
  cases h with
  | frame _ _ _ hf => exact hf.ownId_eq
  | timedOut | overflow => exact State.takeException_ownId _ _ _
  | idle | silent | read => rfl

/-- R24, R268: of the operations of the host only an accepted `SETID` changes the role. -/
theorem OpEnd.ownId_cases {s t : State} {i : Instr} (h : OpEnd s i t) :
    t.ownId = s.ownId ∨ ∃ id, i = .setId id ∧ t.ownId = id ∧ id ≠ 0 ∧ id.toNat ≤ 247 := by
  cases h with
  | poll _ hp => exact .inl hp.ownId_eq
  | pollr _ _ hp => exact .inl hp.ownId_eq
  | idSet id h0 h1 => exact .inr ⟨id, rfl, rfl, h0, h1⟩
  | gotState | gotErr | gotIn | gotOut | gotErrCnt | started | timeoutSet | idRejected | queryRefused | queried =>
    exact .inl rfl

/-- Settles O52: of the endings of a step, those of an accepted `SETID` and of the reset input alone write `own_id`. -/
theorem ownIdChangesOnlyBySetIdAndReset : Obligations.OwnIdChangesOnlyBySetIdAndReset := by
  intro s t hs h hne
  cases step_ends hs.length_le h with
  | unscheduled | rxByte | tick | imageWrite => exact absurd rfl hne
  | op c i rest _ hsch hd ho =>
    rcases ho.ownId_cases with he | ⟨id, rfl, he, h0, h1⟩
    · exact absurd he hne
    · have : id.toNat ≠ 0 := fun hz => h0 (BitVec.eq_of_toNat_eq hz)
      exact .inl ⟨c, id, rest, hsch, hd, he, by omega, h1⟩
  | rst rest hsch => exact .inr ⟨rest, hsch, rfl⟩

/-! ### The images -/

/-- R48, R76: how a poll from `s` to `t` may have come to change the byte at address `a`. -/
def State.WritesImage (s t : State) (a : Nat) : Prop :=
  ∃ fc r, t.result = .poll ⟨.done, fc, 0⟩ ∧
    (s.ownId ≠ 0 → fc ∈ [0x05#8, 0x06#8, 0x0F#8, 0x10#8]) ∧ (s.ownId = 0 → fc ∈ [0x01#8, 0x02#8, 0x03#8, 0x04#8]) ∧
    t.imgRef = some r ∧ ∃ i < r.cap.val, a = wordAddr r.handle i ∨ a = wordAddr r.handle i + 1

/-- A byte that a change of the current image alone changes lies in a word of it, below the capacity. -/
theorem State.ImageOnly.mem_image {s : State} {m : Memory} (hm : s.ImageOnly m) {a : Nat}
    (ha : Memory.read m a ≠ Memory.read s.mem a) :
    ∃ r, s.imgRef = some r ∧ ∃ i < r.cap.val, a = wordAddr r.handle i ∨ a = wordAddr r.handle i + 1 := by
  by_contra hout
  refine ha (hm.2 a fun r hr i hi => ⟨fun he => hout ?_, fun he => hout ?_⟩)
  · exact ⟨r, hr, i, hi, .inl he⟩
  · exact ⟨r, hr, i, hi, .inr he⟩

theorem FrameEnd.writesImage {u t : State} (h : FrameEnd u t) {a : Nat}
    (ha : Memory.read t.mem a ≠ Memory.read u.mem a) : u.WritesImage t a := by
  cases h with
  | ignored => exact absurd rfl ha
  | dropped | failed | refused => simp [State.refuseRequest] at ha
  | served slave m hm body fc _ _ hw =>
    simp only [State.complete_mem, State.transmit_mem] at ha
    have hfc := hw.resolve_left fun he => ha (by rw [he])
    obtain ⟨r, hr, hi⟩ := hm.mem_image ha
    exact ⟨fc, r, rfl, fun _ => hfc, fun h0 => absurd h0 slave, by simpa using hr, hi⟩
  | accepted master _ m hm fc hw =>
    simp only [State.complete_mem] at ha
    have hfc := hw.resolve_left fun he => ha (by rw [he])
    obtain ⟨r, hr, hi⟩ := hm.mem_image ha
    exact ⟨fc, r, rfl, fun h0 => absurd master h0, fun _ => hfc, by simpa using hr, hi⟩

theorem PollEnd.writesImage {s t : State} (h : PollEnd s t) {a : Nat}
    (ha : Memory.read t.mem a ≠ Memory.read s.mem a) : s.WritesImage t a := by
  cases h with
  | frame _ _ _ hf => exact hf.writesImage ha
  | timedOut | overflow => simp at ha
  | idle | silent | read => exact absurd rfl ha

/-- R115: only the two command codes of the polls decode to a poll. -/
theorem op_of_decodeCommand_poll {c : Command} {i : Instr} (h : decodeCommand c = .ok i)
    (hi : i = .poll ∨ ∃ r, i = .pollr r) : c.op = 0x4 ∨ c.op = 0x5 := by
  by_contra hout
  obtain ⟨h4, h5⟩ := not_or.1 hout
  simp only [decodeCommand, if_neg h4, if_neg h5] at h
  repeat' (split at h; · cases h; simp at hi)
  cases h

/-- R48: of the operations of the host only the two polls change an image. -/
theorem OpEnd.writesImage {s t : State} {i : Instr} (h : OpEnd s i t) {a : Nat}
    (ha : Memory.read t.mem a ≠ Memory.read s.mem a) : (i = .poll ∨ ∃ r, i = .pollr r) ∧ s.WritesImage t a := by
  cases h with
  | poll _ hp => exact ⟨.inl rfl, hp.writesImage ha⟩
  | pollr r _ hp => exact ⟨.inr ⟨r, rfl⟩, hp.writesImage ha⟩
  | gotState | gotErr | gotIn | gotOut | gotErrCnt | started | timeoutSet | idRejected | idSet | queryRefused | queried =>
    exact absurd rfl ha

/-- Settles O53: a frame changes only the current image, below its capacity, and only where it ends in `DONE`; of the
other endings of a step the host's own write alone changes memory. -/
theorem imagesChangeOnlyBelowTheCapacity : Obligations.ImagesChangeOnlyBelowTheCapacity := by
  intro s t a hs h ha
  cases step_ends hs.length_le h with
  | unscheduled | rxByte | tick | rst => exact absurd rfl ha
  | op c i rest _ hsch hd ho =>
    obtain ⟨hpoll, fc, r, hres, hw, hr, himg, hi⟩ := ho.writesImage ha
    exact .inr ⟨c, rest, fc, r, hsch, op_of_decodeCommand_poll hd hpoll, hres, hw, hr, himg, hi⟩
  | imageWrite k i v rest hsch =>
    refine .inl ⟨k, i, v, rest, hsch, ?_⟩
    by_contra hout
    obtain ⟨h0, h1⟩ := not_or.1 hout
    exact ha (Memory.read_setWord_other s.mem v h0 h1)

/-! ### What is transmitted -/

/-- R42: from `s` to `t` the transport was handed nothing, or one whole frame that fits, is in order and is counted. -/
def State.SendsAtMostOneFrame (s t : State) : Prop :=
  t.txLog = s.txLog ∨
  ∃ frame : List Byte, t.txLog = s.txLog ++ [.de true, .write frame, .flush, .de false] ∧
    verify frame = true ∧ frame.length ≤ s.cfg.frameCap ∧ t.outCnt = s.outCnt + 1 ∧ t.buf = [] ∧
    (s.ownId ≠ 0 → byteAt frame 0 = s.ownId)

/-- R104: a finished frame of 4 bytes or more has a good checksum. -/
theorem verify_append {b : List Byte} (h : 2 ≤ b.length) : verify (append b) = true := by
  rw [verify_iff]
  simp [h]

/-- A finished body that fits, and carries the id of the slave that sends it, is a whole good frame. -/
theorem State.sendsAtMostOneFrame_of_append {s t : State} {body : List Byte} (hb : 2 ≤ body.length)
    (hf : body.length + 2 ≤ s.cfg.frameCap) (hid : s.ownId ≠ 0 → byteAt body 0 = s.ownId)
    (htx : t.txLog = s.txLog ++ [.de true, .write (append body), .flush, .de false]) (hout : t.outCnt = s.outCnt + 1)
    (hbuf : t.buf = []) : s.SendsAtMostOneFrame t := by
  refine .inr ⟨append body, htx, verify_append hb, by simpa using hf, hout, hbuf, fun h0 => ?_⟩
  rw [byteAt_append_frame (by omega)]
  exact hid h0

theorem FrameEnd.sendsAtMostOneFrame {u t : State} (h : FrameEnd u t) (hcap : 9 ≤ u.cfg.frameCap) :
    u.SendsAtMostOneFrame t := by
  cases h with
  | ignored => exact .inl rfl
  | dropped | failed => exact .inl (State.takeException_txLog _ _ _)
  | accepted => exact .inl (State.complete_txLog _ _)
  | refused _ rfc e =>
    refine State.sendsAtMostOneFrame_of_append (body := bodyExc u.ownId (rfc.setWidth 7) (wireCode e))
      (by simp) (by simp; omega) (fun _ => rfl) ?_ ?_ ?_
    · exact State.takeException_txLog _ _ _
    · exact State.takeException_outCnt _ _ _
    · exact State.takeException_buf _ _ _
  | served _ m hm body fc hb hf _ hid =>
    refine State.sendsAtMostOneFrame_of_append hb (hf hcap) (fun _ => hid) ?_ ?_ ?_
    · exact State.complete_txLog _ _
    · exact State.complete_outCnt _ _
    · exact State.complete_buf _ _

theorem PollEnd.sendsAtMostOneFrame {s t : State} (h : PollEnd s t) (hcap : 9 ≤ s.cfg.frameCap) :
    s.SendsAtMostOneFrame t := by
  cases h with
  | frame _ _ _ hf => exact hf.sendsAtMostOneFrame hcap
  | timedOut | overflow => exact .inl (State.takeException_txLog _ _ _)
  | idle | silent | read => exact .inl rfl

theorem OpEnd.sendsAtMostOneFrame {s t : State} {i : Instr} (h : OpEnd s i t) (hcap : 9 ≤ s.cfg.frameCap) :
    s.SendsAtMostOneFrame t := by
  cases h with
  | poll _ hp => exact hp.sendsAtMostOneFrame hcap
  | pollr r _ hp => exact hp.sendsAtMostOneFrame hcap
  | queried tel master _ body hb hf =>
    exact State.sendsAtMostOneFrame_of_append hb hf (fun h0 => absurd master h0) rfl rfl rfl
  | gotState | gotErr | gotIn | gotOut | gotErrCnt | started | timeoutSet | idRejected | idSet | queryRefused =>
    exact .inl rfl

/-- Settles O56: a step sends only where a frame is refused or served and where a query is accepted, and each of these
sends one finished body. -/
theorem transmissionsAreWholeGoodFrames : Obligations.TransmissionsAreWholeGoodFrames := by
  intro s t hs h
  cases step_ends hs.length_le h with
  | op c i rest _ _ _ ho => exact ho.sendsAtMostOneFrame hs.nine_le_frameCap
  | unscheduled | rxByte | tick | imageWrite | rst => exact .inl rfl

/-! ### What holds no value -/

section
variable {s : State}

theorem memRead2_eq_none {buf : List Byte} {a : Nat} : memRead2 buf a = none ↔ buf.length ≤ a + 1 := by
  by_cases h : a + 1 < buf.length
  · simp [memRead2_of_lt h, h]
  · have hlo : memRead1 buf (a + 1) = none := memRead1_eq_none.2 (Nat.le_of_not_lt h)
    simp only [memRead2, hlo]
    simp; omega

theorem withByte_of_le {f : List Byte} {a : Nat} (h : f.length ≤ a) (use : Byte → Host.Outcome State Fault Refusal) :
    withByte f a use = .fault .absentRead := by
  rw [withByte, memRead1_eq_none.2 h]

theorem State.slaveFrame_of_empty (h : s.buf = []) : s.slaveFrame = .fault .absentRead :=
  withByte_of_le (by simp [h]) _

/-- R38: a frame of fewer than 6 bytes does not have its second field. -/
theorem validateFields_of_short {frameCap cap : Nat} {fc : Fc} {f : List Byte} (h : f.length < 6) :
    validateFields frameCap cap fc f = .error .absentRead := by
  have hw : memRead2 f 4 = none := memRead2_eq_none.2 (by omega)
  unfold validateFields
  rw [hw]
  split
  · contradiction
  · rfl

theorem State.receive_of_error {f : Fault} (h : s.rxStep = .error f)
    (frame : State → Host.Outcome State Fault Refusal) : s.receive frame = .fault f := by
  simp only [State.receive, h]

theorem State.pollBody_slave (h : s.ownId ≠ 0) : s.pollBody = s.receive State.slaveFrame := if_neg h

theorem State.pollBody_waiting (h : s.ownId = 0) (hp : s.phase = .waiting) : s.pollBody = s.masterPollWaiting := by
  simp only [State.pollBody, if_pos h, hp]

theorem State.rxStep_of_unstamped (hq : s.rxq = []) (hb : s.buf ≠ []) (ht : s.tLast = none) :
    s.rxStep = .error .absentRead := by
  rw [State.rxStep_silent hq, if_neg hb, ht]

theorem State.masterPollWaiting_of_unstamped (h : s.tSend = none) : s.masterPollWaiting = .fault .absentRead := by
  simp only [State.masterPollWaiting, h]

theorem State.decodeCoils_without_image (h : s.imgRef = none) {data : List Byte} (hd : data ≠ []) :
    s.decodeCoils data = .error .imageBound := by
  simp [State.decodeCoils, State.storeBytes, State.withImage, h, hd]

theorem State.accept_of_error (h : s.ownId = 0) (hw : s.phase = .waiting) {fc : Fc}
    {decoder : State → Except Fault State} {f : Fault} (hd : decoder s = .error f) :
    s.accept fc decoder = .fault f := by
  simp only [State.accept, if_pos (And.intro h hw), hd]

end

/-- Settles O59: each read of what holds no value, by the lemma of the reader. -/
theorem absentValuesReadAsFaults : Obligations.AbsentValuesReadAsFaults := by
  refine ⟨fun _ _ => memRead1_eq_none, fun _ _ => memRead2_eq_none, fun _ _ use h => withByte_of_le h use,
    fun _ h => State.slaveFrame_of_empty h, fun _ _ _ _ h => validateFields_of_short h, ?tLast, ?tSend, ?image⟩
  case tLast =>
    intro s h0 hq hb ht
    exact (State.pollBody_slave h0).trans (State.receive_of_error (State.rxStep_of_unstamped hq hb ht) _)
  case tSend =>
    intro s h0 hw ht
    exact (State.pollBody_waiting h0 hw).trans (State.masterPollWaiting_of_unstamped ht)
  case image =>
    intro s id data h0 hw hi hd
    have he := State.decodeCoils_without_image hi hd
    simp only [exec, execRdCoilsRsp, execRdDiscRsp]
    exact ⟨State.accept_of_error h0 hw he, State.accept_of_error h0 hw he⟩

/-! ### Where a step stops -/

theorem fetchCommand_of_ok {c : Command} {i : Instr} (h : decodeCommand c = .ok i) : fetchCommand c = .ok i := by
  simp only [fetchCommand, decode, h]

theorem fetchCommand_of_error {c : Command} {e : Reject} (h : decodeCommand c = .error e) :
    fetchCommand c = .error .reservedCommand := by
  simp only [fetchCommand, decode, h]

/-- Settles O11: the command port is read by the decoder. -/
theorem stepRunsTheHostOperation : Obligations.StepRunsTheHostOperation := by
  intro s c rest i h
  simp only [step, fetchCommand_of_ok h]
  rfl

/-! #### Requests: a slave always completes them -/

/-- R196: a word below the capacity lies in an image. -/
theorem State.imgRef_of_lt_cap {s : State} {n : Nat} (h : n < s.cap) :
    ∃ r, s.imgRef = some r ∧ n < r.cap.val := by
  unfold State.cap at h
  split at h
  · exact absurd h (Nat.not_lt_zero n)
  · rename_i r hr
    exact ⟨r, hr, h⟩

theorem State.readCoils_of_cap {s : State} {a q : Word} (h : (a.toNat + q.toNat - 1) / 16 < s.cap)
    (rsp : Byte → List Byte → Instr) : ∃ x, s.readCoils a q rsp = .ok x := by
  obtain ⟨r, hr, hi⟩ := State.imgRef_of_lt_cap h
  simp only [State.readCoils, State.loadCoils_of_cap hr fun _ => hi]
  exact ⟨_, rfl⟩

theorem State.readWords_of_cap {s : State} {a q : Word} (h : a.toNat + q.toNat - 1 < s.cap)
    (rsp : Byte → List Byte → Instr) : ∃ x, s.readWords a q rsp = .ok x := by
  obtain ⟨r, hr, hi⟩ := State.imgRef_of_lt_cap h
  simp only [State.readWords, State.loadWords_of_cap hr (a := a.toNat) (n := q.toNat) (by omega)]
  exact ⟨_, rfl⟩

theorem State.writeCoil_of_cap {s : State} {a v : Word} (h : a.toNat / 16 < s.cap) : ∃ x, s.writeCoil a v = .ok x := by
  obtain ⟨r, hr, hi⟩ := State.imgRef_of_lt_cap h
  simp only [State.writeCoil, State.storeCoils_of_cap hr (a := a.toNat) (bs := [hiByte v == 0xFF]) fun _ => hi]
  exact ⟨_, rfl⟩

theorem State.writeReg_of_cap {s : State} {a v : Word} (h : a.toNat < s.cap) : ∃ x, s.writeReg a v = .ok x := by
  obtain ⟨r, hr, hi⟩ := State.imgRef_of_lt_cap h
  simp only [State.writeReg, State.storeWords_of_cap hr (a := a.toNat) (ws := [v]) hi]
  exact ⟨_, rfl⟩

theorem State.writeCoils_of_cap {s : State} {a q : Word} {d : List Byte} (hq : q.toNat ≤ 8 * d.length)
    (h : (a.toNat + q.toNat - 1) / 16 < s.cap) : ∃ x, s.writeCoils a q d = .ok x := by
  obtain ⟨r, hr, hi⟩ := State.imgRef_of_lt_cap h
  rw [← length_unpackBits hq] at hi
  simp only [State.writeCoils, State.storeCoils_of_cap hr fun _ => hi]
  exact ⟨_, rfl⟩

theorem State.writeRegs_of_cap {s : State} {a q : Word} {d : List Byte} (h : a.toNat + q.toNat - 1 < s.cap) :
    ∃ x, s.writeRegs a q d = .ok x := by
  obtain ⟨r, hr, hi⟩ := State.imgRef_of_lt_cap h
  have hl : ((wordsOfBytes d).take q.toNat).length ≤ q.toNat := List.length_take_le _ _
  simp only [State.writeRegs, State.storeWords_of_cap hr (a := a.toNat) (ws := (wordsOfBytes d).take q.toNat) (by omega)]
  exact ⟨_, rfl⟩

/-- A slave ends a request by an answer, whatever the request, if its handler completes the requests in order. -/
theorem State.serve_completes {s : State} (h0 : s.ownId ≠ 0) {id : Byte} {fc : Fc} {a f2 : Word} {bc : Nat}
    {handler : State → Except Fault (Instr × State)}
    (hh : quantityOk s.cfg.frameCap fc f2.toNat bc = true → topIndex fc a.toNat f2.toNat < s.cap →
      ∃ x, handler s = .ok x) :
    ∃ t, s.serve id fc a f2 bc handler = .next t := by
  by_cases hid : id = s.ownId
  · subst hid
    cases hd : fieldDefect s.cfg.frameCap s.cap fc a f2 bc with
    | some e => exact ⟨_, State.serve_defect h0 hd⟩
    | none =>
      obtain ⟨hq, ht⟩ := fieldDefect_none.1 hd
      obtain ⟨⟨rsp, s'⟩, hx⟩ := hh hq ht
      exact ⟨_, State.serve_ok h0 hd hx⟩
  · exact ⟨s.ignore, by rw [State.serve, if_neg h0, if_pos hid]⟩

/-- R217: a slave completes every request, whatever its fields. -/
theorem exec_request_completes {s : State} (h0 : s.ownId ≠ 0) {i : Instr} (hi : i.requestFields.isSome = true) :
    ∃ t, exec i s = .next t := by
  cases i
  case rdCoilsReq | rdDiscReq =>
    simp only [exec, execRdCoilsReq, execRdDiscReq]
    exact State.serve_completes h0 fun _ ht => State.readCoils_of_cap ht _
  case rdHoldReq | rdInputReq =>
    simp only [exec, execRdHoldReq, execRdInputReq]
    exact State.serve_completes h0 fun _ ht => State.readWords_of_cap ht _
  case wrCoilReq =>
    simp only [exec, execWrCoilReq]
    exact State.serve_completes h0 fun _ ht => State.writeCoil_of_cap ht
  case wrRegReq =>
    simp only [exec, execWrRegReq]
    exact State.serve_completes h0 fun _ ht => State.writeReg_of_cap ht
  case wrCoilsReq id a q d =>
    simp only [exec, execWrCoilsReq]
    refine State.serve_completes h0 fun hq ht => State.writeCoils_of_cap ?_ ht
    simp only [quantityOk, Bool.and_eq_true, decide_eq_true_eq] at hq
    unfold ceilDiv at hq
    omega
  case wrRegsReq =>
    simp only [exec, execWrRegsReq]
    exact State.serve_completes h0 fun _ ht => State.writeRegs_of_cap ht
  all_goals cases hi

/-- R254, R255, R217: a slave completes every candidate frame that is not empty. -/
theorem State.slaveFrame_completes {s : State} (h0 : s.ownId ≠ 0) (hb : s.buf ≠ []) :
    ∃ t, s.slaveFrame = .next t := by
  by_cases hd : ∃ i, decodeRequest s.buf = .ok i
  · obtain ⟨i, hd⟩ := hd
    obtain ⟨fc, bc, -, -, -, hf, -⟩ := decodeRequest_fields hd
    rw [State.slaveFrame_runs h0 hd]
    exact exec_request_completes (s := s.consume) h0 (by simp [hf])
  · have hlen : 0 < s.buf.length := List.length_pos_iff.2 hb
    simp only [State.slaveFrame, withByte, memRead1_of_lt hlen]
    by_cases hid : byteAt s.buf 0 = s.consume.ownId
    · rw [if_neg (fun h => h hid)]
      rcases validateRequest_cases s.consume.cfg.frameCap s.consume.cap s.buf with ⟨v, hv, hne, he⟩ | ⟨-, hok⟩
      · rw [hv]
        cases v with
        | ok => exact absurd rfl hne
        | noReply => exact ⟨_, rfl⟩
        | illegal e =>
          simp only [memRead1_of_lt (he e rfl).2]
          exact ⟨_, rfl⟩
      · exact absurd hok hd
    · exact ⟨_, if_pos hid⟩

/-! #### Answers: a waiting master completes them, or its image is too small -/

/-- R159: an outcome that is a next state, or the fault of an image too small. -/
def CompletesOrImageBound (o : Host.Outcome State Fault Refusal) : Prop := (∃ t, o = .next t) ∨ o = .fault .imageBound

theorem CompletesOrImageBound.next (t : State) : CompletesOrImageBound (.next t) := .inl ⟨t, rfl⟩

theorem State.accept_completesOrImageBound {s : State} (h0 : s.ownId = 0) (hw : s.phase = .waiting) {fc : Fc}
    {decoder : State → Except Fault State} (hd : ∀ f, decoder s = .error f → f = .imageBound) :
    CompletesOrImageBound (s.accept fc decoder) := by
  cases hx : decoder s with
  | error f =>
    rw [State.accept_of_error h0 hw hx, hd f hx]
    exact .inr rfl
  | ok s' =>
    simp only [State.accept, if_pos (And.intro h0 hw), hx]
    exact .next _

theorem State.decodeCoils_error {s : State} {d : List Byte} {f : Fault} (h : s.decodeCoils d = .error f) :
    f = .imageBound := by
  unfold State.decodeCoils State.storeBytes at h
  exact (State.withImage_error h).1

theorem State.decodeWords_error {s : State} {d : List Byte} {f : Fault} (h : s.decodeWords d = .error f) :
    f = .imageBound := by
  unfold State.decodeWords State.storeWords at h
  exact (State.withImage_error h).1

theorem withResponseData_ok {f : List Byte} {build : List Byte → Instr} {i : Instr}
    (h : withResponseData f build = .ok i) : ∃ d, i = build d := by
  unfold withResponseData at h
  split at h
  · cases h
  · cases h; exact ⟨_, rfl⟩

theorem withTwoWords_ok {f : List Byte} {build : Word → Word → Instr} {i : Instr}
    (h : withTwoWords f build = .ok i) : ∃ a w, i = build a w := by
  unfold withTwoWords at h
  split at h
  · cases h; exact ⟨_, _, rfl⟩
  · cases h

theorem exceptionOf_ok {b : Byte} {f : List Byte} {i : Instr} (h : exceptionOf b f = .ok i) :
    ∃ id fn code, i = .excRsp id fn code := by
  unfold exceptionOf at h
  split at h
  · cases h; exact ⟨_, _, _, rfl⟩
  · cases h

/-- R241: a normal answer is decoded by its own function code, into the image or not at all. -/
theorem responseOf_completesOrImageBound {fc : Fc} {f : List Byte} {i : Instr} (h : responseOf fc f = .ok i)
    {s : State} (h0 : s.ownId = 0) (hw : s.phase = .waiting) : CompletesOrImageBound (dispatchFrame i s) := by
  unfold responseOf at h
  split at h
  · cases h
  · cases fc
    case rdCoils | rdDisc =>
      obtain ⟨d, rfl⟩ := withResponseData_ok h
      simp only [dispatchFrame, execRdCoilsRsp, execRdDiscRsp]
      exact State.accept_completesOrImageBound h0 hw fun _ => State.decodeCoils_error
    case rdHold | rdInput =>
      obtain ⟨d, rfl⟩ := withResponseData_ok h
      simp only [dispatchFrame, execRdHoldRsp, execRdInputRsp]
      exact State.accept_completesOrImageBound h0 hw fun _ => State.decodeWords_error
    case wrCoil | wrReg | wrCoils | wrRegs =>
      obtain ⟨a, w, rfl⟩ := withTwoWords_ok h
      simp only [dispatchFrame, execWrCoilRsp, execWrRegRsp, execWrCoilsRsp, execWrRegsRsp]
      exact State.accept_completesOrImageBound h0 hw fun _ he => by cases he

theorem exceptionOf_completes {b : Byte} {f : List Byte} {i : Instr} (h : exceptionOf b f = .ok i)
    {s : State} (h0 : s.ownId = 0) (hw : s.phase = .waiting) : ∃ t, dispatchFrame i s = .next t := by
  obtain ⟨id, fn, code, rfl⟩ := exceptionOf_ok h
  simp only [dispatchFrame, execExcRsp, if_pos (And.intro h0 hw)]
  exact ⟨_, rfl⟩

theorem decodeResponse_completesOrImageBound {f : List Byte} {i : Instr} (h : decodeResponse f = .ok i)
    {s : State} (h0 : s.ownId = 0) (hw : s.phase = .waiting) : CompletesOrImageBound (dispatchFrame i s) := by
  unfold decodeResponse at h
  split at h
  · split at h
    · cases h
    · split at h
      · split at h
        · exact .inl (exceptionOf_completes h h0 hw)
        · cases h
      · split at h
        · cases h
        · split at h
          · exact responseOf_completesOrImageBound h h0 hw
          · cases h
  · cases h

theorem State.masterFrame_completesOrImageBound {s : State} (h0 : s.ownId = 0) (hw : s.phase = .waiting) :
    CompletesOrImageBound s.masterFrame := by
  unfold State.masterFrame
  rcases validateAnswer_cases s.buf with hv | hv | ⟨hv, i, hd⟩
  · simp only [hv]; exact .next _
  · simp only [hv]; exact .next _
  · have hi : CompletesOrImageBound (runFrame .response s.buf s.consume) := by
      rw [runFrame_of_ok hd]
      exact decodeResponse_completesOrImageBound hd (s := s.consume) h0 hw
    rcases hv with hv | ⟨code, hv⟩
    · simpa only [hv] using hi
    · simpa only [hv] using hi

/-! #### Polls, queries and steps -/

/-- R32: where the stamp is there while bytes are buffered, the detector ends the poll or hands on a frame. -/
theorem State.receive_completes_or_frame {s : State} (hs : s.Inv)
    (frame : State → Host.Outcome State Fault Refusal) :
    (∃ t, s.receive frame = .next t) ∨ s.buf ≠ [] ∧ s.receive frame = frame s := by
  have ⟨_, _, _, hlen, hlast, _⟩ := hs
  unfold State.receive
  by_cases hq : s.rxq = []
  · rw [State.rxStep_silent hq]
    by_cases hb : s.buf = []
    · rw [if_pos hb]; exact .inl ⟨_, rfl⟩
    · obtain ⟨u, hu⟩ := Option.isSome_iff_exists.1 (hlast.2 hb)
      rw [if_neg hb, hu]
      by_cases he : s.cfg.tIdle ≤ s.elapsed u
      · simp only [if_pos he]; exact .inr ⟨hb, trivial⟩
      · simp only [if_neg he]; exact .inl ⟨_, rfl⟩
  · rw [State.rxStep_reads hq hlen]
    by_cases hl : s.buf.length + s.rxq.length ≤ s.cfg.frameCap
    · simp only [if_pos hl]; exact .inl ⟨_, rfl⟩
    · simp only [if_neg hl]; exact .inl ⟨_, rfl⟩

/-- R217: no poll of a slave ever stops. -/
theorem State.pollBody_slave_completes {s : State} (hs : s.Inv) (h0 : s.ownId ≠ 0) : ∃ t, s.pollBody = .next t := by
  rw [State.pollBody_slave h0]
  rcases State.receive_completes_or_frame hs State.slaveFrame with h | ⟨hb, h⟩
  · exact h
  · rw [h]; exact State.slaveFrame_completes h0 hb

theorem State.pollBody_master_completesOrImageBound {s : State} (hs : s.Inv) (h0 : s.ownId = 0) :
    CompletesOrImageBound s.pollBody := by
  have ⟨_, _, _, _, _, hsend, _⟩ := hs
  cases hp : s.phase with
  | idle =>
    simp only [State.pollBody, if_pos h0, hp]
    exact .next _
  | waiting =>
    obtain ⟨u, hu⟩ := Option.isSome_iff_exists.1 (hsend.2 hp)
    rw [State.pollBody_waiting h0 hp]
    simp only [State.masterPollWaiting, hu]
    split
    · exact .next _
    · rcases State.receive_completes_or_frame hs State.masterFrame with h | ⟨-, h⟩
      · exact .inl h
      · rw [h]; exact State.masterFrame_completesOrImageBound h0 hp

/-- The outcomes the spec allows a step at `s`: it ends, or it stops as U1, U2 or U3 say (R38, R159, R234, R274). -/
def State.MayEndIn (s : State) : Host.Outcome State Fault Refusal → Prop
  | .next _ => True
  | .fault f => f = .imageBound ∧ s.ownId = 0
  | .refused r =>
    r = .reservedCommand ∨ (s.ownId = 0 ∧ s.phase = .idle ∧ (r = .telegramUnsupported ∨ r = .telegramDoesNotFit))

theorem CompletesOrImageBound.mayEndIn {o : Host.Outcome State Fault Refusal} (h : CompletesOrImageBound o)
    {s : State} (h0 : s.ownId = 0) : s.MayEndIn o := by
  rcases h with ⟨t, rfl⟩ | rfl
  · trivial
  · exact ⟨rfl, h0⟩

theorem State.pollBody_mayEndIn {s : State} (hs : s.Inv) : s.MayEndIn s.pollBody := by
  by_cases h0 : s.ownId = 0
  · exact (State.pollBody_master_completesOrImageBound hs h0).mayEndIn h0
  · obtain ⟨t, ht⟩ := State.pollBody_slave_completes hs h0
    rw [ht]; trivial

theorem Except.map_eq_error {ε α β : Type} {g : α → β} {x : Except ε α} {e : ε} (h : x.map g = .error e) :
    x = .error e := by
  cases x with
  | error e' => cases h; rfl
  | ok a => cases h

/-- R159: a request is not encoded only where the image is too small. -/
theorem State.requestFor_error {s : State} {fc : Fc} {tel : Telegram} {f : Fault}
    (h : s.requestFor fc tel = .error f) : f = .imageBound := by
  cases fc
  case rdCoils | rdDisc | rdHold | rdInput => cases h
  case wrCoil | wrReg | wrCoils | wrRegs => exact (State.withImage_error (Except.map_eq_error h)).1

theorem execQuery_mayEndIn (tel : Telegram) (s : State) : s.MayEndIn (execQuery tel s) := by
  unfold execQuery
  split
  · trivial
  · rename_i h0
    have h0 : s.ownId = 0 := by simpa using h0
    split
    · trivial
    · rename_i hp
      have hp : s.phase = .idle := by simpa using hp
      split
      · trivial
      · split
        · exact .inr ⟨h0, hp, .inl rfl⟩
        · split
          · unfold State.sendQuery
            simp only
            split
            · rename_i f hf
              exact ⟨State.requestFor_error hf, h0⟩
            · trivial
          · exact .inr ⟨h0, hp, .inr rfl⟩

theorem exec_mayEndIn {c : Command} {i : Instr} (hd : decodeCommand c = .ok i) {s : State} (hs : s.Inv) :
    s.MayEndIn (exec i s) := by
  have hm := decodeCommand_op hd
  simp only [List.mem_cons, List.not_mem_nil, or_false] at hm
  rcases hm with rfl | rfl | rfl | rfl | rfl | rfl | rfl | rfl | rfl | rfl | rfl
  · trivial
  · trivial
  · simp only [exec, execSetId]
    split <;> trivial
  · exact execQuery_mayEndIn _ s
  · exact State.pollBody_mayEndIn hs
  · exact State.pollBody_mayEndIn (hs.attach (some c.img))
  all_goals trivial

theorem step_mayEndIn {s : State} (hs : s.Inv) : s.MayEndIn (step s) := by
  unfold step
  split
  case h_2 c rest _ =>
    cases hd : decodeCommand c with
    | error e => rw [fetchCommand_of_error hd]; exact .inl rfl
    | ok i => rw [fetchCommand_of_ok hd]; exact exec_mayEndIn hd (hs.pop rest)
  all_goals trivial

/-- Settles O50: a poll of a slave completes, that of a master completes or finds its image too small, a query stops as
U1 and U2 say, and no other operation stops. -/
theorem onlyTheSpecsOwnStopsAreReached : Obligations.OnlyTheSpecsOwnStopsAreReached := by
  intro s hs
  have h := step_mayEndIn hs
  exact ⟨fun f hf => by rwa [hf] at h, fun r hr => by rwa [hr] at h⟩

end Sys2Proof.Machine

/-! ## The encoding: frames, commands, the opcode table, and registers on the wire -/

namespace Sys2Proof.Machine

/-! ### A frame that decodes is the encoding of what it decodes to -/

/-- R104: a frame whose checksum matches is its own body, finished. -/
theorem append_of_verify {f : List Byte} (h : verify f = true) : append (f.take (f.length - 2)) = f := by
  obtain ⟨h4, hc⟩ := (verify_iff f).1 h
  have htail : f.drop (f.length - 2) = field (compute (f.take (f.length - 2))) := by
    rw [hc, List.drop_eq_getElem_cons (by omega), List.drop_eq_getElem_cons (by omega),
      List.drop_eq_nil_of_le (by omega)]
    simp [field, wordAt, byteAt, List.getD_eq_getElem?_getD, show f.length - 2 < f.length by omega,
      show f.length - 2 + 1 < f.length by omega]
  calc append (f.take (f.length - 2))
      = f.take (f.length - 2) ++ f.drop (f.length - 2) := by rw [htail]; rfl
    _ = f := List.take_append_drop _ _

/-- R92, R95: the first six bytes of a frame, from its fields. -/
theorem take_six_eq_bodySix {f : List Byte} (h : 6 ≤ f.length) :
    f.take 6 = bodySix (byteAt f 0) (byteAt f 1) (wordAt f 2) (wordAt f 4) := by
  match f, h with
  | b0 :: b1 :: b2 :: b3 :: b4 :: b5 :: rest, _ => simp [bodySix, field, byteAt, wordAt]

/-- R94: the id and the function code of a frame. -/
theorem take_two_eq {f : List Byte} (h : 2 ≤ f.length) : f.take 2 = [byteAt f 0, byteAt f 1] := by
  match f, h with
  | b0 :: b1 :: rest, _ => simp [byteAt]

theorem length_dataBytes {f : List Byte} {a : Nat} {bc : Byte} (h : a + bc.toNat ≤ f.length) :
    (dataBytes f a bc).length = bc.toNat := by
  simp [dataBytes]; omega

/-- R93, R94: the byte count and the data from offset `a` upward. -/
theorem take_drop_eq_cons_dataBytes {f : List Byte} {a : Nat} (h : a + 1 + (byteAt f a).toNat ≤ f.length) :
    (f.drop a).take (1 + (byteAt f a).toNat) =
      BitVec.ofNat 8 (dataBytes f (a + 1) (byteAt f a)).length :: dataBytes f (a + 1) (byteAt f a) := by
  rw [length_dataBytes h, List.drop_eq_getElem_cons (by omega), Nat.add_comm 1, List.take_succ_cons]
  simp [dataBytes, byteAt, List.getD_eq_getElem?_getD, show a < f.length by omega]

/-- R92, R95: a whole frame of eight bytes is the encoding of its fields. -/
theorem append_bodySix_of_verify {f : List Byte} {fc : Fc} (hv : verify f = true) (hfc : fcOf (byteAt f 1) = some fc)
    (hl : f.length = 8) : append (bodySix (byteAt f 0) (fcByte fc) (wordAt f 2) (wordAt f 4)) = f := by
  have htake := take_six_eq_bodySix (show 6 ≤ f.length by omega)
  rw [show 6 = f.length - 2 by omega] at htake
  rw [fcByte_of_fcOf hfc, ← htake, append_of_verify hv]

/-- R93: a whole frame with data after six bytes is the encoding of its fields and its data. -/
theorem append_bodyRqm_of_verify {f : List Byte} {fc : Fc} (hv : verify f = true) (hfc : fcOf (byteAt f 1) = some fc)
    (hl : f.length = 9 + (byteAt f 6).toNat) :
    append (bodyRqm (byteAt f 0) (fcByte fc) (wordAt f 2) (wordAt f 4) (dataBytes f 7 (byteAt f 6))) = f := by
  have htake : f.take (f.length - 2) =
      bodyRqm (byteAt f 0) (byteAt f 1) (wordAt f 2) (wordAt f 4) (dataBytes f 7 (byteAt f 6)) := by
    have hdata := take_drop_eq_cons_dataBytes (f := f) (a := 6) (by omega)
    rw [show f.length - 2 = 6 + (1 + (byteAt f 6).toNat) by omega, List.take_add, hdata, take_six_eq_bodySix (by omega)]
    rfl
  rw [fcByte_of_fcOf hfc, ← htake, append_of_verify hv]

/-- R94: a whole frame with data after two bytes is the encoding of its id, its function code and its data. -/
theorem append_bodyRsb_of_verify {f : List Byte} {fc : Fc} (hv : verify f = true) (hfc : fcOf (byteAt f 1) = some fc)
    (hl : f.length = 5 + (byteAt f 2).toNat) :
    append (bodyRsb (byteAt f 0) (fcByte fc) (dataBytes f 3 (byteAt f 2))) = f := by
  have htake : f.take (f.length - 2) = bodyRsb (byteAt f 0) (byteAt f 1) (dataBytes f 3 (byteAt f 2)) := by
    have hdata := take_drop_eq_cons_dataBytes (f := f) (a := 2) (by omega)
    rw [show f.length - 2 = 2 + (1 + (byteAt f 2).toNat) by omega, List.take_add, hdata, take_two_eq (by omega)]
    rfl
  rw [fcByte_of_fcOf hfc, ← htake, append_of_verify hv]

/-- R96: a byte with bit 7 set is that bit and the seven below it. -/
theorem append_setWidth_of_bit7 {b : Byte} (h : b.getLsbD 7 = true) : (1#1 ++ b.setWidth 7 : BitVec 8) = b := by
  revert b; decide

/-- R96: a whole frame of five bytes whose function byte has bit 7 set is the encoding of its fields. -/
theorem append_bodyExc_of_verify {f : List Byte} (hv : verify f = true) (h7 : (byteAt f 1).getLsbD 7 = true)
    (hl : f.length = 5) : append (bodyExc (byteAt f 0) ((byteAt f 1).setWidth 7) (byteAt f 2)) = f := by
  have htake : f.take (f.length - 2) = bodyExc (byteAt f 0) ((byteAt f 1).setWidth 7) (byteAt f 2) := by
    unfold bodyExc
    rw [append_setWidth_of_bit7 h7]
    match f, hl with
    | [b0, b1, b2, b3, b4], _ => rfl
  rw [← htake, append_of_verify hv]

/-- R93, R94: the data of a frame that fits the buffer are well-formed. -/
theorem dataFits_dataBytes {frameCap rest a : Nat} {f : List Byte} {bc : Byte} (hcap : f.length ≤ frameCap)
    (hl : f.length = rest + bc.toNat) (ha : a ≤ rest) : dataFits frameCap rest (dataBytes f a bc) = true := by
  have := bc.isLt
  simp only [dataFits, length_dataBytes (show a + bc.toNat ≤ f.length by omega), Bool.and_eq_true, decide_eq_true_eq]
  omega

/-- A frame that decodes as a response: an exception, or an answer of a function code. -/
theorem decodeResponse_ok {f : List Byte} {i : Instr} :
    decodeResponse f = .ok i ↔ verify f = true ∧
      ((byteAt f 1).getLsbD 7 = true ∧ f.length = 5 ∧ exceptionOf (byteAt f 1) f = .ok i ∨
        ∃ fc, fcOf (byteAt f 1) = some fc ∧ wellFormedResponse fc f = true ∧ responseOf fc f = .ok i) := by
  unfold decodeResponse
  by_cases hv : verify f = true
  · have h4 := ((verify_iff f).1 hv).1
    rw [if_pos hv, memRead1_of_lt (by omega)]
    by_cases h7 : (byteAt f 1).getLsbD 7 = true
    · simp only [hv, h7, fcOf_none_of_bit7 h7]
      by_cases hl : f.length = 5 <;> simp [hl]
    · simp only [hv, h7]
      cases hfc : fcOf (byteAt f 1) with
      | none => simp
      | some fc => by_cases hw : wellFormedResponse fc f = true <;> simp [hw]
  · simp [hv]

/-- R104, R107: a frame that decodes as a request is the encoding of that request. -/
theorem wf_and_encode_of_decodeRequest {frameCap : Nat} {f : List Byte} {i : Instr} (hcap : f.length ≤ frameCap)
    (h : decodeRequest f = .ok i) : i.wf frameCap = true ∧ encode i = .frame .request f := by
  obtain ⟨fc, hv, hfc, hw, hi⟩ := decodeRequest_ok.1 h
  obtain ⟨h8, hl⟩ := wellFormedRequest_length hw
  cases fc
  case wrCoils | wrRegs =>
    have hl := hl (by simp)
    simp only [requestFrom, withRequestData_eq _ (show 6 < f.length by omega)] at hi
    cases hi
    exact ⟨dataFits_dataBytes hcap hl (by omega), congrArg _ (append_bodyRqm_of_verify hv hfc hl)⟩
  all_goals
    cases hi
    exact ⟨decide_eq_true (Nat.le_trans h8 hcap),
      congrArg _ (append_bodySix_of_verify hv hfc (of_decide_eq_true hw))⟩

/-- R107: an answer of the right length is the encoding of its fields. -/
theorem wf_and_encode_of_responseOf {frameCap : Nat} {f : List Byte} {fc : Fc} {i : Instr} (hcap : f.length ≤ frameCap)
    (hv : verify f = true) (hfc : fcOf (byteAt f 1) = some fc) (hw : wellFormedResponse fc f = true)
    (h : responseOf fc f = .ok i) : i.wf frameCap = true ∧ encode i = .frame .response f := by
  obtain ⟨h5, hdata, hsix⟩ := wellFormedResponse_length hw
  simp only [responseOf, memRead1_of_lt (show 0 < f.length by omega)] at h
  cases fc
  case rdCoils | rdDisc | rdHold | rdInput =>
    have hl := hdata (by simp)
    simp only [withResponseData_eq _ (show 2 < f.length by omega)] at h
    cases h
    exact ⟨dataFits_dataBytes hcap hl (by omega), congrArg _ (append_bodyRsb_of_verify hv hfc hl)⟩
  all_goals
    have hl := hsix (by simp)
    simp only [withTwoWords_eq _ (show 5 < f.length by omega)] at h
    cases h
    exact ⟨decide_eq_true (by omega), congrArg _ (append_bodySix_of_verify hv hfc hl)⟩

/-- R104, R107: a frame that decodes as a response is the encoding of that response. -/
theorem wf_and_encode_of_decodeResponse {frameCap : Nat} {f : List Byte} {i : Instr} (hcap : f.length ≤ frameCap)
    (h : decodeResponse f = .ok i) : i.wf frameCap = true ∧ encode i = .frame .response f := by
  obtain ⟨hv, ⟨h7, hl, hi⟩ | ⟨fc, hfc, hw, hi⟩⟩ := decodeResponse_ok.1 h
  · rw [exceptionOf_eq hl] at hi
    cases hi
    exact ⟨decide_eq_true (by omega), congrArg _ (append_bodyExc_of_verify hv h7 hl)⟩
  · exact wf_and_encode_of_responseOf hcap hv hfc hw hi

/-- Settles O3: the checksum makes a frame its own body finished, and the length makes the body that of its fields. -/
theorem encodingInvertsDecodingOfFrames : Obligations.EncodingInvertsDecodingOfFrames := by
  intro frameCap d f i hcap h
  cases d with
  | request => exact wf_and_encode_of_decodeRequest hcap h
  | response => exact wf_and_encode_of_decodeResponse hcap h

/-! ### The opcode table admits one row -/

/-- R105, R115: the table's row of every instruction admits its code. -/
theorem row_admits_encode : ∀ i, Laws.RowMatches.Statement i
  | .rdCoilsReq .. => Laws.RowMatches.rdCoilsReq ..
  | .rdDiscReq .. => Laws.RowMatches.rdDiscReq ..
  | .rdHoldReq .. => Laws.RowMatches.rdHoldReq ..
  | .rdInputReq .. => Laws.RowMatches.rdInputReq ..
  | .wrCoilReq .. => Laws.RowMatches.wrCoilReq ..
  | .wrRegReq .. => Laws.RowMatches.wrRegReq ..
  | .wrCoilsReq .. => Laws.RowMatches.wrCoilsReq ..
  | .wrRegsReq .. => Laws.RowMatches.wrRegsReq ..
  | .rdCoilsRsp .. => Laws.RowMatches.rdCoilsRsp ..
  | .rdDiscRsp .. => Laws.RowMatches.rdDiscRsp ..
  | .rdHoldRsp .. => Laws.RowMatches.rdHoldRsp ..
  | .rdInputRsp .. => Laws.RowMatches.rdInputRsp ..
  | .wrCoilRsp .. => Laws.RowMatches.wrCoilRsp ..
  | .wrRegRsp .. => Laws.RowMatches.wrRegRsp ..
  | .wrCoilsRsp .. => Laws.RowMatches.wrCoilsRsp ..
  | .wrRegsRsp .. => Laws.RowMatches.wrRegsRsp ..
  | .excRsp .. => Laws.RowMatches.excRsp ..
  | .start => Laws.RowMatches.start
  | .setTmo _ => Laws.RowMatches.setTmo _
  | .setId _ => Laws.RowMatches.setId _
  | .query _ => Laws.RowMatches.query _
  | .poll => Laws.RowMatches.poll
  | .pollr _ => Laws.RowMatches.pollr _
  | .getState => Laws.RowMatches.getState
  | .getErr => Laws.RowMatches.getErr
  | .getIn => Laws.RowMatches.getIn
  | .getOut => Laws.RowMatches.getOut
  | .getErrCnt => Laws.RowMatches.getErrCnt

/-- R105: two rows of one space whose patterns agree on the bits both masks keep are one row. -/
theorem opcodeTable_unambiguous : ∀ r ∈ opcodeTable, ∀ r' ∈ opcodeTable,
    r.host = r'.host → r.pattern &&& r'.mask = r'.pattern &&& r.mask → r = r' := by
  decide

theorem nodup_opcodeTable : opcodeTable.Nodup := by decide

theorem Row.admits_iff {r : Row} {c : Code} :
    r.admits c = true ↔ ∃ k, tableKey c = some (r.host, k) ∧ k &&& r.mask = r.pattern := by
  cases hk : tableKey c with
  | none => simp [Row.admits, hk]
  | some key =>
    obtain ⟨host, k⟩ := key
    simp [Row.admits, hk]

/-- R105: no code is admitted by two rows. -/
theorem Row.eq_of_admits {r r' : Row} {c : Code} (hr : r ∈ opcodeTable) (hr' : r' ∈ opcodeTable)
    (h : r.admits c = true) (h' : r'.admits c = true) : r = r' := by
  obtain ⟨k, hk, hm⟩ := Row.admits_iff.1 h
  obtain ⟨k', hk', hm'⟩ := Row.admits_iff.1 h'
  obtain ⟨hhost, rfl⟩ : r.host = r'.host ∧ k = k' := by simpa using hk.symm.trans hk'
  refine opcodeTable_unambiguous r hr r' hr' hhost ?_
  rw [← hm, ← hm', Nat.and_assoc, Nat.and_assoc, Nat.and_comm r.mask]

/-- R105: where a row of the table admits a code, it is the only one that does. -/
theorem filter_admits_of_admits {r : Row} {c : Code} (hr : r ∈ opcodeTable) (h : r.admits c = true) :
    opcodeTable.filter (fun r' => r'.admits c) = [r] := by
  have honly : ∀ r' ∈ opcodeTable, r'.admits c = (r' == r) := by
    intro r' hr'
    rw [Bool.eq_iff_iff, beq_iff_eq]
    exact ⟨fun h' => Row.eq_of_admits hr' hr h' h, fun he => he ▸ h⟩
  rw [List.filter_congr honly, List.filter_beq, List.count_eq_one_of_mem nodup_opcodeTable hr]
  rfl

/-- R115: a command decodes to an operation of its own code. -/
theorem tableKey_encode_of_decodeCommand {c : Command} {i : Instr} (h : decodeCommand c = .ok i) :
    tableKey (encode i) = tableKey (.host c) := by
  unfold decodeCommand at h
  repeat' (split at h; · rename_i hop; cases h; simp [encode, telegramCommand, tableKey, hop])
  cases h

/-- A code that decodes has the table's key of the encoding of what it decodes to. -/
theorem tableKey_encode_of_decode {c : Code} {i : Instr} (h : decode c = .ok i) :
    tableKey (encode i) = tableKey c := by
  cases c with
  | frame d f => rw [(encodingInvertsDecodingOfFrames f.length d f i (Nat.le_refl _) h).2]
  | host c => exact tableKey_encode_of_decodeCommand h

/-- Settles O4: the code has the key of the instruction's encoding, which the instruction's own row admits, and the rows
of the table exclude each other. -/
theorem decodedCodesMatchExactlyTheirRow : Obligations.DecodedCodesMatchExactlyTheirRow := by
  intro c i h
  obtain ⟨r, hr, hadm⟩ : ∃ r, opcodeTable[i.rowIndex]? = some r ∧ r.admits (encode i) = true :=
    (Option.any_eq_true ..).1 (row_admits_encode i)
  rw [Row.admits_iff, tableKey_encode_of_decode h, ← Row.admits_iff] at hadm
  rw [filter_admits_of_admits (List.mem_of_getElem? hr) hadm, hr]
  rfl

/-! ### Every encoding decodes to its instruction -/

/-- The function code and the length decide that a finished body is a request of that code (R107). -/
theorem decodeRequest_append {id : Byte} {fc : Fc} {a w : Word} {rest : List Byte}
    (hw : wellFormedRequest fc (append (bodySix id (fcByte fc) a w ++ rest)) = true) :
    decodeRequest (append (bodySix id (fcByte fc) a w ++ rest)) =
      requestFrom fc (append (bodySix id (fcByte fc) a w ++ rest)) id a w := by
  have hf : append (bodySix id (fcByte fc) a w ++ rest) =
      bodySix id (fcByte fc) a w ++ (rest ++ field (compute (bodySix id (fcByte fc) a w ++ rest))) :=
    List.append_assoc _ _ _
  obtain ⟨h0, h1, h2, h4⟩ := hf ▸ fields_bodySix id (fcByte fc) a w _
  obtain ⟨i, hi⟩ := requestFrom_ok (wellFormedRequest_length hw).1 id a w
  rw [hi]
  refine decodeRequest_ok.2 ⟨fc, verify_append (by simp; omega), by rw [h1, fcOf_fcByte], hw, ?_⟩
  rw [h0, h2, h4, hi]

/-- R92: the six codes whose requests are eight bytes long. -/
theorem decodeRequest_append_bodySix {fc : Fc} (hc : fc ≠ .wrCoils) (hr : fc ≠ .wrRegs) (id : Byte) (a w : Word) :
    decodeRequest (append (bodySix id (fcByte fc) a w)) =
      requestFrom fc (append (bodySix id (fcByte fc) a w)) id a w := by
  have hw : wellFormedRequest fc (append (bodySix id (fcByte fc) a w)) = true := by
    cases fc
    case wrCoils => exact absurd rfl hc
    case wrRegs => exact absurd rfl hr
    all_goals rfl
  exact decodeRequest_append (rest := []) hw

/-- R93, R94, R100: the data at offset `a` are read back from their number. -/
theorem dataBytes_of_drop {f d post : List Byte} {a : Nat} (hdrop : f.drop a = d ++ post) (hd : d.length ≤ 255) :
    dataBytes f a (BitVec.ofNat 8 d.length) = d := by
  have hbc : (BitVec.ofNat 8 d.length).toNat = d.length := by simp; omega
  rw [dataBytes, hdrop, hbc, List.take_left]

theorem length_le_of_dataFits {frameCap rest : Nat} {d : List Byte} (h : dataFits frameCap rest d = true) :
    d.length ≤ 255 := by
  simp only [dataFits, Bool.and_eq_true, decide_eq_true_eq] at h
  exact h.1

section
variable {fc : Fc} {d : List Byte}

theorem withRequestData_append_bodyRqm (hd : d.length ≤ 255) (id b : Byte) (a q : Word) (build : List Byte → Instr) :
    withRequestData (append (bodyRqm id b a q d)) build = .ok (build d) := by
  have hbc : memRead1 (append (bodyRqm id b a q d)) 6 = some (BitVec.ofNat 8 d.length) := rfl
  have hdrop : (append (bodyRqm id b a q d)).drop 7 = d ++ field (compute (bodyRqm id b a q d)) := rfl
  simp only [withRequestData, hbc, dataBytes_of_drop hdrop hd]

theorem withResponseData_append_bodyRsb (hd : d.length ≤ 255) (id b : Byte) (build : List Byte → Instr) :
    withResponseData (append (bodyRsb id b d)) build = .ok (build d) := by
  have hbc : memRead1 (append (bodyRsb id b d)) 2 = some (BitVec.ofNat 8 d.length) := rfl
  have hdrop : (append (bodyRsb id b d)).drop 3 = d ++ field (compute (bodyRsb id b d)) := rfl
  simp only [withResponseData, hbc, dataBytes_of_drop hdrop hd]

theorem withTwoWords_append_bodySix (id b : Byte) (a w : Word) (build : Word → Word → Instr) :
    withTwoWords (append (bodySix id b a w)) build = .ok (build a w) := by
  obtain ⟨-, -, h2, h4⟩ := fields_bodySix id b a w (field (compute (bodySix id b a w)))
  rw [withTwoWords_eq _ (by simp)]
  exact congrArg₂ (fun x y => Except.ok (build x y)) h2 h4

/-- R93: the two codes whose requests carry data. -/
theorem decodeRequest_append_bodyRqm (hfc : fc = .wrCoils ∨ fc = .wrRegs) (hd : d.length ≤ 255) {id : Byte} {a q : Word}
    {build : List Byte → Instr} (hbuild : ∀ f, requestFrom fc f id a q = withRequestData f build) :
    decodeRequest (append (bodyRqm id (fcByte fc) a q d)) = .ok (build d) := by
  have hbc : memRead1 (append (bodyRqm id (fcByte fc) a q d)) 6 = some (BitVec.ofNat 8 d.length) := rfl
  have hw : wellFormedRequest fc (append (bodyRqm id (fcByte fc) a q d)) = true := by
    rcases hfc with rfl | rfl <;> simp [wellFormedRequest, hbc] <;> omega
  exact (decodeRequest_append (rest := BitVec.ofNat 8 d.length :: d) hw).trans
    ((hbuild _).trans (withRequestData_append_bodyRqm hd id _ a q build))

/-- The function code and the length decide that a finished body is an answer of that code (R107). -/
theorem decodeResponse_append {id : Byte} {rest : List Byte}
    (hw : wellFormedResponse fc (append (id :: fcByte fc :: rest)) = true) :
    decodeResponse (append (id :: fcByte fc :: rest)) = responseOf fc (append (id :: fcByte fc :: rest)) := by
  have hcode : fcOf (byteAt (append (id :: fcByte fc :: rest)) 1) = some fc := fcOf_fcByte fc
  obtain ⟨i, hi⟩ := responseOf_ok hw
  rw [hi]
  exact decodeResponse_ok.2 ⟨verify_append (by simp), .inr ⟨fc, hcode, hw, hi⟩⟩

/-- R94: the four codes whose answers carry data. -/
theorem decodeResponse_append_bodyRsb (hfc : fc = .rdCoils ∨ fc = .rdDisc ∨ fc = .rdHold ∨ fc = .rdInput)
    (hd : d.length ≤ 255) {id : Byte} {build : List Byte → Instr}
    (hbuild : responseOf fc (append (bodyRsb id (fcByte fc) d)) =
      withResponseData (append (bodyRsb id (fcByte fc) d)) build) :
    decodeResponse (append (bodyRsb id (fcByte fc) d)) = .ok (build d) := by
  have hbc : memRead1 (append (bodyRsb id (fcByte fc) d)) 2 = some (BitVec.ofNat 8 d.length) := rfl
  have hw : wellFormedResponse fc (append (bodyRsb id (fcByte fc) d)) = true := by
    rcases hfc with rfl | rfl | rfl | rfl <;> simp [wellFormedResponse, hbc] <;> omega
  exact (decodeResponse_append hw).trans (hbuild.trans (withResponseData_append_bodyRsb hd id _ build))

/-- R95: the four codes whose answers are eight bytes long. -/
theorem decodeResponse_append_bodySix (hfc : fc = .wrCoil ∨ fc = .wrReg ∨ fc = .wrCoils ∨ fc = .wrRegs) {id : Byte}
    {a w : Word} {build : Word → Word → Instr}
    (hbuild : responseOf fc (append (bodySix id (fcByte fc) a w)) =
      withTwoWords (append (bodySix id (fcByte fc) a w)) build) :
    decodeResponse (append (bodySix id (fcByte fc) a w)) = .ok (build a w) := by
  have hw : wellFormedResponse fc (append (bodySix id (fcByte fc) a w)) = true := by
    rcases hfc with rfl | rfl | rfl | rfl <;> rfl
  exact (decodeResponse_append hw).trans (hbuild.trans (withTwoWords_append_bodySix id _ a w build))

/-- R96: the function byte of an exception has bit 7 set, and the seven bits below it are those given. -/
theorem bit7_and_setWidth_append (fn : BitVec 7) :
    (1#1 ++ fn : BitVec 8).getLsbD 7 = true ∧ (1#1 ++ fn : BitVec 8).setWidth 7 = fn := by
  revert fn; decide

/-- R96: bit 7 and the length decide that a finished body is an exception. -/
theorem decodeResponse_append_bodyExc (id : Byte) (fn : BitVec 7) (code : Byte) :
    decodeResponse (append (bodyExc id fn code)) = .ok (.excRsp id fn code) := by
  obtain ⟨h7, hfn⟩ := bit7_and_setWidth_append fn
  refine decodeResponse_ok.2 ⟨verify_append (by simp), .inl ⟨h7, by simp, ?_⟩⟩
  rw [exceptionOf_eq (by simp)]
  exact congrArg (fun n => Except.ok (Instr.excRsp id n code)) hfn

end

/-- Settles O2: a finished body is read in the order the decoder checks it, checksum, function code and length, and then
its fields are found where the format has them. -/
theorem decodingInvertsEncoding : Obligations.DecodingInvertsEncoding := by
  intro frameCap i hwf
  cases i with
  | rdCoilsReq id a q => exact decodeRequest_append_bodySix (fc := .rdCoils) (by decide) (by decide) id a q
  | rdDiscReq id a q => exact decodeRequest_append_bodySix (fc := .rdDisc) (by decide) (by decide) id a q
  | rdHoldReq id a q => exact decodeRequest_append_bodySix (fc := .rdHold) (by decide) (by decide) id a q
  | rdInputReq id a q => exact decodeRequest_append_bodySix (fc := .rdInput) (by decide) (by decide) id a q
  | wrCoilReq id a v => exact decodeRequest_append_bodySix (fc := .wrCoil) (by decide) (by decide) id a v
  | wrRegReq id a v => exact decodeRequest_append_bodySix (fc := .wrReg) (by decide) (by decide) id a v
  | wrCoilsReq id a q d =>
    exact decodeRequest_append_bodyRqm (fc := .wrCoils) (by decide) (length_le_of_dataFits hwf) fun _ => rfl
  | wrRegsReq id a q d =>
    exact decodeRequest_append_bodyRqm (fc := .wrRegs) (by decide) (length_le_of_dataFits hwf) fun _ => rfl
  | rdCoilsRsp id d =>
    exact decodeResponse_append_bodyRsb (fc := .rdCoils) (by decide) (length_le_of_dataFits hwf) rfl
  | rdDiscRsp id d =>
    exact decodeResponse_append_bodyRsb (fc := .rdDisc) (by decide) (length_le_of_dataFits hwf) rfl
  | rdHoldRsp id d =>
    exact decodeResponse_append_bodyRsb (fc := .rdHold) (by decide) (length_le_of_dataFits hwf) rfl
  | rdInputRsp id d =>
    exact decodeResponse_append_bodyRsb (fc := .rdInput) (by decide) (length_le_of_dataFits hwf) rfl
  | wrCoilRsp => exact decodeResponse_append_bodySix (fc := .wrCoil) (by decide) rfl
  | wrRegRsp => exact decodeResponse_append_bodySix (fc := .wrReg) (by decide) rfl
  | wrCoilsRsp => exact decodeResponse_append_bodySix (fc := .wrCoils) (by decide) rfl
  | wrRegsRsp => exact decodeResponse_append_bodySix (fc := .wrRegs) (by decide) rfl
  | excRsp id fn code => exact decodeResponse_append_bodyExc id fn code
  | start | setTmo | setId | query | poll | pollr | getState | getErr | getIn | getOut | getErrCnt => rfl

/-! ### Registers on the wire -/

/-- R102: byte `2 i` is the high byte of register `i` and byte `2 i + 1` its low byte. -/
theorem byteAt_bytesOfWords (ws : List Word) {i : Nat} (hi : i < ws.length) :
    byteAt (bytesOfWords ws) (2 * i) = hiByte (ws.getD i 0) ∧
      byteAt (bytesOfWords ws) (2 * i + 1) = loByte (ws.getD i 0) := by
  induction ws generalizing i with
  | nil => cases hi
  | cons w ws ih =>
    cases i with
    | zero => exact ⟨rfl, rfl⟩
    | succ i => exact ih (Nat.lt_of_succ_lt_succ hi)

/-- R161 (b): packed registers are read back. -/
@[simp] theorem wordsOfBytes_bytesOfWords (ws : List Word) : wordsOfBytes (bytesOfWords ws) = ws := by
  induction ws with
  | nil => rfl
  | cons w ws ih => rw [bytesOfWords_cons, wordsOfBytes, mkWord_hi_lo, ih]

/-- Settles O9, by induction on the registers. -/
theorem registersPackHighByteFirst : Obligations.RegistersPackHighByteFirst :=
  fun r => ⟨length_bytesOfWords r, fun _ hi => byteAt_bytesOfWords r hi, wordsOfBytes_bytesOfWords r⟩

end Sys2Proof.Machine

/-! ## The checksum engine: the residue of a finished frame, and what a changed byte does to it -/

namespace Sys2Proof.Machine

/-! ### The register is zero exactly after its own two bytes -/

/-- R130: with the low bits 0, no shift takes the polynomial in. -/
theorem iterate_crcShift_of_low_zero {n : Nat} {r : Word} (h : ∀ i < n, r.getLsbD i = false) :
    Nat.iterate crcShift n r = r >>> n := by
  induction n generalizing r with
  | zero => simp
  | succ n ih =>
    have hshift : crcShift r = r >>> 1 := by rw [crcShift, h 0 (by omega)]; rfl
    rw [Function.iterate_succ_apply, hshift, ih fun i hi => by simpa [Nat.add_comm] using h (i + 1) (by omega),
      ← BitVec.shiftRight_add, Nat.add_comm]

/-- R130: its own low byte clears the low half of the register, and the eight shifts bring the high byte down. -/
theorem crcByte_mkWord (hi lo : Byte) : crcByte (mkWord hi lo) lo = hi.setWidth 16 := by
  have hlow : ∀ i < 8, (mkWord hi lo ^^^ lo.setWidth 16).getLsbD i = false := by
    intro i hi
    rw [BitVec.getLsbD_xor, mkWord, BitVec.getLsbD_append]
    simp [hi, show i < 16 by omega]
  unfold crcByte
  rw [iterate_crcShift_of_low_zero hlow]
  apply BitVec.eq_of_getLsbD_eq
  intro i hi
  rw [BitVec.getLsbD_ushiftRight, BitVec.getLsbD_xor, mkWord, BitVec.getLsbD_append]
  simp [hi]

/-- Two bytes bring the register to zero exactly if they are its own, low byte first: one byte step is a bijection. -/
theorem crcByte_crcByte_eq_zero_iff {r : Word} {lo hi : Byte} :
    crcByte (crcByte r lo) hi = 0 ↔ r = mkWord hi lo := by
  constructor
  · intro h
    have hmid : crcByte r lo = hi.setWidth 16 := crcByte_injective (h.trans (crcByte_self hi).symm)
    exact crcByte_injective (hmid.trans (crcByte_mkWord hi lo).symm)
  · rintro rfl
    rw [crcByte_mkWord, crcByte_self]

/-- R132, R137: two bytes after a body leave the register at zero exactly if they finish it. -/
theorem crc16Raw_append_field_eq_zero_iff {b : List Byte} {v : Word} :
    crc16Raw (b ++ field v) = 0 ↔ compute b = v := by
  have hraw : crc16Raw (b ++ field v) = crcByte (crcByte (crc16Raw b) (hiByte v)) (loByte v) := by
    simp [crc16Raw, field]
  rw [hraw, crcByte_crcByte_eq_zero_iff]
  constructor <;> intro h
  · simp [compute, h]
  · simp [← h, compute]

/-- R137: the two bytes `append` adds are the ones that finish the body. -/
theorem crc16Raw_append (b : List Byte) : crc16Raw (append b) = 0 :=
  crc16Raw_append_field_eq_zero_iff.2 rfl

/-- A frame of two bytes or more is its body and the word of its last two bytes. -/
theorem take_append_field_wordAt {f : List Byte} (h : 2 ≤ f.length) :
    f.take (f.length - 2) ++ field (wordAt f (f.length - 2)) = f := by
  have htail : f.drop (f.length - 2) = field (wordAt f (f.length - 2)) := by
    rw [List.drop_eq_getElem_cons (by omega), List.drop_eq_getElem_cons (by omega), List.drop_eq_nil_of_le (by omega)]
    simp [field, wordAt, byteAt, List.getD_eq_getElem?_getD, show f.length - 2 < f.length by omega,
      show f.length - 2 + 1 < f.length by omega]
  rw [← htail, List.take_append_drop]

/-- R137 with R133: from 4 bytes on, a frame matches exactly if it leaves the register at zero. -/
theorem verify_iff_crc16Raw_eq_zero {f : List Byte} (h : 4 ≤ f.length) : verify f = true ↔ crc16Raw f = 0 := by
  have hf := take_append_field_wordAt (f := f) (by omega)
  calc verify f = true
      ↔ compute (f.take (f.length - 2)) = wordAt f (f.length - 2) := by rw [verify_iff, and_iff_right h]
    _ ↔ crc16Raw (f.take (f.length - 2) ++ field (wordAt f (f.length - 2))) = 0 :=
        crc16Raw_append_field_eq_zero_iff.symm
    _ ↔ crc16Raw f = 0 := by rw [hf]

/-- Settles O7: a byte step is a bijection, so that the last two bytes bring the register to zero only where they are
its own. -/
theorem residueOfAFinishedFrameIsZero : Obligations.ResidueOfAFinishedFrameIsZero :=
  ⟨crc16Raw_append, fun _ h => verify_iff_crc16Raw_eq_zero h⟩

/-! ### A changed byte changes the register -/

/-- The register tells two bytes apart that are put into it. -/
theorem crcByte_byte_injective {r : Word} {a b : Byte} (h : crcByte r a = crcByte r b) : a = b := by
  have hin : r ^^^ a.setWidth 16 = r ^^^ b.setWidth 16 := iterate_crcShift_injective 8 h
  have hlow := congrArg (BitVec.setWidth 8) ((BitVec.xor_right_inj r).1 hin)
  simpa using hlow

/-- R136: two sequences that differ in one byte leave different registers. -/
theorem byteAt_eq_of_crc16Raw_set {f : List Byte} {i : Nat} {x : Byte} (hi : i < f.length)
    (h : crc16Raw (f.set i x) = crc16Raw f) : x = byteAt f i := by
  have hsplit : f = f.take i ++ byteAt f i :: f.drop (i + 1) := by
    simp [byteAt, List.getD_eq_getElem?_getD, hi]
  rw [List.set_eq_take_append_cons_drop, if_pos hi] at h
  conv at h => rhs; rw [hsplit]
  simp only [crc16Raw, List.foldl_append, List.foldl_cons] at h
  exact crcByte_byte_injective (foldl_crcByte_injective _ h)

@[simp] theorem length_flipBit (f : List Byte) (p : Nat) : (flipBit f p).length = f.length := by
  simp [flipBit]

/-- Inverting a bit of a byte changes the byte. -/
theorem xor_shiftLeft_one_ne {b : Byte} {k : Nat} (hk : k < 8) : b ^^^ (1#8 <<< k) ≠ b := by
  intro h
  have hbit := congrArg (fun w : Byte => w.getLsbD k) h
  simp [hk] at hbit

/-- R136: a bit inverted changes the register. -/
theorem crc16Raw_flipBit_ne {f : List Byte} {p : Nat} (hp : p < 8 * f.length) : crc16Raw (flipBit f p) ≠ crc16Raw f :=
  fun h => xor_shiftLeft_one_ne (Nat.mod_lt p (by omega)) (byteAt_eq_of_crc16Raw_set (by omega) h)

/-- R134: fewer than 4 bytes never match. -/
theorem verify_of_length_lt {f : List Byte} (h : f.length < 4) : verify f = false := by
  simp [verify, h]

/-- R136: no finished frame with a bit inverted matches. -/
theorem verify_flipBit_append {b : List Byte} {p : Nat} (hp : p < 8 * (b.length + 2)) :
    verify (flipBit (append b) p) = false := by
  by_cases hl : b.length + 2 < 4
  · exact verify_of_length_lt (by simpa using hl)
  · have hne := crc16Raw_flipBit_ne (f := append b) (p := p) (by simpa using hp)
    rw [crc16Raw_append] at hne
    rw [← Bool.not_eq_true, verify_iff_crc16Raw_eq_zero (by simp; omega)]
    exact hne

/-- R67: the last two bytes of a finished frame are the register after its body, low byte first. -/
theorem byteAt_append_frame_checksum (b : List Byte) :
    byteAt (append b) b.length = loByte (crc16Raw b) ∧ byteAt (append b) (b.length + 1) = hiByte (crc16Raw b) := by
  unfold append
  rw [byteAt_append_right (Nat.le_refl _), byteAt_append_right (Nat.le_succ _)]
  simp [byteAt, compute]

/-- Settles O6: a finished frame leaves the register at zero, and one with a bit inverted does not. -/
theorem checksumMatchesAndDetectsEveryBitFlip : Obligations.ChecksumMatchesAndDetectsEveryBitFlip := by
  refine ⟨fun b => verify_append, fun b hb => verify_of_length_lt (by simp [hb]), fun b _ => ?_,
    fun b p _ hp => verify_flipBit_append hp⟩
  have hlast : (append b).length - 1 = b.length + 1 := by simp
  have hbody : (append b).length - 2 = b.length := by simp
  rw [hlast, hbody, take_append_frame]
  exact byteAt_append_frame_checksum b

/-! ### Worked numbers -/

/-- Settles O5: the numbers of the rules are closed terms, and the engine gives them; a frame of two bytes never
matches. -/
theorem checksumWorkedExamples : Obligations.ChecksumWorkedExamples := by
  have hempty : crc16Raw [] = 0xFFFF := rfl
  have hzero : crc16Raw [0x00] = 0x40BF := by decide
  have hone : crc16Raw [0x01] = 0x807E := by decide
  have hbody : compute [0x01, 0x03, 0x00, 0x00, 0x00, 0x0A] = 0xC5CD := by decide +kernel
  have hframe : append [0x01, 0x03, 0x00, 0x00, 0x00, 0x0A] = [0x01, 0x03, 0x00, 0x00, 0x00, 0x0A, 0xC5, 0xCD] := by
    rw [append, hbody]
    decide
  have hgood : verify [0x05, 0x03, 0x00, 0x0A, 0x00, 0x04, 0x65, 0x8F] = true :=
    (verify_iff_crc16Raw_eq_zero (by decide)).2 (by decide +kernel)
  have hbad : verify [0x05, 0x03, 0x00, 0x0A, 0x00, 0x04, 0x65, 0x8E] = false := by
    rw [← Bool.not_eq_true, verify_iff_crc16Raw_eq_zero (by decide)]
    decide +kernel
  exact ⟨hempty, hzero, hone, hbody, hframe, hgood, hbad, verify_of_length_lt (by decide)⟩

end Sys2Proof.Machine

/-! ## The codec end to end: packing, the master's answers and queries, and the two round trips -/

namespace Sys2Proof.Machine

/-! ### Items of an image, packed and unpacked -/

/-- Coils `a` to `a + n - 1` of image `h`. -/
def Memory.coils (m : Memory) (h a n : Nat) : List Bool := (List.range n).map fun k => Memory.coil m h (a + k)

/-- Words `a` to `a + n - 1` of image `h`. -/
def Memory.words (m : Memory) (h a n : Nat) : List Word := (List.range n).map fun k => Memory.word m h (a + k)

section
variable (m : Memory) (h a n : Nat)

@[simp] theorem Memory.length_coils : (Memory.coils m h a n).length = n := by simp [Memory.coils]

@[simp] theorem Memory.length_words : (Memory.words m h a n).length = n := by simp [Memory.words]

variable {n} {k : Nat}

theorem Memory.getD_coils (hk : k < n) : (Memory.coils m h a n).getD k false = Memory.coil m h (a + k) := by
  simp [Memory.coils, List.getD_eq_getElem?_getD, hk]

theorem Memory.getD_words (hk : k < n) : (Memory.words m h a n).getD k 0 = Memory.word m h (a + k) := by
  simp [Memory.words, List.getD_eq_getElem?_getD, hk]

end

/-- R101: bit `k` of the packed bytes is item `k`, and 0 past the last item. -/
theorem getLsbD_byteAt_packBits (c : List Bool) {k : Nat} (hk : k < 8 * ceilDiv c.length 8) :
    (byteAt (packBits c) (k / 8)).getLsbD (k % 8) = c.getD k false := by
  rw [getLsbD_packBits c (by omega) (Nat.mod_lt k (by decide)), Nat.div_add_mod]

theorem le_mul_ceilDiv (n : Nat) : n ≤ 8 * ceilDiv n 8 := by unfold ceilDiv; omega

/-- R161 (a): packed coils are read back. -/
@[simp] theorem unpackBits_packBits (c : List Bool) : unpackBits (packBits c) c.length = c := by
  have hq : c.length ≤ 8 * (packBits c).length := by simpa using le_mul_ceilDiv c.length
  refine List.ext_getElem (length_unpackBits hq) fun k hk hk' => ?_
  have hbit : (unpackBits (packBits c) c.length).getD k false = c.getD k false := by
    rw [getD_unpackBits hq hk', getLsbD_byteAt_packBits c (by have := le_mul_ceilDiv c.length; omega)]
  simpa [List.getD_eq_getElem?_getD, hk, hk'] using hbit

/-- Settles O8: each bit by the laws of the two packings. -/
theorem coilsPackAndUnpack : Obligations.CoilsPackAndUnpack := by
  refine ⟨fun c => ⟨length_packBits c, fun k hk => ?item, fun k hk hk' => ?unused⟩,
    fun d q hq => ⟨length_unpackBits hq, fun k hk => getD_unpackBits hq hk⟩, unpackBits_packBits⟩
  case item => exact getLsbD_byteAt_packBits c (Nat.lt_of_lt_of_le hk (le_mul_ceilDiv _))
  case unused => rw [getLsbD_byteAt_packBits c hk', List.getD_eq_default _ _ hk]

/-! ### The master takes an answer -/

/-- R156: data bytes in the image from word 0 are its coils from coil 0; every other coil is kept. -/
theorem Memory.coil_setHalves (m : Memory) {h h' c : Nat} {d : List Byte} (hd : d.length ≤ 131072)
    (hc : c < 1048576) :
    Memory.coil (Memory.setHalves m h 0 d) h' c =
      if h' = h ∧ c < 8 * d.length then (byteAt d (c / 8)).getLsbD (c % 8) else Memory.coil m h' c := by
  rw [Memory.coil_eq_half, Memory.half_setHalves m d (by omega) (by omega), Memory.coil_eq_half]
  by_cases hin : h' = h ∧ c < 8 * d.length
  · rw [if_pos hin, if_pos ⟨hin.1, Nat.zero_le _, by omega⟩]
    rfl
  · rw [if_neg hin, if_neg (by omega)]

/-- R157: word `i` written from word 0 is word `i` of the data. -/
theorem Memory.word_setWords_zero (m : Memory) {h i : Nat} {ws : List Word} (hw : ws.length ≤ 65536)
    (hi : i < ws.length) : Memory.word (Memory.setWords m h 0 ws) h i = ws.getD i 0 := by
  rw [Memory.word_setWords m ws (by omega) (by omega), if_pos ⟨rfl, Nat.zero_le i, by omega⟩, Nat.sub_zero]

theorem Memory.sameOutside_setHalves (m : Memory) (h : Nat) (d : List Byte) :
    Memory.SameOutside m (Memory.setHalves m h 0 d) h 0 (ceilDiv d.length 2) := by
  refine fun x hx => Memory.read_setHalves_other m d fun k hk => ?_
  have hword : k / 2 < ceilDiv d.length 2 := by unfold ceilDiv; omega
  simpa using hx (k / 2) hword

theorem Memory.sameOutside_setWords (m : Memory) (h i : Nat) (ws : List Word) :
    Memory.SameOutside m (Memory.setWords m h i ws) h i ws.length :=
  fun _ hx => Memory.read_setWords_other m ws hx

section
variable {s : State} (h0 : s.ownId = 0) (hw : s.phase = .waiting)
include h0 hw

/-- R241: an answer whose decoder writes nothing but the image ends the transaction. -/
theorem State.accept_of_ok {m : Memory} {fc : Fc} {decoder : State → Except Fault State}
    (hd : decoder s = .ok { s with mem := m }) :
    s.accept fc decoder = .next (State.afterAnswer { s with mem := m } (fcByte fc)) := by
  simp only [State.accept, if_pos (And.intro h0 hw), hd]
  rw [State.complete_master (s := { s with mem := m }) h0]

/-- R156, R163: a coil answer, received where the image is large enough. -/
theorem exec_coilsRsp {r : ImgRef} (hr : s.imgRef = some r) {d : List Byte} (hcap : ceilDiv d.length 2 ≤ r.cap.val)
    (id : Byte) :
    exec (.rdCoilsRsp id d) s = .next (State.afterAnswer { s with mem := Memory.setHalves s.mem r.handle 0 d } 0x01) ∧
    exec (.rdDiscRsp id d) s = .next (State.afterAnswer { s with mem := Memory.setHalves s.mem r.handle 0 d } 0x02) := by
  have hd : s.decodeCoils d = .ok { s with mem := Memory.setHalves s.mem r.handle 0 d } :=
    State.storeBytes_of_cap hr hcap
  simp only [exec, execRdCoilsRsp, execRdDiscRsp]
  exact ⟨State.accept_of_ok h0 hw hd, State.accept_of_ok h0 hw hd⟩

/-- R157, R164: a register answer, received where the image is large enough. -/
theorem exec_wordsRsp {r : ImgRef} (hr : s.imgRef = some r) {d : List Byte} (hcap : d.length / 2 ≤ r.cap.val)
    (id : Byte) :
    exec (.rdHoldRsp id d) s =
      .next (State.afterAnswer { s with mem := Memory.setWords s.mem r.handle 0 (wordsOfBytes d) } 0x03) ∧
    exec (.rdInputRsp id d) s =
      .next (State.afterAnswer { s with mem := Memory.setWords s.mem r.handle 0 (wordsOfBytes d) } 0x04) := by
  have hd : s.decodeWords d = .ok { s with mem := Memory.setWords s.mem r.handle 0 (wordsOfBytes d) } :=
    State.storeWords_of_cap hr (by rw [length_wordsOfBytes]; omega)
  simp only [exec, execRdHoldRsp, execRdInputRsp]
  exact ⟨State.accept_of_ok h0 hw hd, State.accept_of_ok h0 hw hd⟩

/-- R158, R165 to R167: an acknowledgement of any operands, its decoder writing nothing. -/
theorem State.accept_acknowledgement (fc : Fc) :
    s.accept fc (fun s => .ok s) = .next (s.afterAnswer (fcByte fc)) :=
  State.accept_of_ok (m := s.mem) h0 hw rfl

/-- R159, R241: a coil answer that the image is too small for. -/
theorem exec_coilsRsp_of_too_small {r : ImgRef} (hr : s.imgRef = some r) {d : List Byte}
    (hcap : r.cap.val < ceilDiv d.length 2) (id : Byte) :
    exec (.rdCoilsRsp id d) s = .fault .imageBound ∧ exec (.rdDiscRsp id d) s = .fault .imageBound := by
  have hne : d.length ≠ 0 := by unfold ceilDiv at hcap; omega
  have hd : s.decodeCoils d = .error .imageBound := by
    rw [State.decodeCoils, State.storeBytes, State.withImage_too_small hr hne hcap]
  simp only [exec, execRdCoilsRsp, execRdDiscRsp]
  exact ⟨State.accept_of_error h0 hw hd, State.accept_of_error h0 hw hd⟩

/-- R159, R241: a register answer that the image is too small for. -/
theorem exec_wordsRsp_of_too_small {r : ImgRef} (hr : s.imgRef = some r) {d : List Byte}
    (hcap : r.cap.val < d.length / 2) (id : Byte) :
    exec (.rdHoldRsp id d) s = .fault .imageBound ∧ exec (.rdInputRsp id d) s = .fault .imageBound := by
  have hlen := length_wordsOfBytes d
  have hd : s.decodeWords d = .error .imageBound := by
    rw [State.decodeWords, State.storeWords, State.withImage_too_small hr (by omega) (by omega)]
  simp only [exec, execRdHoldRsp, execRdInputRsp]
  exact ⟨State.accept_of_error h0 hw hd, State.accept_of_error h0 hw hd⟩

end

/-- Settles O33: the data bytes written as halves of words are the coils from coil 0 upward. -/
theorem masterDecodesCoils : Obligations.MasterDecodesCoils := by
  intro s r id data h0 hw hr hcap
  have hlen : data.length ≤ 131072 := by have := r.cap.isLt; unfold ceilDiv at hcap; omega
  obtain ⟨hcoils, hdisc⟩ := exec_coilsRsp h0 hw hr hcap id
  refine ⟨_, hcoils, hdisc, fun i hi j hj => ?_, fun h' c hc hout => ?_,
    Memory.sameOutside_setHalves s.mem r.handle data⟩
  · rw [Memory.coil_setHalves s.mem hlen (by omega), if_pos ⟨rfl, by omega⟩, show (8 * i + j) / 8 = i by omega,
      show (8 * i + j) % 8 = j by omega]
  · rw [Memory.coil_setHalves s.mem hlen hc, if_neg (by omega)]

/-- Settles O34: the words of the data are written from word 0 upward. -/
theorem masterDecodesRegisters : Obligations.MasterDecodesRegisters := by
  intro s r id data h0 hw hr hcap
  have hlen := length_wordsOfBytes data
  have hmax := r.cap.isLt
  obtain ⟨hhold, hinput⟩ := exec_wordsRsp h0 hw hr hcap id
  refine ⟨_, hhold, hinput, fun i hi => ?_, hlen ▸ Memory.sameOutside_setWords s.mem r.handle 0 (wordsOfBytes data)⟩
  rw [Memory.word_setWords_zero s.mem (by omega) (by omega), getD_wordsOfBytes data hi]

/-- Settles O35: the four acknowledgements are accepted by one decoder, which reads none of their operands. -/
theorem masterTakesAcknowledgementsUncompared : Obligations.MasterTakesAcknowledgementsUncompared :=
  fun _ _ _ _ h0 hw =>
    have hack := State.accept_acknowledgement h0 hw
    ⟨hack .wrCoil, hack .wrReg, hack .wrCoils, hack .wrRegs⟩

/-! ### The master sends a query -/

/-- R232, R234: the host's query of the supported function code `fc` is refused for none of its reasons. -/
structure State.AcceptsQuery (s : State) (t : Telegram) (fc : Fc) : Prop where
  master : s.ownId = 0
  idle : s.phase = .idle
  target_pos : 1 ≤ t.tid.toNat
  target_le : t.tid.toNat ≤ 247
  supported : fcOf t.fc = some fc
  fits : requestFits s.cfg.frameCap fc t.qty.toNat = true

/-- R151: a request without data is eight bytes long. -/
theorem requestFits_of_eight_le {cap : Nat} {fc : Fc} (hc : fc ≠ .wrCoils) (hr : fc ≠ .wrRegs) (h : 8 ≤ cap)
    (q : Nat) : requestFits cap fc q = true := by
  cases fc
  case wrCoils => exact absurd rfl hc
  case wrRegs => exact absurd rfl hr
  all_goals simp [requestFits, requestByteCount, requestLength, h]

/-- R151: the data of a multiple write and the nine other bytes fit. -/
theorem requestFits_of_byteCount_le {cap : Nat} {fc : Fc} (hfc : fc = .wrCoils ∨ fc = .wrRegs) (h9 : 9 ≤ cap)
    {q : Nat} (h : requestByteCount fc q ≤ min 255 (cap - 9)) : requestFits cap fc q = true := by
  have hlen : requestLength fc q = 9 + requestByteCount fc q := by rcases hfc with rfl | rfl <;> rfl
  simp only [requestFits, hlen, Bool.and_eq_true, decide_eq_true_eq]
  omega

section
variable {s : State} {t : Telegram} (h0 : s.ownId = 0) (hp : s.phase = .idle) (h1 : 1 ≤ t.tid.toNat)
  (h2 : t.tid.toNat ≤ 247)
include h0 hp h1 h2

theorem State.acceptsQuery_without_data (h8 : 8 ≤ s.cfg.frameCap) {fc : Fc} (hc : fc ≠ .wrCoils) (hr : fc ≠ .wrRegs)
    (hfc : fcOf t.fc = some fc) : s.AcceptsQuery t fc :=
  ⟨h0, hp, h1, h2, hfc, requestFits_of_eight_le hc hr h8 _⟩

theorem State.acceptsQuery_wrCoils (h9 : 9 ≤ s.cfg.frameCap) (hfc : t.fc = 0x0F)
    (hfit : ceilDiv t.qty.toNat 8 ≤ min 255 (s.cfg.frameCap - 9)) : s.AcceptsQuery t .wrCoils :=
  ⟨h0, hp, h1, h2, hfc ▸ rfl, requestFits_of_byteCount_le (.inl rfl) h9 hfit⟩

theorem State.acceptsQuery_wrRegs (h9 : 9 ≤ s.cfg.frameCap) (hfc : t.fc = 0x10)
    (hfit : 2 * t.qty.toNat ≤ min 255 (s.cfg.frameCap - 9)) : s.AcceptsQuery t .wrRegs :=
  ⟨h0, hp, h1, h2, hfc ▸ rfl, requestFits_of_byteCount_le (.inr rfl) h9 hfit⟩

end

section
variable {s : State} {t : Telegram} {fc : Fc} (h : s.AcceptsQuery t fc)
include h

theorem exec_query_eq_sendQuery : exec (.query t) s = s.sendQuery fc t := by
  obtain ⟨h0, hp, h1, h2, hfc, hfit⟩ := h
  have hid : ¬(t.tid = 0 ∨ 247 < t.tid.toNat) := by
    rintro (hz | hz)
    · simp [hz] at h1
    · omega
  simp only [exec, execQuery, if_neg (not_not_intro h0), if_neg (not_not_intro hp), if_neg hid, hfc, if_pos hfit]

/-- R233: a query whose request can be encoded sends it. -/
theorem exec_query_of_request {i : Instr} (hi : State.requestFor { s with imgRef := some t.img } fc t = .ok i) :
    exec (.query t) s = .next (s.afterQuery t (encodeBody i)) := by
  rw [exec_query_eq_sendQuery h]
  simp only [State.sendQuery, hi]
  rfl

/-- R159: a query whose request cannot be encoded stops. -/
theorem exec_query_of_error {f : Fault} (hf : State.requestFor { s with imgRef := some t.img } fc t = .error f) :
    exec (.query t) s = .fault f := by
  rw [exec_query_eq_sendQuery h]
  simp only [State.sendQuery, hf]

end

section
variable {s : State} {t : Telegram}

/-- R147, R148: the source word of a single write, where the image has one. -/
theorem State.sourceWord_of_cap {r : ImgRef} (hr : s.imgRef = some r) (hcap : 1 ≤ r.cap.val) :
    s.sourceWord = .ok (Memory.word s.mem r.handle 0) :=
  State.withImage_of_cap hr hcap _ _

theorem State.sourceWord_of_no_word {r : ImgRef} (hr : s.imgRef = some r) (hcap : r.cap.val < 1) :
    s.sourceWord = .error .imageBound :=
  State.withImage_too_small hr one_ne_zero hcap _ _

/-- R149: an accepted query of many coils sends the coils of its image, packed. -/
theorem exec_query_wrCoils (h : s.AcceptsQuery t .wrCoils) (hcap : ceilDiv t.qty.toNat 16 ≤ t.img.cap.val) :
    exec (.query t) s = .next (s.afterQuery t
      (bodyRqm t.tid 0x0F t.addr t.qty (packBits (Memory.coils s.mem t.img.handle 0 t.qty.toNat)))) := by
  have hload := State.loadCoils_of_cap (s := { s with imgRef := some t.img }) rfl (a := 0) (n := t.qty.toNat)
    fun hn => by unfold ceilDiv at hcap; omega
  exact exec_query_of_request h (congrArg (Except.map _) hload)

/-- R150: an accepted query of many registers sends the words of its image. -/
theorem exec_query_wrRegs (h : s.AcceptsQuery t .wrRegs) (hcap : t.qty.toNat ≤ t.img.cap.val) :
    exec (.query t) s = .next (s.afterQuery t
      (bodyRqm t.tid 0x10 t.addr t.qty (bytesOfWords (Memory.words s.mem t.img.handle 0 t.qty.toNat)))) := by
  have hload := State.loadWords_of_cap (s := { s with imgRef := some t.img }) rfl (a := 0) (n := t.qty.toNat) (by omega)
  exact exec_query_of_request h (congrArg (Except.map _) hload)

end

/-- R147: the value of a single coil write, as its two bytes. -/
theorem field_coilValue (w : Word) : field (coilValue w) = [if w = 0 then 0x00 else 0xFF, 0x00] := by
  by_cases hw : w = 0
  · rw [coilValue, if_pos hw, if_pos hw]; decide
  · rw [coilValue, if_neg hw, if_neg hw]; decide

/-- Settles O40: the request of a read carries the telegram's fields, and is eight bytes long whatever they are. -/
theorem querySendsReadRequests : Obligations.QuerySendsReadRequests := by
  intro s t h0 hp h1 h2 hcap hfc
  have haccepts {fc : Fc} := State.acceptsQuery_without_data h0 hp h1 h2 hcap (fc := fc)
  rcases hfc with hfc | hfc | hfc | hfc
  · rw [exec_query_of_request (fc := .rdCoils) (haccepts (by decide) (by decide) (hfc ▸ rfl)) rfl, hfc]; rfl
  · rw [exec_query_of_request (fc := .rdDisc) (haccepts (by decide) (by decide) (hfc ▸ rfl)) rfl, hfc]; rfl
  · rw [exec_query_of_request (fc := .rdHold) (haccepts (by decide) (by decide) (hfc ▸ rfl)) rfl, hfc]; rfl
  · rw [exec_query_of_request (fc := .rdInput) (haccepts (by decide) (by decide) (hfc ▸ rfl)) rfl, hfc]; rfl

/-- Settles O41: the request is encoded from the source word, word 0 of the telegram's image. -/
theorem querySendsSingleWrites : Obligations.QuerySendsSingleWrites := by
  intro s t h0 hp h1 h2 hcap himg
  have hsource := State.sourceWord_of_cap (s := { s with imgRef := some t.img }) rfl himg
  have haccepts {fc : Fc} := State.acceptsQuery_without_data h0 hp h1 h2 hcap (fc := fc)
  refine ⟨fun hfc => ?coil, fun hfc => ?reg⟩
  case coil =>
    rw [exec_query_of_request (fc := .wrCoil) (haccepts (by decide) (by decide) (hfc ▸ rfl))
      (congrArg (Except.map _) hsource)]
    simp only [encodeBody, bodySix, field_coilValue]
    rfl
  case reg =>
    exact exec_query_of_request (fc := .wrReg) (haccepts (by decide) (by decide) (hfc ▸ rfl))
      (congrArg (Except.map _) hsource)

/-- R102: word `i` of packed registers is register `i`. -/
theorem wordAt_bytesOfWords (ws : List Word) {i : Nat} (hi : i < ws.length) :
    wordAt (bytesOfWords ws) (2 * i) = ws.getD i 0 := by
  obtain ⟨hhi, hlo⟩ := byteAt_bytesOfWords ws hi
  rw [wordAt, hhi, hlo, mkWord_hi_lo]

/-- Settles O42: the request carries the items of the image from index 0, packed. -/
theorem querySendsMultipleWrites : Obligations.QuerySendsMultipleWrites := by
  intro s t h0 hp h1 h2 h9
  refine ⟨fun hfc hfit hcap => ?coils, fun hfc hfit hcap => ?regs⟩
  case coils =>
    have hlen : (packBits (Memory.coils s.mem t.img.handle 0 t.qty.toNat)).length = ceilDiv t.qty.toNat 8 := by simp
    have hbit {k : Nat} (hk : k < 8 * ceilDiv t.qty.toNat 8) :=
      getLsbD_byteAt_packBits (Memory.coils s.mem t.img.handle 0 t.qty.toNat) (k := k) (by simpa using hk)
    refine ⟨_, hlen, fun k hk => ?_, fun k hk hk' => ?_,
      exec_query_wrCoils (State.acceptsQuery_wrCoils h0 hp h1 h2 h9 hfc hfit) hcap⟩
    · rw [hbit (Nat.lt_of_lt_of_le hk (le_mul_ceilDiv _)), Memory.getD_coils _ _ _ hk, Nat.zero_add]
    · rw [hbit (hlen ▸ hk'), List.getD_eq_default _ _ (by simpa using hk)]
  case regs =>
    refine ⟨bytesOfWords (Memory.words s.mem t.img.handle 0 t.qty.toNat), by simp, fun i hi => ?_,
      exec_query_wrRegs (State.acceptsQuery_wrRegs h0 hp h1 h2 h9 hfc hfit) hcap⟩
    rw [wordAt_bytesOfWords _ (by simpa using hi), Memory.getD_words _ _ _ hi, Nat.zero_add]

/-- Settles O38: an answer or a query of at least one item needs a word at or above the capacity. -/
theorem masterImageBoundIsAFault : Obligations.MasterImageBoundIsAFault := by
  refine ⟨fun s r id data h0 hw hr => ⟨fun h => exec_coilsRsp_of_too_small h0 hw hr h id,
    fun h => exec_wordsRsp_of_too_small h0 hw hr h id⟩, fun s t h0 hp h1 h2 h9 => ⟨?single, ?coils, ?regs⟩⟩
  case single =>
    intro hfc hcap
    have hsource := State.sourceWord_of_no_word (s := { s with imgRef := some t.img }) rfl hcap
    have haccepts {fc : Fc} := State.acceptsQuery_without_data h0 hp h1 h2 (by omega) (fc := fc)
    rcases hfc with hfc | hfc
    · exact exec_query_of_error (fc := .wrCoil) (haccepts (by decide) (by decide) (hfc ▸ rfl))
        (congrArg (Except.map _) hsource)
    · exact exec_query_of_error (fc := .wrReg) (haccepts (by decide) (by decide) (hfc ▸ rfl))
        (congrArg (Except.map _) hsource)
  case coils =>
    intro hfc hfit hcap
    have hload : State.loadCoils { s with imgRef := some t.img } 0 t.qty.toNat = .error .imageBound :=
      State.withImage_too_small rfl (by unfold ceilDiv at hcap; omega) (by unfold ceilDiv at hcap; omega) _ _
    exact exec_query_of_error (State.acceptsQuery_wrCoils h0 hp h1 h2 h9 hfc hfit) (congrArg (Except.map _) hload)
  case regs =>
    intro hfc hfit hcap
    have hload : State.loadWords { s with imgRef := some t.img } 0 t.qty.toNat = .error .imageBound :=
      State.withImage_too_small rfl (by omega) (by omega) _ _
    exact exec_query_of_error (State.acceptsQuery_wrRegs h0 hp h1 h2 h9 hfc hfit) (congrArg (Except.map _) hload)

/-! ### The slave serves a request in order -/

section
variable {s : State} (h0 : s.ownId ≠ 0) {r : ImgRef} (hr : s.imgRef = some r)
include h0 hr

/-- R205, R256: a request in order whose handler writes nothing but the image is answered. -/
theorem State.serve_of_inOrder {fc : Fc} {a f2 : Word} {bc : Nat} {m : Memory} {rsp : Instr} {body : List Byte}
    {handler : State → Except Fault (Instr × State)} (hq : quantityOk s.cfg.frameCap fc f2.toNat bc = true)
    (ht : topIndex fc a.toNat f2.toNat < r.cap.val) (hh : handler s = .ok (rsp, { s with mem := m }))
    (hb : encodeBody rsp = body) :
    s.serve s.ownId fc a f2 bc handler = .next (State.afterResponse { s with mem := m } (fcByte fc) body) := by
  subst hb
  rw [State.serve_ok h0 (fieldDefect_none.2 ⟨hq, by rwa [State.cap_of_imgRef hr]⟩) hh]
  exact congrArg _ (State.transmit_complete (s := { s with mem := m }) h0 _ _)

variable {a q : Word}

/-- R206, R207: a slave answers a read of coils with the coils of its image, packed. -/
theorem exec_coilsReq (h1 : 1 ≤ q.toNat) (hq : q.toNat ≤ 8 * min 255 (s.cfg.frameCap - 5))
    (hcap : (a.toNat + q.toNat - 1) / 16 < r.cap.val) :
    exec (.rdCoilsReq s.ownId a q) s = .next (s.afterResponse 0x01
      (bodyRsb s.ownId 0x01 (packBits (Memory.coils s.mem r.handle a.toNat q.toNat)))) ∧
    exec (.rdDiscReq s.ownId a q) s = .next (s.afterResponse 0x02
      (bodyRsb s.ownId 0x02 (packBits (Memory.coils s.mem r.handle a.toNat q.toNat)))) := by
  have hread (rsp : Byte → List Byte → Instr) : s.readCoils a q rsp =
      .ok (rsp s.ownId (packBits (Memory.coils s.mem r.handle a.toNat q.toNat)), s) := by
    simp only [State.readCoils, State.loadCoils_of_cap hr fun _ => hcap]
    rfl
  have hok : (decide (1 ≤ q.toNat) && decide (q.toNat ≤ 8 * dmax s.cfg.frameCap)) = true := by simp [h1, dmax, hq]
  simp only [exec, execRdCoilsReq, execRdDiscReq]
  exact ⟨State.serve_of_inOrder (m := s.mem) h0 hr hok hcap (hread .rdCoilsRsp) rfl,
    State.serve_of_inOrder (m := s.mem) h0 hr hok hcap (hread .rdDiscRsp) rfl⟩

/-- R208, R209: a slave answers a read of registers with the words of its image. -/
theorem exec_wordsReq (h1 : 1 ≤ q.toNat) (hq : q.toNat ≤ min 255 (s.cfg.frameCap - 5) / 2)
    (hcap : a.toNat + q.toNat - 1 < r.cap.val) :
    exec (.rdHoldReq s.ownId a q) s = .next (s.afterResponse 0x03
      (bodyRsb s.ownId 0x03 (bytesOfWords (Memory.words s.mem r.handle a.toNat q.toNat)))) ∧
    exec (.rdInputReq s.ownId a q) s = .next (s.afterResponse 0x04
      (bodyRsb s.ownId 0x04 (bytesOfWords (Memory.words s.mem r.handle a.toNat q.toNat)))) := by
  have hread (rsp : Byte → List Byte → Instr) : s.readWords a q rsp =
      .ok (rsp s.ownId (bytesOfWords (Memory.words s.mem r.handle a.toNat q.toNat)), s) := by
    simp only [State.readWords, State.loadWords_of_cap hr (a := a.toNat) (n := q.toNat) (by omega)]
    rfl
  have hok : (decide (1 ≤ q.toNat) && decide (q.toNat ≤ dmax s.cfg.frameCap / 2)) = true := by simp [h1, dmax, hq]
  simp only [exec, execRdHoldReq, execRdInputReq]
  exact ⟨State.serve_of_inOrder (m := s.mem) h0 hr hok hcap (hread .rdHoldRsp) rfl,
    State.serve_of_inOrder (m := s.mem) h0 hr hok hcap (hread .rdInputRsp) rfl⟩

/-- R212: a slave takes the coils of a multiple write from its data. -/
theorem exec_wrCoilsReq {d : List Byte} (h1 : 1 ≤ q.toNat) (hd : d.length = ceilDiv q.toNat 8)
    (hcap : (a.toNat + q.toNat - 1) / 16 < r.cap.val) :
    exec (.wrCoilsReq s.ownId a q d) s = .next (State.afterResponse
      { s with mem := Memory.setCoils s.mem r.handle a.toNat (unpackBits d q.toNat) } 0x0F
      (bodySix s.ownId 0x0F a q)) := by
  have hlen : (unpackBits d q.toNat).length = q.toNat := length_unpackBits (hd ▸ le_mul_ceilDiv q.toNat)
  have hwrite : s.writeCoils a q d = .ok (.wrCoilsRsp s.ownId a q,
      { s with mem := Memory.setCoils s.mem r.handle a.toNat (unpackBits d q.toNat) }) := by
    simp only [State.writeCoils, State.storeCoils_of_cap hr (bs := unpackBits d q.toNat) fun _ => hlen.symm ▸ hcap]
  have hok : quantityOk s.cfg.frameCap .wrCoils q.toNat d.length = true := by simp [quantityOk, h1, hd]
  simp only [exec, execWrCoilsReq]
  exact State.serve_of_inOrder h0 hr hok hcap hwrite rfl

/-- R213: a slave takes the words of a multiple write from its data. -/
theorem exec_wrRegsReq {d : List Byte} (h1 : 1 ≤ q.toNat) (hd : d.length = 2 * q.toNat)
    (hcap : a.toNat + q.toNat - 1 < r.cap.val) :
    exec (.wrRegsReq s.ownId a q d) s = .next (State.afterResponse
      { s with mem := Memory.setWords s.mem r.handle a.toNat (wordsOfBytes d) } 0x10
      (bodySix s.ownId 0x10 a q)) := by
  have hlen : (wordsOfBytes d).length = q.toNat := by rw [length_wordsOfBytes]; omega
  have hwrite : s.writeRegs a q d = .ok (.wrRegsRsp s.ownId a q,
      { s with mem := Memory.setWords s.mem r.handle a.toNat (wordsOfBytes d) }) := by
    simp only [State.writeRegs, List.take_of_length_le (Nat.le_of_eq hlen),
      State.storeWords_of_cap hr (a := a.toNat) (ws := wordsOfBytes d) (by omega)]
  have hok : quantityOk s.cfg.frameCap .wrRegs q.toNat d.length = true := by simp [quantityOk, h1, hd]
  simp only [exec, execWrRegsReq]
  exact State.serve_of_inOrder h0 hr hok hcap hwrite rfl

end

/-! ### The two round trips (R161 c, d) -/

/-- R161 (c): coils packed, unpacked and written from coil `a` are the coils from `a` upward. -/
theorem Memory.coil_setCoils_unpackBits_packBits (m : Memory) {h a k : Nat} {c : List Bool}
    (hmax : a + c.length ≤ 1048576) (hk : k < c.length) :
    Memory.coil (Memory.setCoils m h a (unpackBits (packBits c) c.length)) h (a + k) = c.getD k false := by
  rw [unpackBits_packBits, Memory.coil_setCoils m c hmax (by omega),
    if_pos ⟨rfl, Nat.le_add_right a k, by omega⟩, Nat.add_sub_cancel_left]

/-- R161 (c): words packed, read back and written from word `a` are the words from `a` upward. -/
theorem Memory.word_setWords_wordsOfBytes_bytesOfWords (m : Memory) {h a k : Nat} {ws : List Word}
    (hmax : a + ws.length ≤ 65536) (hk : k < ws.length) :
    Memory.word (Memory.setWords m h a (wordsOfBytes (bytesOfWords ws))) h (a + k) = ws.getD k 0 := by
  rw [wordsOfBytes_bytesOfWords, Memory.word_setWords m ws hmax (by omega),
    if_pos ⟨rfl, Nat.le_add_right a k, by omega⟩, Nat.add_sub_cancel_left]

/-- R161 (d): coils packed and written as whole bytes from word 0 are the coils from coil 0 upward. -/
theorem Memory.coil_setHalves_packBits (m : Memory) {h k : Nat} {c : List Bool} (hmax : ceilDiv c.length 8 ≤ 131072)
    (hk : k < c.length) : Memory.coil (Memory.setHalves m h 0 (packBits c)) h k = c.getD k false := by
  have hle := le_mul_ceilDiv c.length
  rw [Memory.coil_setHalves m (by simpa using hmax) (by omega), if_pos ⟨rfl, by rw [length_packBits]; omega⟩,
    getLsbD_byteAt_packBits c (by omega)]

/-- Settles O57: the frame sent is the encoding of a request, which decodes to that request, and the slave writes from
the address on the items that were packed from index 0. -/
theorem writesReachTheSlave : Obligations.WritesReachTheSlave := by
  intro m u t r h0 hp h1 h2 h9 hq hu hr
  have hu0 : u.ownId ≠ 0 := by
    rintro hz
    simp [← hu, hz] at h1
  have hmax := r.cap.isLt
  refine ⟨fun hfc hfit himg hcap => ?coils, fun hfc hfit himg hcap => ?regs⟩
  case coils =>
    have hlen : (packBits (Memory.coils m.mem t.img.handle 0 t.qty.toNat)).length = ceilDiv t.qty.toNat 8 := by simp
    refine ⟨_, _, .wrCoilsReq t.tid t.addr t.qty (packBits (Memory.coils m.mem t.img.handle 0 t.qty.toNat)), _,
      exec_query_wrCoils (State.acceptsQuery_wrCoils h0 hp h1 h2 h9 hfc hfit) himg, rfl,
      decodeRequest_append_bodyRqm (fc := .wrCoils) (.inl rfl) (by omega) fun _ => rfl,
      hu ▸ exec_wrCoilsReq hu0 hr hq hlen hcap, fun k hk => ?_⟩
    have hcoil := Memory.coil_setCoils_unpackBits_packBits u.mem (h := r.handle) (a := t.addr.toNat) (k := k)
      (c := Memory.coils m.mem t.img.handle 0 t.qty.toNat) (by simp; omega) (by simpa using hk)
    rwa [Memory.length_coils, Memory.getD_coils _ _ _ hk, Nat.zero_add] at hcoil
  case regs =>
    have hlen : (bytesOfWords (Memory.words m.mem t.img.handle 0 t.qty.toNat)).length = 2 * t.qty.toNat := by simp
    refine ⟨_, _, .wrRegsReq t.tid t.addr t.qty (bytesOfWords (Memory.words m.mem t.img.handle 0 t.qty.toNat)), _,
      exec_query_wrRegs (State.acceptsQuery_wrRegs h0 hp h1 h2 h9 hfc hfit) himg, rfl,
      decodeRequest_append_bodyRqm (fc := .wrRegs) (.inr rfl) (by omega) fun _ => rfl,
      hu ▸ exec_wrRegsReq hu0 hr hq hlen hcap, fun k hk => ?_⟩
    have hword := Memory.word_setWords_wordsOfBytes_bytesOfWords u.mem (h := r.handle) (a := t.addr.toNat) (k := k)
      (ws := Memory.words m.mem t.img.handle 0 t.qty.toNat) (by simp; omega) (by simpa using hk)
    rwa [Memory.getD_words _ _ _ hk, Nat.zero_add] at hword

/-- Settles O58: the frame answered is the encoding of a response, which decodes to that response, and the master writes
from index 0 the items that were packed from the address on. -/
theorem readsReachTheMaster : Obligations.ReadsReachTheMaster := by
  intro u m addr qty r x hu0 hr h0 hw hx hq
  have hmax := x.cap.isLt
  refine ⟨fun req hreq hfit hcap himg => ?coils, fun req hreq hfit hcap himg => ?regs⟩
  case coils =>
    have hlen : (packBits (Memory.coils u.mem r.handle addr.toNat qty.toNat)).length = ceilDiv qty.toNat 8 := by simp
    have hbytes : (packBits (Memory.coils u.mem r.handle addr.toNat qty.toNat)).length ≤ 255 := by
      rw [hlen]; unfold ceilDiv; omega
    obtain ⟨hcoils, hdisc⟩ := exec_coilsReq hu0 hr hq hfit hcap
    obtain ⟨hcoils', hdisc'⟩ := exec_coilsRsp h0 hw hx (hlen.symm ▸ himg) u.ownId
    have hitems (k : Nat) (hk : k < qty.toNat) :
        Memory.coil (Memory.setHalves m.mem x.handle 0 (packBits (Memory.coils u.mem r.handle addr.toNat qty.toNat)))
          x.handle k = Memory.coil u.mem r.handle (addr.toNat + k) := by
      rw [Memory.coil_setHalves_packBits m.mem (by simp; omega) (by simpa using hk), Memory.getD_coils _ _ _ hk]
    rcases hreq with rfl | rfl
    · exact ⟨_, _, _, _, hcoils, rfl, decodeResponse_append_bodyRsb (fc := .rdCoils) (by decide) hbytes rfl,
        hcoils', hitems⟩
    · exact ⟨_, _, _, _, hdisc, rfl, decodeResponse_append_bodyRsb (fc := .rdDisc) (by decide) hbytes rfl,
        hdisc', hitems⟩
  case regs =>
    have hlen : (bytesOfWords (Memory.words u.mem r.handle addr.toNat qty.toNat)).length = 2 * qty.toNat := by simp
    obtain ⟨hhold, hinput⟩ := exec_wordsReq hu0 hr hq hfit hcap
    obtain ⟨hhold', hinput'⟩ := exec_wordsRsp h0 hw hx (show _ ≤ _ by rw [hlen]; omega) u.ownId
    have hitems (k : Nat) (hk : k < qty.toNat) :
        Memory.word (Memory.setWords m.mem x.handle 0
          (wordsOfBytes (bytesOfWords (Memory.words u.mem r.handle addr.toNat qty.toNat)))) x.handle k =
          Memory.word u.mem r.handle (addr.toNat + k) := by
      rw [wordsOfBytes_bytesOfWords, Memory.word_setWords_zero m.mem (by simp; omega) (by simpa using hk),
        Memory.getD_words _ _ _ hk]
    rcases hreq with rfl | rfl
    · exact ⟨_, _, _, _, hhold, rfl, decodeResponse_append_bodyRsb (fc := .rdHold) (by decide) (by omega) rfl,
        hhold', hitems⟩
    · exact ⟨_, _, _, _, hinput, rfl, decodeResponse_append_bodyRsb (fc := .rdInput) (by decide) (by omega) rfl,
        hinput', hitems⟩

/-! ### Worked frames -/

/-- A frame that is the encoding of a well-formed instruction decodes to it. -/
theorem decodeFrame_of_encode {d : Dir} {f : List Byte} {i : Instr} (h : encode i = .frame d f)
    (hwf : i.wf 256 = true) : decodeFrame d f = .ok i := by
  have hdecode := decodingInvertsEncoding 256 i hwf
  rwa [h] at hdecode

/-- Settles O1: the seven frames are the encodings of their instructions; the eighth matches its checksum and its
function byte is none of the eight codes. -/
theorem specFramesDecodeToTheirInstructions : Obligations.SpecFramesDecodeToTheirInstructions := by
  refine ⟨decodeFrame_of_encode (by decide +kernel) rfl, decodeFrame_of_encode (by decide +kernel) rfl,
    decodeFrame_of_encode (by decide +kernel) rfl, decodeFrame_of_encode (by decide +kernel) rfl,
    decodeFrame_of_encode (by decide +kernel) rfl, decodeFrame_of_encode (by decide +kernel) rfl,
    decodeFrame_of_encode (by decide +kernel) rfl, ?unsupported⟩
  have hverify : verify [0x05, 0x07, 0x43, 0x22] = true :=
    (verify_iff_crc16Raw_eq_zero (by decide)).2 (by decide +kernel)
  simp only [decodeFrame, decodeRequest, if_pos hverify]
  rfl

end Sys2Proof.Machine

/-! ## The boundary detector (R171 to R176) -/

namespace Sys2Proof.Machine

/-- R174: nothing is read and nothing is buffered. -/
theorem State.rxStep_of_empty {s : State} (hq : s.rxq = []) (hb : s.buf = []) : s.rxStep = .ok (.incomplete, s) := by
  rw [State.rxStep_silent hq, if_pos hb]

/-- R175: the silence since the last byte has not yet lasted `T_IDLE`. -/
theorem State.rxStep_waits {s : State} {t : Time} (hq : s.rxq = []) (hb : s.buf ≠ []) (ht : s.tLast = some t)
    (he : s.elapsed t < s.cfg.tIdle) : s.rxStep = .ok (.incomplete, s) := by
  rw [State.rxStep_silent hq, if_neg hb, ht]
  simp only [if_neg (Nat.not_le.2 he)]

/-- Settles O10: a step with bytes pending is the reading loop, which fits or overflows; a step without is decided by
the buffer and the silence since `t_last`. -/
theorem detectorStepReadsOrDecidesBySilence : Obligations.DetectorStepReadsOrDecidesBySilence := by
  refine ⟨fun s hq hfit => ?fits, fun s hlen hover => ?overflows, fun _ => State.rxStep_of_empty,
    fun _ _ hq hb ht he => State.rxStep_completes ⟨hq, hb, ht, he⟩, fun _ _ => State.rxStep_waits⟩
  case fits =>
    rw [State.rxStep_reads hq (by omega), if_pos hfit]
  case overflows =>
    have hq : s.rxq ≠ [] := List.ne_nil_of_length_pos (by omega)
    rw [State.rxStep_reads hq hlen, if_neg (by omega)]
    rfl

end Sys2Proof.Machine

/-! ## The slave's refusals: quantity, address range, function code (R192 to R197, R215, R255) -/

namespace Sys2Proof.Machine

/-! ### A request refused for its fields -/

/-- R197: the quantity is judged first, so that no address excuses it. -/
theorem fieldDefect_illegalQuantity_iff {frameCap cap : Nat} {fc : Fc} {a f2 : Word} {bc : Nat} :
    fieldDefect frameCap cap fc a f2 bc = some .illegalQuantity ↔ quantityOk frameCap fc f2.toNat bc = false := by
  unfold fieldDefect
  by_cases hq : quantityOk frameCap fc f2.toNat bc = true <;> simp [hq]

theorem fieldDefect_illegalAddressRange_iff {frameCap cap : Nat} {fc : Fc} {a f2 : Word} {bc : Nat} :
    fieldDefect frameCap cap fc a f2 bc = some .illegalAddressRange ↔
      quantityOk frameCap fc f2.toNat bc = true ∧ cap ≤ topIndex fc a.toNat f2.toNat := by
  unfold fieldDefect
  by_cases hq : quantityOk frameCap fc f2.toNat bc = true <;> simp [hq]

/-- R215, R255: a request for this slave with a defect in its fields is answered with the exception of the defect. -/
theorem exec_request_of_defect {s : State} (h0 : s.ownId ≠ 0) {i : Instr} {fc : Fc} {a f2 : Word} {bc : Nat}
    {e : ExcKind} (hf : i.requestFields = some (s.ownId, fc, a, f2, bc))
    (hd : fieldDefect s.cfg.frameCap s.cap fc a f2 bc = some e) :
    exec i s = .next (s.afterRefusal (fcByte fc) (errOfExc e) (wireCode e)) := by
  obtain ⟨handler, hexec⟩ := dispatchFrame_request hf
  rw [(hexec s).2, State.serve_defect h0 hd, State.refuseRequest_eq h0]

/-- Settles O23: each format's condition is the negation of its `quantityOk`, and the quantity is judged first. -/
theorem slaveRefusesIllegalQuantities : Obligations.SlaveRefusesIllegalQuantities := by
  intro s i fc addr f2 bc h0 hf hbad
  have hquantity : quantityOk s.cfg.frameCap fc f2.toNat bc = false := by
    cases fc
    case wrCoil | wrReg => exact hbad.elim
    all_goals
      simp only [quantityOk, Bool.and_eq_false_iff, decide_eq_false_iff_not, Nat.not_le, Nat.lt_one_iff]
      exact hbad
  exact exec_request_of_defect h0 hf (fieldDefect_illegalQuantity_iff.2 hquantity)

/-- Settles O24: the quantity is in order, and the highest word is not below the capacity. -/
theorem slaveRefusesAddressesOutOfRange : Obligations.SlaveRefusesAddressesOutOfRange := by
  intro s i fc addr f2 bc h0 hf hquantity hrange
  have hok : quantityOk s.cfg.frameCap fc f2.toNat bc = true := by
    cases fc
    case wrCoil | wrReg => rfl
    all_goals
      simp only [quantityOk, Bool.and_eq_true, decide_eq_true_eq]
      exact hquantity
  have htop : s.cap ≤ topIndex fc addr.toNat f2.toNat := by cases fc <;> exact hrange
  exact exec_request_of_defect h0 hf (fieldDefect_illegalAddressRange_iff.2 ⟨hok, htop⟩)

/-! ### A frame refused for its function code -/

/-- R98: the bytes that are no supported function code. -/
theorem fcOf_eq_none_iff {b : Byte} :
    fcOf b = none ↔ b ∉ [0x01#8, 0x02#8, 0x03#8, 0x04#8, 0x05#8, 0x06#8, 0x0F#8, 0x10#8] := by
  revert b; decide

/-- R192: the function code is judged before the length. -/
theorem validateRequest_of_unsupported {f : List Byte} (hv : verify f = true) (hfc : fcOf (byteAt f 1) = none)
    (frameCap cap : Nat) : validateRequest frameCap cap f = .ok (.illegal .illegalFunction) := by
  have h4 := ((verify_iff f).1 hv).1
  simp only [validateRequest, if_pos hv, memRead1_of_lt (show 1 < f.length by omega), hfc]

/-- R250, R252: a poll of a slave whose frame is complete takes that frame. -/
theorem exec_poll_of_completes {s : State} {t : Time} (h0 : s.ownId ≠ 0) (hc : s.Completes t) :
    exec .poll s = s.slaveFrame :=
  (State.pollBody_slave h0).trans (by simp only [State.receive, State.rxStep_completes hc])

/-- R215, R252, R255: a frame for this slave with a verdict against it is answered with the exception of the verdict. -/
theorem State.slaveFrame_of_illegal {s : State} (h0 : s.ownId ≠ 0) (hlen : 1 < s.buf.length)
    (hid : byteAt s.buf 0 = s.ownId) {e : ExcKind}
    (hv : validateRequest s.cfg.frameCap s.cap s.buf = .ok (.illegal e)) :
    s.slaveFrame = .next (State.afterRefusal { s with inCnt := s.inCnt + 1 } (byteAt s.buf 1) (errOfExc e)
      (wireCode e)) := by
  have hv' : validateRequest s.consume.cfg.frameCap s.consume.cap s.buf = .ok (.illegal e) := hv
  have hid' : ¬byteAt s.buf 0 ≠ s.consume.ownId := not_not.2 hid
  simp only [State.slaveFrame, withByte, memRead1_of_lt (Nat.zero_lt_of_lt hlen), memRead1_of_lt hlen, if_neg hid', hv',
    State.refuseRequest_eq (s := s.consume) h0]
  rfl

/-- Settles O27: a checksum that matches leaves a function byte to judge, and that comes before the length. -/
theorem slaveRefusesUnsupportedFunctions : Obligations.SlaveRefusesUnsupportedFunctions := by
  intro s t h0 hc hid hv hfc
  have h4 := ((verify_iff s.buf).1 hv).1
  have hverdict := validateRequest_of_unsupported hv (fcOf_eq_none_iff.2 hfc) s.cfg.frameCap s.cap
  rw [exec_poll_of_completes h0 hc]
  exact State.slaveFrame_of_illegal h0 (by omega) hid hverdict

end Sys2Proof.Machine

/-! ## The slave serves a request in order (R206 to R213) -/

namespace Sys2Proof.Machine

/-! ### What the image answers, and what is written to it -/

section
variable (m : Memory) (h a : Nat) {n k : Nat}

/-- R206: bit `k` of packed coils is coil `a + k` of the image. -/
theorem Memory.getLsbD_packBits_coils (hk : k < n) :
    (byteAt (packBits (Memory.coils m h a n)) (k / 8)).getLsbD (k % 8) = Memory.coil m h (a + k) := by
  have hle := le_mul_ceilDiv n
  rw [getLsbD_byteAt_packBits _ (by rw [Memory.length_coils]; omega), Memory.getD_coils m h a hk]

/-- R141: the unused bits of packed coils are 0. -/
theorem Memory.getLsbD_packBits_coils_unused (hk : n ≤ k) (hk' : k < 8 * (packBits (Memory.coils m h a n)).length) :
    (byteAt (packBits (Memory.coils m h a n)) (k / 8)).getLsbD (k % 8) = false := by
  rw [length_packBits] at hk'
  rw [getLsbD_byteAt_packBits _ hk', List.getD_eq_default _ _ (by rwa [Memory.length_coils])]

end

section
variable (m : Memory) (h : Nat) {a k : Nat}

/-- Coil `k` of those written from coil `a` on. -/
theorem Memory.coil_setCoils_add {bs : List Bool} (hmax : a + bs.length ≤ 1048576) (hk : k < bs.length) :
    Memory.coil (Memory.setCoils m h a bs) h (a + k) = bs.getD k false := by
  rw [Memory.coil_setCoils m bs hmax (by omega), if_pos ⟨rfl, Nat.le_add_right a k, by omega⟩,
    Nat.add_sub_cancel_left]

/-- Word `k` of those written from word `a` on. -/
theorem Memory.word_setWords_add {ws : List Word} (hmax : a + ws.length ≤ 65536) (hk : k < ws.length) :
    Memory.word (Memory.setWords m h a ws) h (a + k) = ws.getD k 0 := by
  rw [Memory.word_setWords m ws hmax (by omega), if_pos ⟨rfl, Nat.le_add_right a k, by omega⟩,
    Nat.add_sub_cancel_left]

theorem Memory.sameCoilsOutside_setCoil (b : Bool) (ha : a < 1048576) :
    Memory.SameCoilsOutside m (Memory.setCoil m h a b) h a 1 := by
  intro h' c hc hout
  rw [Memory.coil_setCoil m b ha hc, if_neg (by omega)]

theorem Memory.sameCoilsOutside_setCoils {bs : List Bool} (hmax : a + bs.length ≤ 1048576) :
    Memory.SameCoilsOutside m (Memory.setCoils m h a bs) h a bs.length := by
  intro h' c hc hout
  rw [Memory.coil_setCoils m bs hmax hc, if_neg hout]

/-- R62: coils lie in the words from that of the first to that of the last. -/
theorem Memory.sameOutside_setCoils (a : Nat) (bs : List Bool) :
    Memory.SameOutside m (Memory.setCoils m h a bs) h (a / 16) ((a + bs.length - 1) / 16 - a / 16 + 1) := by
  refine fun x hx => Memory.read_setCoils_other m bs fun k hk => ?_
  have hword := hx ((a + k) / 16 - a / 16) (by omega)
  rwa [show a / 16 + ((a + k) / 16 - a / 16) = (a + k) / 16 by omega] at hword

end

/-! ### The single writes -/

section
variable {s : State} (h0 : s.ownId ≠ 0) {r : ImgRef} (hr : s.imgRef = some r) {a v : Word}
include h0 hr

/-- R210, R103: a slave sets a coil where the high byte of the value is 0xFF, and clears it elsewhere. -/
theorem exec_wrCoilReq (hcap : a.toNat / 16 < r.cap.val) :
    exec (.wrCoilReq s.ownId a v) s = .next (State.afterResponse
      { s with mem := Memory.setCoil s.mem r.handle a.toNat (hiByte v == 0xFF) } 0x05 (bodySix s.ownId 0x05 a v)) := by
  have hwrite : s.writeCoil a v = .ok (.wrCoilRsp s.ownId a v,
      { s with mem := Memory.setCoil s.mem r.handle a.toNat (hiByte v == 0xFF) }) := by
    simp only [State.writeCoil, State.storeCoils_of_cap hr (a := a.toNat) (bs := [hiByte v == 0xFF]) fun _ => hcap,
      Memory.setCoils]
  simp only [exec, execWrCoilReq]
  exact State.serve_of_inOrder h0 hr rfl hcap hwrite rfl

/-- R211: a slave stores the value in the word. -/
theorem exec_wrRegReq (hcap : a.toNat < r.cap.val) :
    exec (.wrRegReq s.ownId a v) s = .next (State.afterResponse
      { s with mem := Memory.setWord s.mem r.handle a.toNat v } 0x06 (bodySix s.ownId 0x06 a v)) := by
  have hwrite : s.writeReg a v = .ok (.wrRegRsp s.ownId a v,
      { s with mem := Memory.setWord s.mem r.handle a.toNat v }) := by
    simp only [State.writeReg, State.storeWords_of_cap hr (a := a.toNat) (ws := [v]) hcap, Memory.setWords]
  simp only [exec, execWrRegReq]
  exact State.serve_of_inOrder h0 hr rfl hcap hwrite rfl

end

/-! ### The obligations -/

/-- Settles O17: the data are the coils of the image, packed. -/
theorem slaveAnswersReadsOfCoils : Obligations.SlaveAnswersReadsOfCoils := by
  intro s r addr qty h0 hr h1 hq hcap
  obtain ⟨hcoils, hdisc⟩ := exec_coilsReq h0 hr h1 hq hcap
  exact ⟨packBits (Memory.coils s.mem r.handle addr.toNat qty.toNat), by simp,
    fun k hk => Memory.getLsbD_packBits_coils s.mem r.handle addr.toNat hk,
    fun k hk hk' => Memory.getLsbD_packBits_coils_unused s.mem r.handle addr.toNat hk hk', hcoils, hdisc⟩

/-- Settles O18: the data are the words of the image, high byte first. -/
theorem slaveAnswersReadsOfRegisters : Obligations.SlaveAnswersReadsOfRegisters := by
  intro s r addr qty h0 hr h1 hq hcap
  obtain ⟨hhold, hinput⟩ := exec_wordsReq h0 hr h1 hq hcap
  refine ⟨bytesOfWords (Memory.words s.mem r.handle addr.toNat qty.toNat), by simp, fun i hi => ?_, hhold, hinput⟩
  rw [wordAt_bytesOfWords _ (by simpa using hi), Memory.getD_words _ _ _ hi]

/-- Settles O19: one coil is written, and with it no byte but the two of its word. -/
theorem slaveWritesOneCoil : Obligations.SlaveWritesOneCoil := by
  intro s r addr val h0 hr hcap
  have hmax : addr.toNat < 1048576 := by omega
  refine ⟨_, exec_wrCoilReq h0 hr hcap, ?_, Memory.sameCoilsOutside_setCoil _ _ _ hmax,
    Memory.sameOutside_setWord _ _ _ _⟩
  rw [Memory.coil_setCoil _ _ hmax hmax, if_pos ⟨rfl, rfl⟩]
  rfl

/-- Settles O20: one word is written. -/
theorem slaveWritesOneRegister : Obligations.SlaveWritesOneRegister := by
  intro s r addr val h0 hr hcap
  exact ⟨_, exec_wrRegReq h0 hr hcap, Memory.word_setWord_same _ _ _ _, Memory.sameOutside_setWord _ _ _ _⟩

/-- Settles O21: the bits of the data are written as coils from the address on, `qty` of them, and
nothing outside their words. -/
theorem slaveWritesManyCoils : Obligations.SlaveWritesManyCoils := by
  intro s r addr qty data h0 hr h1 hd hcap
  have hbits : qty.toNat ≤ 8 * data.length := hd ▸ le_mul_ceilDiv qty.toNat
  have hlen : (unpackBits data qty.toNat).length = qty.toNat := length_unpackBits hbits
  have hmax : addr.toNat + (unpackBits data qty.toNat).length ≤ 1048576 := by rw [hlen]; omega
  have hcoils := Memory.sameCoilsOutside_setCoils s.mem r.handle hmax
  have hwords := Memory.sameOutside_setCoils s.mem r.handle addr.toNat (unpackBits data qty.toNat)
  rw [hlen] at hcoils hwords
  refine ⟨_, exec_wrCoilsReq h0 hr h1 hd hcap, fun k hk => ?_, hcoils, hwords⟩
  rw [Memory.coil_setCoils_add _ _ hmax (hlen.symm ▸ hk), getD_unpackBits hbits hk]

/-- Settles O22: the words of the data are written from the address on, `qty` of them. -/
theorem slaveWritesManyRegisters : Obligations.SlaveWritesManyRegisters := by
  intro s r addr qty data h0 hr h1 hd hcap
  have hlen : (wordsOfBytes data).length = qty.toNat := by rw [length_wordsOfBytes]; omega
  have hmax : addr.toNat + (wordsOfBytes data).length ≤ 65536 := by have := r.cap.isLt; omega
  refine ⟨_, exec_wrRegsReq h0 hr h1 hd hcap, fun i hi => ?_,
    hlen ▸ Memory.sameOutside_setWords s.mem r.handle addr.toNat (wordsOfBytes data)⟩
  rw [Memory.word_setWords_add _ _ hmax (hlen.symm ▸ hi), getD_wordsOfBytes data (by omega)]

end Sys2Proof.Machine

/-! ## The polls: `state` and the counters by their result, and the master's cycle (R235 to R246, R270 to R272) -/

namespace Sys2Proof.Machine

/-! ### The endings of a poll, and `state` -/

section
variable {s : State}

/-- R245, R250: the end of a transaction leaves `IDLE`, where a slave is already. -/
theorem State.endTransaction_idle (hslave : s.ownId ≠ 0 → s.phase = .idle) : s.endTransaction.phase = .idle := by
  rw [State.endTransaction_phase]
  split
  · rfl
  · exact hslave ‹_›

theorem State.takeException_idle (hslave : s.ownId ≠ 0 → s.phase = .idle) (k : ErrKind) (x : Byte) :
    (s.takeException k x).phase = .idle :=
  State.endTransaction_idle (s := s.emptyBuf) hslave

theorem State.complete_idle (hslave : s.ownId ≠ 0 → s.phase = .idle) (fc : Byte) : (s.complete fc).phase = .idle :=
  State.endTransaction_idle (s := s.emptyBuf) hslave

end

/-- R245: a frame leaves an engine in `IDLE`, whatever its role. -/
theorem FrameEnd.phase_idle {u t : State} (h : FrameEnd u t) (hslave : u.ownId ≠ 0 → u.phase = .idle) :
    t.phase = .idle := by
  cases h with
  | ignored h0 => exact hslave h0
  | dropped | failed => exact State.takeException_idle hslave _ _
  | refused _ rfc e => exact State.takeException_idle (s := u.transmit _) hslave _ _
  | served _ m _ body fc => exact State.complete_idle (s := State.transmit { u with mem := m } (append body)) hslave _
  | accepted _ _ m _ fc => exact State.complete_idle (s := { u with mem := m }) hslave _

/-- R272: a poll that has taken a frame has something to report. -/
theorem FrameEnd.kind_ne_none {u t : State} (h : FrameEnd u t) {r : PollResult} (hr : t.result = .poll r) :
    r.kind ≠ .none := by
  cases h <;> (cases hr; simp)

/-- R246: a frame leaves the buffer empty. -/
theorem FrameEnd.buf_eq_nil {u t : State} (h : FrameEnd u t) : t.buf = [] := by
  cases h with
  | ignored => rfl
  | dropped | failed | refused => exact State.takeException_buf _ _ _
  | served | accepted => exact State.complete_buf _ _

/-- A frame is counted when it is taken, not where it ends (R237, R252). -/
theorem FrameEnd.inCnt_eq {u t : State} (h : FrameEnd u t) : t.inCnt = u.inCnt := by
  cases h <;> simp [State.refuseRequest]

/-- R245: a poll keeps `state` exactly where it has nothing to report. -/
theorem PollEnd.phase_eq {s t : State} (h : PollEnd s t) (hslave : s.ownId ≠ 0 → s.phase = .idle) :
    t.phase = if t.result = pollNone then s.phase else .idle := by
  cases h with
  | idle | silent | read => rfl
  | timedOut => exact State.takeException_idle hslave _ _
  | overflow _ q => exact State.takeException_idle (s := { s.emptyBuf with rxq := q }) hslave _ _
  | frame _ _ _ hf => rw [if_neg fun hn : t.result = pollNone => hf.kind_ne_none hn rfl]; exact hf.phase_idle hslave

theorem PollEnd.phase_idle {s t : State} (h : PollEnd s t) (hslave : s.ownId ≠ 0 → s.phase = .idle)
    (hp : s.phase = .idle) : t.phase = .idle := by
  rw [h.phase_eq hslave, hp, ite_self]

/-- R245: of the operations of the host only an accepted `QUERY` leads from `IDLE` to `WAITING`. -/
theorem OpEnd.waiting_of_idle {s t : State} {i : Instr} (h : OpEnd s i t) (hslave : s.ownId ≠ 0 → s.phase = .idle)
    (hp : s.phase = .idle) (hw : t.phase = .waiting) : s.ownId = 0 ∧ t.result = .query .ok := by
  have hidle : t.phase ≠ .idle := by rw [hw]; decide
  cases h with
  | queried _ master => exact ⟨master, rfl⟩
  | poll _ ht => exact absurd (ht.phase_idle hslave hp) hidle
  | pollr _ _ ht => exact absurd (ht.phase_idle hslave hp) hidle
  | started | idSet => exact absurd rfl hidle
  | gotState | gotErr | gotIn | gotOut | gotErrCnt | timeoutSet | idRejected | queryRefused => exact absurd hp hidle

theorem StepEnd.waiting_of_idle {s t : State} (h : StepEnd s t) (hslave : s.ownId ≠ 0 → s.phase = .idle)
    (hp : s.phase = .idle) (hw : t.phase = .waiting) : s.ownId = 0 ∧ t.result = .query .ok := by
  have hidle : t.phase ≠ .idle := by rw [hw]; decide
  cases h with
  | op _ _ _ _ _ _ ho => exact ho.waiting_of_idle hslave hp hw
  | unscheduled | rxByte | tick | imageWrite => exact absurd hp hidle
  | rst => exact absurd rfl hidle

/-- R245, R259 a: a slave is never in `WAITING`. -/
theorem State.Inv.master_of_waiting {s : State} (hs : s.Inv) (hw : s.phase = .waiting) : s.ownId = 0 := by
  obtain ⟨-, -, hslave, -⟩ := hs
  by_contra h0
  exact absurd (hw.symm.trans (hslave h0)) (by decide)

/-- Settles O51: the table is read off the endings of a step, and a poll moves `state` by its result. -/
theorem stateFollowsTheTransitionTable : Obligations.StateFollowsTheTransitionTable := by
  intro s t e rest hs hsch h
  have ⟨_, _, hslave, _⟩ := hs
  have hend := step_ends hs.length_le h
  refine ⟨?table, (hend.inv hs).master_of_waiting, hend.waiting_of_idle hslave⟩
  cases hend with
  | unscheduled hnil => cases hnil.symm.trans hsch
  | rxByte _ _ he | tick _ _ he | imageWrite _ _ _ _ he | rst _ he => cases he.symm.trans hsch; rfl
  | op c i rest' _ he hd ho =>
    cases he.symm.trans hsch
    simp only [hd]
    cases ho with
    | poll _ hp => exact hp.phase_eq hslave
    | pollr _ _ hp => exact hp.phase_eq hslave
    | idRejected _ hid => exact (if_pos hid).symm
    | idSet _ hne hle => exact (if_neg (not_or.2 ⟨hne, Nat.not_lt.2 hle⟩)).symm
    | queryRefused _ r hr => exact (if_neg fun heq => hr (by cases heq; rfl)).symm
    | queried | started | timeoutSet | gotState | gotErr | gotIn | gotOut | gotErrCnt => rfl

/-! ### The endings of a poll, and the counters -/

/-- R246, R255, R256, R272: what the result `r` of a poll from `s` to `t` says of the errors and the answers counted. -/
def State.CountsByResult (s t : State) (r : PollResult) : Prop :=
  t.result = .poll r ∧
  t.errCnt = (if r.kind = .error then s.errCnt + 1 else s.errCnt) ∧
  t.outCnt = (if s.ownId ≠ 0 ∧ (r.kind = .done ∨ (r.kind = .error ∧
      t.lastError ∈ [ErrKind.illegalFunction, .illegalQuantity, .illegalAddressRange]))
    then s.outCnt + 1 else s.outCnt)

/-- A failure for which nothing is sent: one of a master, or one that a slave only records. -/
theorem State.countsByResult_takeException {s : State} {k : ErrKind}
    (hsilent : s.ownId = 0 ∨ k ∉ [ErrKind.illegalFunction, .illegalQuantity, .illegalAddressRange]) (x : Byte) :
    s.CountsByResult (s.takeException k x) ⟨.error, 0, errWord x k⟩ := by
  refine ⟨rfl, rfl, ?_⟩
  rw [State.takeException_outCnt, if_neg]
  rintro ⟨h0, hdone | ⟨-, hk⟩⟩
  · cases hdone
  · exact hsilent.elim h0 fun hn => hn hk

/-- R294: a slave answers each failure that has a code on the wire, but the one that is never raised. -/
theorem errOfExc_mem {e : ExcKind} (he : e ≠ .executionFailure) :
    errOfExc e ∈ [ErrKind.illegalFunction, .illegalQuantity, .illegalAddressRange] := by
  cases e
  case executionFailure => exact absurd rfl he
  all_goals decide

/-- R272: a frame counts an error or an answer as its result says. -/
theorem FrameEnd.countsByResult {u t : State} (h : FrameEnd u t) : ∃ r, u.CountsByResult t r := by
  cases h with
  | ignored => exact ⟨⟨.ignored, 0, 0⟩, rfl, rfl, by simp⟩
  | dropped => exact ⟨_, State.countsByResult_takeException (.inr (by decide)) 0⟩
  | failed master _ k x => exact ⟨_, State.countsByResult_takeException (.inl master) x⟩
  | refused slave rfc e he =>
    refine ⟨⟨.error, 0, errWord 0 (errOfExc e)⟩, rfl, rfl, ?_⟩
    rw [if_pos ⟨slave, .inr ⟨rfl, errOfExc_mem he⟩⟩]
    exact State.takeException_outCnt _ _ _
  | served slave m _ body fc =>
    refine ⟨⟨.done, fc, 0⟩, rfl, State.complete_errCnt _ _, ?_⟩
    rw [if_pos ⟨slave, .inl rfl⟩]
    exact State.complete_outCnt _ _
  | accepted master _ m _ fc =>
    refine ⟨⟨.done, fc, 0⟩, rfl, State.complete_errCnt _ _, ?_⟩
    rw [if_neg fun hout => hout.1 master]
    exact State.complete_outCnt _ _

theorem PollEnd.countsByResult {s t : State} (h : PollEnd s t) : ∃ r, s.CountsByResult t r := by
  cases h with
  | idle | silent | read => exact ⟨⟨.none, 0, 0⟩, rfl, rfl, by simp⟩
  | timedOut => exact ⟨_, State.countsByResult_takeException (.inr (by decide)) 0⟩
  | overflow _ q =>
    exact ⟨_, State.countsByResult_takeException (s := { s.emptyBuf with rxq := q }) (.inr (by decide)) 0⟩
  | frame _ _ _ hf => exact hf.countsByResult

/-- R237, R252: a poll that takes a frame counts it and reports on it; one that takes none has nothing to report or has
failed. -/
theorem PollEnd.inCnt_cases {s t : State} (h : PollEnd s t) {r : PollResult} (hr : t.result = .poll r) :
    (t.inCnt = s.inCnt ∧ (r.kind = .none ∨ r.kind = .error)) ∨ (t.inCnt = s.inCnt + 1 ∧ r.kind ≠ .none) := by
  cases h with
  | idle | silent | read => cases hr; exact .inl ⟨rfl, .inl rfl⟩
  | timedOut | overflow => cases hr; exact .inl ⟨State.takeException_inCnt _ _ _, .inr rfl⟩
  | frame _ _ _ hf => exact .inr ⟨hf.inCnt_eq, hf.kind_ne_none hr⟩

/-- R246: a poll that has something to report leaves the buffer empty. -/
theorem PollEnd.buf_eq_nil {s t : State} (h : PollEnd s t) {r : PollResult} (hr : t.result = .poll r)
    (hk : r.kind ≠ .none) : t.buf = [] := by
  cases h with
  | idle | silent | read => cases hr; exact absurd rfl hk
  | timedOut | overflow => exact State.takeException_buf _ _ _
  | frame _ _ _ hf => exact hf.buf_eq_nil

/-- Settles O54: the errors and the answers by the result, the frame by where it is taken, `state` and the buffer by
whether there is something to report. -/
theorem pollsCountByTheirResult : Obligations.PollsCountByTheirResult := by
  intro s t hs h
  have ⟨_, _, hslave, _⟩ := hs
  have hend : PollEnd s t := State.pollBody_ends hs.length_le h
  obtain ⟨r, hr, herr, hout⟩ := hend.countsByResult
  refine ⟨r, hr, herr, hout, ?atMostOne, ?counted, ?uncounted, fun hk => ⟨hend.buf_eq_nil hr hk, ?idle⟩,
    fun h0 => hend.phase_idle hslave (hslave h0)⟩
  case idle => rw [hend.phase_eq hslave, if_neg fun hn => hk (by cases hr.symm.trans hn; rfl)]
  all_goals rcases hend.inCnt_cases hr with ⟨hin, hk⟩ | ⟨hin, hk⟩
  case atMostOne.inl => exact .inl hin
  case atMostOne.inr => exact .inr hin
  case counted.inl => rcases hk with hk | hk <;> simp [hk]
  case counted.inr => exact fun _ => hin
  case uncounted.inl => exact fun _ => hin
  case uncounted.inr => exact fun hn => absurd hn hk

/-! ### A poll of a waiting master -/

section
variable {s : State}

/-- R235: the detector of an idle master does not run. -/
theorem State.pollBody_idle (h0 : s.ownId = 0) (hp : s.phase = .idle) : s.pollBody = .next (s.answer pollNone) := by
  simp only [State.pollBody, if_pos h0, hp]

/-- R236: within the time-out a poll in `WAITING` is the boundary detector's. -/
theorem State.pollBody_of_in_time (h0 : s.ownId = 0) (hw : s.phase = .waiting) {sent : Time}
    (hsent : s.tSend = some sent) (hin : (s.now - sent).toNat ≤ s.timeout.toNat) :
    s.pollBody = s.receive State.masterFrame := by
  rw [State.pollBody_waiting h0 hw]
  simp only [State.masterPollWaiting, hsent]
  exact if_neg (Nat.not_lt.2 hin)

/-- R236, R242: past the time-out the poll fails before anything is read. -/
theorem State.pollBody_of_timed_out (h0 : s.ownId = 0) (hw : s.phase = .waiting) {sent : Time}
    (hsent : s.tSend = some sent) (hout : s.timeout.toNat < (s.now - sent).toNat) :
    s.pollBody = .next (s.afterMasterFailure .noReply 0) := by
  rw [State.pollBody_waiting h0 hw, ← State.takeException_master h0]
  simp only [State.masterPollWaiting, hsent]
  exact if_pos hout

theorem State.receive_of_completes {t : Time} (hc : s.Completes t)
    (frame : State → Host.Outcome State Fault Refusal) : s.receive frame = frame s := by
  simp only [State.receive, State.rxStep_completes hc]

/-- R176: of the pending bytes those that fill the buffer, and the one too many, are gone. -/
def State.afterOverflow (s : State) : State :=
  { s with rxq := s.rxq.drop (s.cfg.frameCap - s.buf.length + 1) }

/-- R238, R251: a byte too many for the buffer is a failure of the poll. -/
theorem State.receive_of_overflow (hb : s.buf.length ≤ s.cfg.frameCap)
    (hover : s.cfg.frameCap < s.buf.length + s.rxq.length) (frame : State → Host.Outcome State Fault Refusal) :
    s.receive frame = .next (s.afterOverflow.takeException .bufferOverflow 0) := by
  have hq : s.rxq ≠ [] := List.ne_nil_of_length_pos (by omega)
  simp only [State.receive, State.rxStep_reads hq hb, if_neg (Nat.not_le.2 hover)]
  rfl

end

/-- Settles O30: an idle master's poll is the answer NONE. -/
theorem idleMasterPollDoesNothing : Obligations.IdleMasterPollDoesNothing :=
  fun _ h0 hp => State.pollBody_idle h0 hp

/-- Settles O28: the detector overflows alike in both roles, and the exception is taken as the role takes it. -/
theorem overflowIsRecordedInEitherRole : Obligations.OverflowIsRecordedInEitherRole := by
  intro s hb hover
  have hrecv := State.receive_of_overflow hb hover
  refine ⟨fun h0 => ?slave, fun sent h0 hw hsent hin => ?master⟩
  case slave =>
    exact ((State.pollBody_slave h0).trans (hrecv _)).trans
      (congrArg _ (State.takeException_slave (s := s.afterOverflow) h0 _))
  case master =>
    exact ((State.pollBody_of_in_time h0 hw hsent hin).trans (hrecv _)).trans
      (congrArg _ (State.takeException_master (s := s.afterOverflow) h0 _ _))

section
variable {s : State}

/-- R171: a step of the detector that neither completes nor overflows leaves `state`, whatever is buffered; one that
completes changes nothing. -/
theorem State.rxStep_ok {s' : State} {r : RxResult} (h : s.rxStep = .ok (r, s')) :
    (r = .incomplete ∧ s'.phase = s.phase) ∨ r = .overflow ∨ (r = .complete ∧ s' = s) := by
  unfold State.rxStep at h
  split at h
  · split at h
    · cases h
    · cases h
      cases r with
      | incomplete => exact .inl ⟨rfl, rfl⟩
      | overflow => exact .inr (.inl rfl)
      | complete => exact .inr (.inr ⟨rfl, rfl⟩)
  · unfold State.rxRead at h
    split at h
    · cases h; exact .inr (.inl rfl)
    · cases h; exact .inl ⟨rfl, rfl⟩

/-- R236, R250: a poll past the detector keeps `state`, records an overflow, or is what is done with the frame. -/
theorem State.receive_next {t : State} {frame : State → Host.Outcome State Fault Refusal}
    (h : s.receive frame = .next t) : t.phase = s.phase ∨ t.lastError = .bufferOverflow ∨ frame s = .next t := by
  unfold State.receive at h
  split at h
  · cases h
  · rename_i s' hx
    cases h
    obtain ⟨-, hp⟩ | hr | ⟨hr, -⟩ := State.rxStep_ok hx
    · exact .inl hp
    · cases hr
    · cases hr
  · cases h; exact .inr (.inl rfl)
  · rename_i s' hx
    obtain ⟨hr, -⟩ | hr | ⟨-, rfl⟩ := State.rxStep_ok hx
    · cases hr
    · cases hr
    · exact .inr (.inr h)

end

/-- Settles O32: the time-out is judged before the detector runs, and the detector leaves `WAITING` only by an overflow
or a frame. -/
theorem timeOutIsStrictAndComesFirst : Obligations.TimeOutIsStrictAndComesFirst := by
  intro s sent h0 hw hsent
  refine ⟨fun hout => State.pollBody_of_timed_out h0 hw hsent hout, fun hin t h hidle => ?_⟩
  have hrecv := (State.pollBody_of_in_time h0 hw hsent hin).symm.trans h
  obtain hp | hover | hframe := State.receive_next hrecv
  · exact absurd (hidle.symm.trans (hp.trans hw)) (by decide)
  · exact .inr hover
  · exact .inl (State.masterFrame_ends h0 hw hframe).inCnt_eq

/-! ### The verdict on an answer (R185, R107) -/

section
variable {f : List Byte}

/-- The verdict on an answer with a good checksum and bit 7 set is by its length alone. -/
theorem validateAnswer_of_bit7 (hv : verify f = true) (h7 : (byteAt f 1).getLsbD 7 = true) :
    validateAnswer f = if f.length = 5 then validateException f else .ok .noReply := by
  have h4 := ((verify_iff f).1 hv).1
  simp only [validateAnswer, if_pos hv, memRead1_of_lt (show 1 < f.length by omega), if_pos h7]

/-- R185: with a good checksum and bit 7 clear an unsupported function code is refused, whatever the length. -/
theorem validateAnswer_of_unsupported (hv : verify f = true) (h7 : (byteAt f 1).getLsbD 7 = false)
    (hfc : fcOf (byteAt f 1) = none) : validateAnswer f = .ok .illegalFunction := by
  have h4 := ((verify_iff f).1 hv).1
  simp only [validateAnswer, if_pos hv, memRead1_of_lt (show 1 < f.length by omega), h7, Bool.false_eq_true, if_false,
    hfc]

/-- R185, R107: with a good checksum a supported function code is judged by its length. -/
theorem validateAnswer_of_supported (hv : verify f = true) {fc : Fc} (hfc : fcOf (byteAt f 1) = some fc) :
    validateAnswer f = .ok (if wellFormedResponse fc f then .ok else .noReply) := by
  have h4 := ((verify_iff f).1 hv).1
  have h7 : (byteAt f 1).getLsbD 7 = false := fcByte_of_fcOf hfc ▸ fcByte_bit7 fc
  simp only [validateAnswer, if_pos hv, memRead1_of_lt (show 1 < f.length by omega), h7, Bool.false_eq_true, if_false,
    hfc]

theorem validateAnswer_of_bad_checksum (hv : verify f = false) : validateAnswer f = .ok .noReply :=
  if_neg (by simp [hv])

/-- R107: a length that is not the one the function code asks for. -/
theorem validateAnswer_of_bad_length (hv : verify f = true) {fc : Fc} (hfc : fcOf (byteAt f 1) = some fc)
    (hl : wellFormedResponse fc f ≠ true) : validateAnswer f = .ok .noReply := by
  rw [validateAnswer_of_supported hv hfc, if_neg hl]

/-- R94: the function codes answered with data. -/
theorem fcOf_of_mem_reads {b : Byte} (h : b ∈ [0x01#8, 0x02#8, 0x03#8, 0x04#8]) :
    ∃ fc, fcOf b = some fc ∧ (fc = .rdCoils ∨ fc = .rdDisc ∨ fc = .rdHold ∨ fc = .rdInput) := by
  simp only [List.mem_cons, List.not_mem_nil, or_false] at h
  rcases h with rfl | rfl | rfl | rfl <;> exact ⟨_, rfl, by simp⟩

/-- R95: the function codes answered with an acknowledgement. -/
theorem fcOf_of_mem_writes {b : Byte} (h : b ∈ [0x05#8, 0x06#8, 0x0F#8, 0x10#8]) :
    ∃ fc, fcOf b = some fc ∧ (fc = .wrCoil ∨ fc = .wrReg ∨ fc = .wrCoils ∨ fc = .wrRegs) := by
  simp only [List.mem_cons, List.not_mem_nil, or_false] at h
  rcases h with rfl | rfl | rfl | rfl <;> exact ⟨_, rfl, by simp⟩

theorem bit7_iff (b : Byte) : b.getLsbD 7 = true ↔ 128 ≤ b.toNat := by
  revert b; decide

/-- R107, R185: an answer with a bad checksum, or of a wrong length for its function byte, is none. -/
theorem validateAnswer_eq_noReply
    (h : verify f = false ∨
      (128 ≤ (byteAt f 1).toNat ∧ f.length ≠ 5) ∨
      (byteAt f 1 ∈ [0x01#8, 0x02#8, 0x03#8, 0x04#8] ∧ (f.length < 5 ∨ f.length ≠ 5 + (byteAt f 2).toNat)) ∨
      (byteAt f 1 ∈ [0x05#8, 0x06#8, 0x0F#8, 0x10#8] ∧ f.length ≠ 8)) :
    validateAnswer f = .ok .noReply := by
  cases hv : verify f with
  | false => exact validateAnswer_of_bad_checksum hv
  | true =>
    rcases h with hbad | ⟨h7, hl⟩ | ⟨hfc, hl⟩ | ⟨hfc, hl⟩
    · rw [hv] at hbad; cases hbad
    · rw [validateAnswer_of_bit7 hv ((bit7_iff _).2 h7), if_neg hl]
    · obtain ⟨fc, hfc, hread⟩ := fcOf_of_mem_reads hfc
      refine validateAnswer_of_bad_length hv hfc fun hw => ?_
      obtain ⟨h5, hdata, -⟩ := wellFormedResponse_length hw
      have := hdata hread
      omega
    · obtain ⟨fc, hfc, hwrite⟩ := fcOf_of_mem_writes hfc
      refine validateAnswer_of_bad_length hv hfc fun hw => ?_
      obtain ⟨-, -, h8⟩ := wellFormedResponse_length hw
      exact hl (h8 hwrite)

end

/-! ### The master takes the frame it has received -/

section
variable {s : State}

/-- R236, R237: a poll of a waiting master within its time-out takes the frame that is complete. -/
theorem State.pollBody_takes_answer (h0 : s.ownId = 0) (hw : s.phase = .waiting) {sent t : Time}
    (hsent : s.tSend = some sent) (hin : (s.now - sent).toNat ≤ s.timeout.toNat) (hc : s.Completes t) :
    s.pollBody = s.masterFrame :=
  (State.pollBody_of_in_time h0 hw hsent hin).trans (State.receive_of_completes hc _)

/-- R240: what the master records for a verdict against a frame. -/
theorem State.masterFrame_of_noReply (h0 : s.ownId = 0) (hv : validateAnswer s.buf = .ok .noReply) :
    s.masterFrame = .next (State.afterMasterFailure { s with inCnt := s.inCnt + 1 } .noReply 0) := by
  simp only [State.masterFrame, hv, State.takeException_master (s := s.consume) h0]
  rfl

theorem State.masterFrame_of_illegalFunction (h0 : s.ownId = 0) (hv : validateAnswer s.buf = .ok .illegalFunction) :
    s.masterFrame = .next (State.afterMasterFailure { s with inCnt := s.inCnt + 1 } .illegalFunction 0) := by
  simp only [State.masterFrame, hv, State.takeException_master (s := s.consume) h0]
  rfl

/-- A response is dispatched to its own meaning. -/
theorem dispatchFrame_of_decodeResponse {f : List Byte} {i : Instr} (h : decodeResponse f = .ok i) (s : State) :
    dispatchFrame i s = exec i s := by
  obtain ⟨-, ⟨-, -, hi⟩ | ⟨fc, -, -, hi⟩⟩ := decodeResponse_ok.1 h
  · obtain ⟨id, fn, code, rfl⟩ := exceptionOf_ok hi
    rfl
  · unfold responseOf at hi
    split at hi
    · cases hi
    · cases fc
      case rdCoils | rdDisc | rdHold | rdInput => obtain ⟨d, rfl⟩ := withResponseData_ok hi; rfl
      case wrCoil | wrReg | wrCoils | wrRegs => obtain ⟨a, w, rfl⟩ := withTwoWords_ok hi; rfl

/-- The validator accepts what decodes as a response: an exception, or a normal answer (R185). -/
theorem validateAnswer_of_decodes {f : List Byte} {i : Instr} (h : decodeResponse f = .ok i) :
    validateAnswer f = .ok .ok ∨ ∃ code, validateAnswer f = .ok (.remoteException code) := by
  obtain ⟨hv, ⟨h7, hl, -⟩ | ⟨fc, hfc, hw, -⟩⟩ := decodeResponse_ok.1 h
  · refine .inr ⟨byteAt f 2, ?_⟩
    rw [validateAnswer_of_bit7 hv h7, if_pos hl]
    simp only [validateException, memRead1_of_lt (show 2 < f.length by omega)]
  · exact .inl (by rw [validateAnswer_of_supported hv hfc, if_pos hw])

/-- A master that has received a response runs it (R237, R154). -/
theorem State.masterFrame_runs {i : Instr} (hd : decodeResponse s.buf = .ok i) : s.masterFrame = exec i s.consume := by
  have hrun : runFrame .response s.buf s.consume = exec i s.consume :=
    (runFrame_of_ok (d := .response) hd _).trans (dispatchFrame_of_decodeResponse hd _)
  rcases validateAnswer_of_decodes hd with hv | ⟨code, hv⟩ <;> simpa only [State.masterFrame, hv] using hrun

end

/-- Settles O37: the validator's two verdicts against a frame, each with what the master records for it. -/
theorem masterEndsTheTransactionOnBadAnswers : Obligations.MasterEndsTheTransactionOnBadAnswers := by
  intro s sent t h0 hw hsent hin hc
  have htakes : exec .poll s = s.masterFrame := State.pollBody_takes_answer h0 hw hsent hin hc
  refine ⟨fun hbad => ?noReply, fun hv hlow hfc => ?illegalFunction⟩
  case noReply => exact htakes.trans (State.masterFrame_of_noReply h0 (validateAnswer_eq_noReply hbad))
  case illegalFunction =>
    have h7 : (byteAt s.buf 1).getLsbD 7 = false := by
      rw [← Bool.not_eq_true, bit7_iff]
      exact Nat.not_le.2 hlow
    exact htakes.trans (State.masterFrame_of_illegalFunction h0
      (validateAnswer_of_unsupported hv h7 (fcOf_eq_none_iff.2 hfc)))

/-- R45, R115: the two polls at the command port. -/
theorem step_poll {s : State} {c : Command} (hc : c.op = 0x4) (rest : List Event) :
    step { s with schedule := .op c :: rest } = State.pollBody { s with schedule := rest } :=
  stepRunsTheHostOperation s c rest .poll (by simp [decodeCommand, hc])

theorem step_pollr {s : State} {c : Command} (hc : c.op = 0x5) (rest : List Event) :
    step { s with schedule := .op c :: rest } =
      State.pollBody { s with schedule := rest, imgRef := some c.img } :=
  stepRunsTheHostOperation s c rest (.pollr c.img) (by simp [decodeCommand, hc])

/-- Settles O13: a poll takes the answer, whatever is attached and scheduled, and the answer is run on what is left. -/
theorem stepRunsTheReceivedAnswer : Obligations.StepRunsTheReceivedAnswer := by
  intro s c rest sent t i h0 hw hsent hin hc hd
  refine ⟨fun hop => ?poll, fun hop => ?pollr⟩
  case poll =>
    exact (step_poll hop rest).trans
      ((State.pollBody_takes_answer (s := { s with schedule := rest }) h0 hw hsent hin hc).trans
        (State.masterFrame_runs hd))
  case pollr =>
    exact (step_pollr hop rest).trans
      ((State.pollBody_takes_answer (s := { s with schedule := rest, imgRef := some c.img }) h0 hw hsent hin hc).trans
        (State.masterFrame_runs hd))

/-- Settles O36: the peer's code is recorded as an exception is taken in the master role. -/
theorem masterRecordsExceptionAnswers : Obligations.MasterRecordsExceptionAnswers := by
  intro s id fn code h0 hw
  rw [← State.takeException_master h0]
  exact if_pos ⟨h0, hw⟩

/-! ### The refusals of a query -/

/-- Settles O39: the three tests of R232, in their order. -/
theorem queryRefusalsChangeNothing : Obligations.QueryRefusalsChangeNothing := by
  intro s tel
  refine ⟨fun h0 => if_pos h0, fun h0 hp => ?alreadyWaiting, fun h0 hp hid => ?invalidTargetId⟩
  case alreadyWaiting =>
    exact (if_neg (not_not.2 h0)).trans (if_pos hp)
  case invalidTargetId =>
    exact (if_neg (not_not.2 h0)).trans ((if_neg (not_not.2 hp)).trans (if_pos hid))

end Sys2Proof.Machine

/-! ## The slave cycle: the frames it runs, discards and drops (R250 to R254) -/

namespace Sys2Proof.Machine

/-! ### The slave takes the frame it has received -/

section
variable {s : State}

/-- R250, R252, R205: a poll of a slave runs the request it has received. -/
theorem State.pollBody_runs_request (h0 : s.ownId ≠ 0) {t : Time} (hc : s.Completes t) {i : Instr}
    (hd : decodeRequest s.buf = .ok i) : s.pollBody = exec i s.consume :=
  (exec_poll_of_completes h0 hc).trans (State.slaveFrame_runs h0 hd)

/-- R253: the id is matched before anything else, and a frame for another device is discarded. -/
theorem State.slaveFrame_of_foreign (hb : s.buf ≠ []) (hid : byteAt s.buf 0 ≠ s.ownId) :
    s.slaveFrame = .next s.consume.ignore := by
  simp only [State.slaveFrame, withByte, memRead1_of_lt (List.length_pos_iff.2 hb)]
  exact if_pos hid

/-- R254: a frame for this slave that the validator drops is a failure for which nothing is sent. -/
theorem State.slaveFrame_of_noReply (h0 : s.ownId ≠ 0) (hb : s.buf ≠ []) (hid : byteAt s.buf 0 = s.ownId)
    (hv : validateRequest s.cfg.frameCap s.cap s.buf = .ok .noReply) :
    s.slaveFrame = .next (State.afterSlaveFailure { s with inCnt := s.inCnt + 1 } .noReply) := by
  have hv' : validateRequest s.consume.cfg.frameCap s.consume.cap s.buf = .ok .noReply := hv
  have hid' : ¬byteAt s.buf 0 ≠ s.consume.ownId := not_not.2 hid
  simp only [State.slaveFrame, withByte, memRead1_of_lt (List.length_pos_iff.2 hb), if_neg hid', hv',
    State.takeException_slave (s := s.consume) h0]
  rfl

/-- R253: a decoded request for another device is discarded. -/
theorem exec_request_of_foreign (h0 : s.ownId ≠ 0) {i : Instr} {id : Byte} {fc : Fc} {a f2 : Word} {bc : Nat}
    (hf : i.requestFields = some (id, fc, a, f2, bc)) (hid : id ≠ s.ownId) : exec i s = .next s.ignore := by
  obtain ⟨handler, hexec⟩ := dispatchFrame_request hf
  rw [(hexec s).2, State.serve, if_neg h0, if_pos hid]

end

/-- Settles O12: a poll takes the request, whatever is attached and scheduled, and the request is run on what is left. -/
theorem stepRunsTheReceivedRequest : Obligations.StepRunsTheReceivedRequest := by
  intro s c rest t i h0 hc hd
  refine ⟨fun hop => ?poll, fun hop => ?pollr⟩
  case poll =>
    exact (step_poll hop rest).trans (State.pollBody_runs_request (s := { s with schedule := rest }) h0 hc hd)
  case pollr =>
    exact (step_pollr hop rest).trans
      (State.pollBody_runs_request (s := { s with schedule := rest, imgRef := some c.img }) h0 hc hd)

/-- Settles O25: the id is matched before the frame is judged, and again before a decoded request is. -/
theorem slaveDiscardsForeignFrames : Obligations.SlaveDiscardsForeignFrames := by
  refine ⟨fun s t h0 hc hid => ?frame, fun s i id fc addr f2 bc h0 hf hid => exec_request_of_foreign h0 hf hid⟩
  case frame =>
    have ⟨_, hb, _⟩ := hc
    exact (exec_poll_of_completes h0 hc).trans (State.slaveFrame_of_foreign hb hid)

/-! ### The frames the validator drops (R191, R193, R107) -/

/-- R107: a request without data is 8 bytes long. -/
theorem length_eq_eight_of_wellFormedRequest {fc : Fc} {f : List Byte} (h : wellFormedRequest fc f = true)
    (hc : fc ≠ .wrCoils) (hr : fc ≠ .wrRegs) : f.length = 8 := by
  cases fc
  case wrCoils => exact absurd rfl hc
  case wrRegs => exact absurd rfl hr
  all_goals exact of_decide_eq_true h

/-- R92: the function codes of the requests without data. -/
theorem fcOf_of_mem_requestsWithoutData {b : Byte} (h : b ∈ [0x01#8, 0x02#8, 0x03#8, 0x04#8, 0x05#8, 0x06#8]) :
    ∃ fc, fcOf b = some fc ∧ fc ≠ .wrCoils ∧ fc ≠ .wrRegs := by
  simp only [List.mem_cons, List.not_mem_nil, or_false] at h
  rcases h with rfl | rfl | rfl | rfl | rfl | rfl <;> exact ⟨_, rfl, by decide, by decide⟩

/-- R93: the function codes of the requests with data. -/
theorem fcOf_of_mem_requestsWithData {b : Byte} (h : b ∈ [0x0F#8, 0x10#8]) :
    ∃ fc, fcOf b = some fc ∧ (fc = .wrCoils ∨ fc = .wrRegs) := by
  simp only [List.mem_cons, List.not_mem_nil, or_false] at h
  rcases h with rfl | rfl
  · exact ⟨.wrCoils, rfl, .inl rfl⟩
  · exact ⟨.wrRegs, rfl, .inr rfl⟩

section
variable {f : List Byte}

/-- R191: a request with a bad checksum is dropped, whatever it holds. -/
theorem validateRequest_of_bad_checksum (hv : verify f = false) (frameCap cap : Nat) :
    validateRequest frameCap cap f = .ok .noReply :=
  if_neg (by simp [hv])

/-- R193: a request with a good checksum, of a supported function code and a length that is not its format's, is
dropped. -/
theorem validateRequest_of_bad_length (hv : verify f = true) {fc : Fc} (hfc : fcOf (byteAt f 1) = some fc)
    (hl : wellFormedRequest fc f ≠ true) (frameCap cap : Nat) : validateRequest frameCap cap f = .ok .noReply := by
  have h4 := ((verify_iff f).1 hv).1
  simp only [validateRequest, if_pos hv, memRead1_of_lt (show 1 < f.length by omega), hfc, if_neg hl]

/-- R107, R191, R193: a request with a bad checksum, or of a wrong length for its function byte, is dropped. -/
theorem validateRequest_eq_noReply
    (h : verify f = false ∨
      (byteAt f 1 ∈ [0x01#8, 0x02#8, 0x03#8, 0x04#8, 0x05#8, 0x06#8] ∧ f.length ≠ 8) ∨
      (byteAt f 1 ∈ [0x0F#8, 0x10#8] ∧ (f.length < 9 ∨ f.length ≠ 9 + (byteAt f 6).toNat)))
    (frameCap cap : Nat) : validateRequest frameCap cap f = .ok .noReply := by
  cases hv : verify f with
  | false => exact validateRequest_of_bad_checksum hv frameCap cap
  | true =>
    rcases h with hbad | ⟨hb, hl⟩ | ⟨hb, hl⟩
    · exact absurd (hbad.symm.trans hv) Bool.false_ne_true
    · obtain ⟨fc, hfc, hc, hr⟩ := fcOf_of_mem_requestsWithoutData hb
      exact validateRequest_of_bad_length hv hfc (fun hw => hl (length_eq_eight_of_wellFormedRequest hw hc hr)) _ _
    · obtain ⟨fc, hfc, hdata⟩ := fcOf_of_mem_requestsWithData hb
      refine validateRequest_of_bad_length hv hfc (fun hw => ?_) _ _
      have hlen := (wellFormedRequest_length hw).2 hdata
      omega

end

/-- Settles O26: the validator's verdict on a bad frame is to drop it, and the slave takes that as its own failure. -/
theorem slaveDropsBadFrames : Obligations.SlaveDropsBadFrames := by
  intro s t h0 hc hid hbad
  have ⟨_, hb, _⟩ := hc
  exact (exec_poll_of_completes h0 hc).trans
    (State.slaveFrame_of_noReply h0 hb hid (validateRequest_eq_noReply hbad _ _))

end Sys2Proof.Machine

/-! ## The host operations: reserved codes, polls without a frame, what a poll reports, configuration (R265 to R280) -/

namespace Sys2Proof.Machine

/-! ### Reserved command codes are refused at the port, and nowhere else -/

section
variable {s : State}

/-- R217: a slave refuses no candidate frame; one of no bytes is the fault of R38. -/
theorem State.slaveFrame_ne_refused (h0 : s.ownId ≠ 0) (r : Refusal) : s.slaveFrame ≠ .refused r := by
  by_cases hb : s.buf = []
  · rw [State.slaveFrame_of_empty hb]; nofun
  · obtain ⟨t, ht⟩ := State.slaveFrame_completes h0 hb
    rw [ht]; nofun

theorem State.masterFrame_ne_refused (h0 : s.ownId = 0) (hw : s.phase = .waiting) (r : Refusal) :
    s.masterFrame ≠ .refused r := by
  obtain ⟨t, ht⟩ | hf := State.masterFrame_completesOrImageBound h0 hw
  · rw [ht]; nofun
  · rw [hf]; nofun

/-- The detector refuses nothing: what is refused past it is the frame. -/
theorem State.receive_refused {frame : State → Host.Outcome State Fault Refusal} {r : Refusal}
    (h : s.receive frame = .refused r) : frame s = .refused r := by
  unfold State.receive at h
  split at h
  case h_4 s' hx =>
    obtain ⟨hr, -⟩ | hr | ⟨-, rfl⟩ := State.rxStep_ok hx
    · cases hr
    · cases hr
    · exact h
  all_goals cases h

end

/-- A poll is refused in no state, reached or not. -/
theorem State.pollBody_ne_refused (s : State) (r : Refusal) : s.pollBody ≠ .refused r := by
  intro h
  by_cases h0 : s.ownId = 0
  · cases hp : s.phase with
    | idle => rw [State.pollBody_idle h0 hp] at h; cases h
    | waiting =>
      rw [State.pollBody_waiting h0 hp] at h
      unfold State.masterPollWaiting at h
      split at h
      · cases h
      · split at h
        · cases h
        · exact State.masterFrame_ne_refused h0 hp r (State.receive_refused h)
  · rw [State.pollBody_slave h0] at h
    exact State.slaveFrame_ne_refused h0 r (State.receive_refused h)

/-- R234: a query is refused by the engine only for the two preconditions of U1. -/
theorem execQuery_refused {tel : Telegram} {s : State} {r : Refusal} (h : execQuery tel s = .refused r) :
    r = .telegramUnsupported ∨ r = .telegramDoesNotFit := by
  unfold execQuery at h
  split at h
  · cases h
  · split at h
    · cases h
    · split at h
      · cases h
      · split at h
        · cases h; exact .inl rfl
        · split at h
          · unfold State.sendQuery at h
            simp only at h
            split at h <;> cases h
          · cases h; exact .inr rfl

/-- A command that decodes is not refused as reserved. -/
theorem exec_ne_reservedCommand {c : Command} {i : Instr} (hd : decodeCommand c = .ok i) (s : State) :
    exec i s ≠ .refused .reservedCommand := by
  have hm := decodeCommand_op hd
  simp only [List.mem_cons, List.not_mem_nil, or_false] at hm
  rcases hm with rfl | rfl | rfl | rfl | rfl | rfl | rfl | rfl | rfl | rfl | rfl
  · nofun
  · nofun
  · simp only [exec, execSetId]
    split <;> nofun
  · intro h
    obtain hr | hr := execQuery_refused h <;> cases hr
  · exact State.pollBody_ne_refused s _
  · exact State.pollBody_ne_refused { s with imgRef := some c.img } _
  all_goals nofun

/-- R115, R274: the codes that are no command. -/
theorem decodeCommand_error_iff {c : Command} :
    (∃ e, decodeCommand c = .error e) ↔ c.op = 0x6 ∨ c.op = 0x7 ∨ c.op = 0xD ∨ c.op = 0xE ∨ c.op = 0xF := by
  constructor
  · rintro ⟨e, h⟩
    unfold decodeCommand at h
    repeat' (split at h; · cases h)
    bv_omega
  · intro h
    refine ⟨.reservedCommand, ?_⟩
    rcases h with h | h | h | h | h <;> simp [decodeCommand, h]

/-- Settles O14: a code that is no command is refused at the port, and a command that decodes is refused, if at all, for
another reason. -/
theorem stepRefusesReservedCommands : Obligations.StepRefusesReservedCommands := by
  intro s c rest
  rw [← decodeCommand_error_iff]
  cases hd : decodeCommand c with
  | error e => simp [step, fetchCommand_of_error hd]
  | ok i =>
    rw [stepRunsTheHostOperation s c rest i hd]
    simp [exec_ne_reservedCommand hd]

/-! ### Polls that find no complete frame -/

/-- R236, R250: where the detector of this engine runs at a poll: in a slave, and in a waiting master within its
time-out. -/
def State.Listens (s : State) : Prop :=
  s.ownId ≠ 0 ∨ (s.phase = .waiting ∧ ∃ sent, s.tSend = some sent ∧ (s.now - sent).toNat ≤ s.timeout.toNat)

section
variable {s : State}

theorem State.Listens.pollBody_eq (h : s.Listens) : ∃ frame, s.pollBody = s.receive frame := by
  by_cases h0 : s.ownId = 0
  · obtain ⟨hw, sent, hsent, hin⟩ := h.resolve_left (not_not.2 h0)
    exact ⟨_, State.pollBody_of_in_time h0 hw hsent hin⟩
  · exact ⟨_, State.pollBody_slave h0⟩

/-- A poll whose detector completes nothing ends in what the detector leaves, and reports NONE. -/
theorem State.Listens.pollBody_of_incomplete (h : s.Listens) {s' : State} (hx : s.rxStep = .ok (.incomplete, s')) :
    s.pollBody = .next (s'.answer pollNone) := by
  obtain ⟨frame, hp⟩ := h.pollBody_eq
  simp only [hp, State.receive, hx]

/-- R174, R175: nothing is pending, and nothing is buffered or the silence has not lasted `T_IDLE`. -/
theorem State.Listens.pollBody_of_silence (h : s.Listens) (hq : s.rxq = [])
    (hb : s.buf = [] ∨ ∃ t, s.tLast = some t ∧ (s.now - t).toNat < s.cfg.tIdle) :
    s.pollBody = .next (s.answer pollNone) := by
  refine h.pollBody_of_incomplete ?_
  by_cases hnil : s.buf = []
  · exact State.rxStep_of_empty hq hnil
  · obtain ⟨t, ht, he⟩ := hb.resolve_left hnil
    exact State.rxStep_waits hq hnil ht he

/-- R171, R173: the pending bytes fit, and are appended and stamped. -/
theorem State.Listens.pollBody_of_fits (h : s.Listens) (hq : s.rxq ≠ [])
    (hfit : s.buf.length + s.rxq.length ≤ s.cfg.frameCap) :
    s.pollBody = .next (State.answer { s with buf := s.buf ++ s.rxq, tLast := some s.now, rxq := [] } pollNone) := by
  refine h.pollBody_of_incomplete ?_
  rw [State.rxStep_reads hq (by omega), if_pos hfit]

end

/-- Settles O29: the detector completes nothing, and attaching an image changes nothing of what it reads. -/
theorem pollsWithoutAFrameReportNothing : Obligations.PollsWithoutAFrameReportNothing := by
  intro s r hs
  have hl : s.Listens := hs
  have hl' : State.Listens { s with imgRef := some r } := hs
  exact ⟨fun hq hb => ⟨hl.pollBody_of_silence hq hb, hl'.pollBody_of_silence hq hb⟩,
    fun hq hfit => ⟨hl.pollBody_of_fits hq hfit, hl'.pollBody_of_fits hq hfit⟩⟩

/-! ### The image a poll leaves attached -/

theorem FrameEnd.imgRef_eq {u t : State} (h : FrameEnd u t) : t.imgRef = u.imgRef := by
  cases h <;> simp [State.refuseRequest]

/-- R271: a poll attaches no image of its own. -/
theorem PollEnd.imgRef_eq {s t : State} (h : PollEnd s t) : t.imgRef = s.imgRef := by
  cases h with
  | frame _ _ _ hf => exact hf.imgRef_eq
  | timedOut | overflow => exact State.takeException_imgRef _ _ _
  | idle | silent | read => rfl

/-- R271: the image of a `POLLR` is attached before anything else happens. -/
theorem exec_pollr (s : State) (r : ImgRef) : exec (.pollr r) s = exec .poll { s with imgRef := some r } := rfl

/-- Settles O31: the image is attached first, and no ending of a poll changes which is attached. -/
theorem pollWithRegistersAttachesThenPolls : Obligations.PollWithRegistersAttachesThenPolls := by
  refine ⟨exec_pollr, fun s t r hs h => ?_⟩
  have hend : PollEnd { s with imgRef := some r } t := State.pollBody_ends (hs.attach (some r)).length_le h
  exact hend.imgRef_eq

/-! ### What a poll reports of a failure -/

/-- R273: what the result `r` of a poll that ends in `t` says of the error recorded there. -/
def State.ReportsItsError (t : State) (r : PollResult) : Prop :=
  t.result = .poll r ∧ (r.kind = .error → r.err = errWord t.lastExc t.lastError) ∧ (r.kind ≠ .error → r.err = 0) ∧
  (r.kind ≠ .done → r.fc = 0)

/-- R296: the pair recorded is the pair reported. -/
theorem State.reportsItsError_takeException (s : State) (k : ErrKind) (x : Byte) :
    (s.takeException k x).ReportsItsError ⟨.error, 0, errWord x k⟩ :=
  ⟨rfl, fun _ => rfl, fun hk => absurd rfl hk, fun _ => rfl⟩

theorem State.reportsItsError_complete (s : State) (fc : Byte) : (s.complete fc).ReportsItsError ⟨.done, fc, 0⟩ :=
  ⟨rfl, nofun, fun _ => rfl, fun hk => absurd rfl hk⟩

theorem State.reportsItsError_ignore (s : State) : s.ignore.ReportsItsError ⟨.ignored, 0, 0⟩ :=
  ⟨rfl, nofun, fun _ => rfl, fun _ => rfl⟩

theorem State.reportsItsError_answer_none (s : State) : (s.answer pollNone).ReportsItsError ⟨.none, 0, 0⟩ :=
  ⟨rfl, nofun, fun _ => rfl, fun _ => rfl⟩

theorem FrameEnd.reportsItsError {u t : State} (h : FrameEnd u t) : ∃ r, t.ReportsItsError r := by
  cases h with
  | ignored => exact ⟨_, u.reportsItsError_ignore⟩
  | dropped | failed | refused => exact ⟨_, State.reportsItsError_takeException _ _ _⟩
  | served | accepted => exact ⟨_, State.reportsItsError_complete _ _⟩

theorem PollEnd.reportsItsError {s t : State} (h : PollEnd s t) : ∃ r, t.ReportsItsError r := by
  cases h with
  | idle | silent | read => exact ⟨_, State.reportsItsError_answer_none _⟩
  | timedOut | overflow => exact ⟨_, State.reportsItsError_takeException _ _ _⟩
  | frame _ _ _ hf => exact hf.reportsItsError

/-- R277: the error accessor reads the pair recorded. -/
theorem exec_getErr (s : State) : exec .getErr s = .next (s.answer (.word (errWord s.lastExc s.lastError))) := rfl

/-- Settles O55: the failure a poll reports is the one it records, which `GETERR` reads. -/
theorem pollErrorIsWhatGetErrReturns : Obligations.PollErrorIsWhatGetErrReturns := by
  intro s t hs h
  have hend : PollEnd s t := State.pollBody_ends hs.length_le h
  obtain ⟨r, hr, herr, hother, hfc⟩ := hend.reportsItsError
  refine ⟨r, hr, fun hk => ?getErr, hother, hfc⟩
  case getErr => rw [exec_getErr, ← herr hk]; rfl

/-! ### Configuration and accessors -/

/-- Settles O44: `START` writes the protocol state alone, all of it at its reset values. -/
theorem startKeepsTheConfiguration : Obligations.StartKeepsTheConfiguration :=
  ⟨fun _ => rfl, fun _ => rfl⟩

/-- Settles O45: `SETTMO` tests neither its operand nor `state`. -/
theorem setTimeoutStoresEveryValue : Obligations.SetTimeoutStoresEveryValue :=
  fun _ _ => rfl

/-- Settles O46: the one test of R268, on either side. -/
theorem setIdMakesASlaveOrChangesNothing : Obligations.SetIdMakesASlaveOrChangesNothing := by
  intro s id
  refine ⟨fun hbad => if_pos hbad, fun hlow hhigh => if_neg ?accepted⟩
  case accepted =>
    rintro (rfl | hover)
    · exact absurd hlow (by decide)
    · exact Nat.not_lt.2 hhigh hover

/-- R23, R276: `IDLE` reads as 0, `WAITING` as 1. -/
theorem phaseCode_eq (p : Phase) : phaseCode p = if p = .idle then 0 else 1 := by
  cases p <;> rfl

/-- Settles O47: three accessors read a counter; `GETSTATE` and `GETERR` read by the codes of `state` (R23) and of the
error kinds (R291). -/
theorem accessorsReadAndChangeNothing : Obligations.AccessorsReadAndChangeNothing := by
  intro s
  refine ⟨?state, ?err, rfl, rfl, rfl⟩
  case state =>
    exact congrArg (fun b => Host.Outcome.next (s.answer (.state b))) (phaseCode_eq s.phase)
  case err =>
    refine congrArg (fun b => Host.Outcome.next (s.answer (.word (s.lastExc ++ b)))) (?_ : errCode s.lastError = _)
    cases s.lastError <;> rfl

end Sys2Proof.Machine

/-! ## The reset input, and the queries that have no meaning (R320, R337) -/

namespace Sys2Proof.Machine

/-! ### The reset input -/

theorem step_rst (s : State) (rest : List Event) :
    step { s with schedule := .rst :: rest } = .next (s.pop rest).resetEngine := rfl

/-- R320: every instance starts with the values of the reset table. -/
theorem State.engineReset_resetWith (p : Config.Params) : (State.resetWith p).EngineReset := by
  simp [State.EngineReset, State.resetWith]

/-- R320: the reset input restores all that the reset table lists. -/
theorem State.engineReset_resetEngine (s : State) : s.resetEngine.EngineReset := by
  simp [State.EngineReset]

/-- Settles O16: the input and the initial state have the values of one table; the input takes from the state before it
the parameters and what belongs to the environment. -/
theorem resetInputRestoresTheInitialState : Obligations.ResetInputRestoresTheInitialState := by
  refine ⟨fun s rest => ⟨(s.pop rest).resetEngine, step_rst s rest, State.engineReset_resetEngine _, ?kept⟩,
    fun p => ⟨State.engineReset_resetWith p, rfl⟩⟩
  case kept => simp

/-! ### The queries that have no meaning -/

/-- R151: data of a multiple write that exceed their byte, or with the nine other bytes the buffer, do not fit. -/
theorem requestFits_eq_false_of_lt_byteCount {cap : Nat} {fc : Fc} (hfc : fc = .wrCoils ∨ fc = .wrRegs) {q : Nat}
    (h : min 255 (cap - 9) < requestByteCount fc q) : requestFits cap fc q = false := by
  have hlen : requestLength fc q = 9 + requestByteCount fc q := by rcases hfc with rfl | rfl <;> rfl
  simp only [requestFits, hlen, Bool.and_eq_false_iff, decide_eq_false_iff_not]
  omega

/-- R232: the third refusal to the host is for a target id outside 1 to 247 alone. -/
theorem not_invalidTargetId {id : Byte} (h1 : 1 ≤ id.toNat) (h2 : id.toNat ≤ 247) : ¬(id = 0 ∨ 247 < id.toNat) := by
  rintro (rfl | hover)
  · exact absurd h1 (by decide)
  · exact Nat.not_lt.2 h2 hover

section
variable {s : State} {t : Telegram} (h0 : s.ownId = 0) (hp : s.phase = .idle) (h1 : 1 ≤ t.tid.toNat)
  (h2 : t.tid.toNat ≤ 247)
include h0 hp h1 h2

/-- R234: past the three refusals to the host (R232), a query of an unsupported function code. -/
theorem exec_query_of_unsupported (hfc : fcOf t.fc = none) : exec (.query t) s = .refused .telegramUnsupported := by
  simp only [exec, execQuery, if_neg (not_not_intro h0), if_neg (not_not_intro hp),
    if_neg (not_invalidTargetId h1 h2), hfc]

/-- R151, R234: past the three refusals to the host (R232), a query whose frame does not fit. -/
theorem exec_query_of_not_fits {fc : Fc} (hfc : fcOf t.fc = some fc)
    (hfit : requestFits s.cfg.frameCap fc t.qty.toNat = false) :
    exec (.query t) s = .refused .telegramDoesNotFit := by
  simp only [exec, execQuery, if_neg (not_not_intro h0), if_neg (not_not_intro hp),
    if_neg (not_invalidTargetId h1 h2), hfc, hfit, Bool.false_eq_true, if_false]

end

/-- Settles O43: such a query passes the three refusals of R232, and both preconditions are judged before the image is
read, whatever its capacity. -/
theorem queryWithoutMeaningIsRefused : Obligations.QueryWithoutMeaningIsRefused := by
  intro s t h0 hp h1 h2 _
  refine ⟨fun hfc => ?unsupported, fun hfc hbc => ?coils, fun hfc hbc => ?regs⟩
  case unsupported => exact exec_query_of_unsupported h0 hp h1 h2 (fcOf_eq_none_iff.2 hfc)
  case coils =>
    exact exec_query_of_not_fits h0 hp h1 h2 (fc := .wrCoils) (hfc ▸ rfl)
      (requestFits_eq_false_of_lt_byteCount (.inl rfl) hbc)
  case regs =>
    exact exec_query_of_not_fits h0 hp h1 h2 (fc := .wrRegs) (hfc ▸ rfl)
      (requestFits_eq_false_of_lt_byteCount (.inr rfl) hbc)

end Sys2Proof.Machine
